-- ==== Sys2Proof/Word.lean ====
section
/-! DEFINITION. The word types of XZ-CORE (spec 00_scope.md R10). -/

namespace Sys2Proof

/-- u8 (R10): a ring byte, a sink byte, a payload byte, a status code. -/
abbrev Byte := BitVec 8

/-- u32 (R10): a fingerprint, a repeat distance, the coder's range, a LEN operand. -/
abbrev Word32 := BitVec 32

/-- u64 or s64 (R10): a register value, a DIST operand. -/
abbrev Word64 := BitVec 64

/-- The 128-bit command word (30_encoding.md R62). -/
abbrev CommandWord := BitVec 128

/-- An 11-bit probability cell (10_state.md R31). -/
abbrev Prob := BitVec 11

end Sys2Proof
end

