-- ==== Sys2Proof/Config.lean ====
section
/-! DEFINITION. What an implementation of XZ-CORE fixes: the format constants of 00_scope.md R8 and the
open parameters of R9, HASH_TABLE, POLICY and HT_FLOOR, as opaque constants. -/

namespace Sys2Proof

/-- MIN_MATCH_LEN (R8). -/
def Config.minMatchLen : Nat := 2

/-- MAX_MATCH_LEN (R8). -/
def Config.maxMatchLen : Nat := 273

/-- MAX_DISTANCE = 2^32 - 1 (R8). -/
def Config.maxDistance : Nat := 4294967295

/-- PROB_INIT, the value of every probability cell after INIT (R8). -/
def Config.probInit : Prob := 1024#11

/-- TOP = 2^24, the normalisation threshold (R8). -/
def Config.top : Nat := 16777216

/-- The 0-based distance of the end-of-stream sentinel (R8). -/
def Config.eosDistance : Word32 := 0xFFFFFFFF#32

/-- HASH_TABLE (R9, U8), OPEN: a table of 256 words whose contents the spec does not give. Log 1. -/
opaque Config.hashTable : Byte → Word32

/-- POLICY (R9, 45_control.md R143, U9), OPEN: from FIND's list, as (distance, length) items, a match (distance, length),
or none for the literal LA(0). It is given the list and nothing else, as R143 and `POLICY(res)` of R144 have it. Log 2. -/
opaque Config.policy : List (Nat × Nat) → Option (Nat × Nat)

/-- HT_FLOOR (R9, 41_hash_index.md R100, U10), OPEN: the buckets an index table starts with. No command's meaning takes
it, since no command result depends on it (R100). Log 11. -/
opaque Config.htFloor : Nat

/-- The default of HT_FLOOR, 2^10 (R9). -/
def Config.htFloorDefault : Nat := 1024

/-- What a ring cell that no WRITE of the session has written holds (10_state.md R26, U1): any value. Log 3. -/
opaque Config.ringFree : Nat → Byte

end Sys2Proof
end

