-- ==== Sys2Proof/Syntax.lean ====
section
/-! DEFINITION. The instructions of XZ-CORE: one constructor per row of spec/opcode_table.json, the 19
commands of 30_encoding.md R67 and the 8 packet kinds of R75. -/

namespace Sys2Proof

/-- One packet of the output bitstream (30_encoding.md R75), with the fields its code carries (R76). -/
inductive Packet where
  /-- A literal byte. -/
  | lit (x : Byte)
  /-- A simple match: 0-based distance and length. -/
  | simpleMatch (d0 : Word32) (len : Nat)
  /-- A one-byte match at `rep[0]`. -/
  | shortRep
  /-- A match at `rep[g]`, with its length. -/
  | longRep (g : Fin 4) (len : Nat)
  /-- The end-of-stream marker. -/
  | eos
  deriving DecidableEq, Repr

/-- An instruction. The commands carry the operands of R66; a payload stands for its LEN (R64). -/
inductive Instr where
  /-- INIT, 0x01. -/
  | init
  /-- REG_READ, 0x02: register number. -/
  | regRead (r : Byte)
  /-- REG_WRITE, 0x03: register number and raw value. -/
  | regWrite (r : Byte) (v : Word64)
  /-- SINK_OPEN, 0x04: the limit, an s64. -/
  | sinkOpen (limit : Word64)
  /-- WRITE, 0x10: the bytes to append. -/
  | write (payload : List Byte)
  /-- BYTEAT, 0x11: distance, an s64. -/
  | byteAt (d : Word64)
  /-- SEGMENT, 0x12: distance and byte count. -/
  | segment (d : Word64) (n : Word32)
  /-- MATCHLEN, 0x13: distance and needle. -/
  | matchLen (d : Word64) (needle : List Byte)
  /-- DISCARD, 0x14: byte count. -/
  | discard (n : Word32)
  /-- COPYN, 0x15: byte count. -/
  | copyN (n : Word32)
  /-- HASH, 0x20: word length and the bytes to fingerprint. -/
  | hash (k : Byte) (payload : List Byte)
  /-- FIND, 0x21. -/
  | find
  /-- SKIP, 0x22: byte count. -/
  | skip (n : Word32)
  /-- ENC_LIT, 0x30. -/
  | encLit
  /-- ENC_MATCH, 0x31: distance and length. -/
  | encMatch (d : Word64) (len : Word32)
  /-- ENC_EOS, 0x32. -/
  | encEos
  /-- RC_FLUSH, 0x33. -/
  | rcFlush
  /-- COMPRESS, 0x40: the ALL flag and the operation cap. -/
  | compress (all : Bool) (maxOps : Word32)
  /-- CLOSE, 0x41. -/
  | close
  /-- PKT_LIT: the literal byte. -/
  | pktLit (x : Byte)
  /-- PKT_MATCH: 0-based distance and length. -/
  | pktMatch (d0 : Word32) (len : Nat)
  /-- PKT_SHORTREP. -/
  | pktShortRep
  /-- PKT_LONGREP0: length. -/
  | pktLongRep0 (len : Nat)
  /-- PKT_LONGREP1: length. -/
  | pktLongRep1 (len : Nat)
  /-- PKT_LONGREP2: length. -/
  | pktLongRep2 (len : Nat)
  /-- PKT_LONGREP3: length. -/
  | pktLongRep3 (len : Nat)
  /-- PKT_EOS. -/
  | pktEos
  deriving DecidableEq, Repr

end Sys2Proof
end

