-- ==== Sys2Proof/WellFormed.lean ====
section
/-! DEFINITION. Which instructions have an encoding: register numbers of 30_encoding.md R69, payloads whose
length fits LEN (R64), packet fields in the ranges of R76 and R132. -/

namespace Sys2Proof

/-- The register numbers REG_READ accepts (R69). -/
def regAssigned (r : Byte) : Bool :=
  r.toNat ≤ 0x0B || (0x10 ≤ r.toNat && r.toNat ≤ 0x24) || (0x30 ≤ r.toNat && r.toNat ≤ 0x3B)

/-- The register numbers REG_WRITE accepts (R69). -/
def regWritable (r : Byte) : Bool := r.toNat ≤ 0x0B

/-- A payload whose length fits the 32-bit LEN field (R64, R66). -/
def payloadFits (p : List Byte) : Bool := p.length < 4294967296

/-- A match length a length code can carry (R76). -/
def lenCodable (len : Nat) : Bool := Config.minMatchLen ≤ len && len ≤ Config.maxMatchLen

/-- A packet that R75 and R76 give a code: a simple match's distance is at most MAX_DISTANCE, so the
sentinel is the EOS packet's alone (R8, R132). -/
def Packet.wf : Packet → Bool
  | .lit _ => true
  | .simpleMatch d0 len => lenCodable len && d0 != Config.eosDistance
  | .shortRep => true
  | .longRep _ len => lenCodable len
  | .eos => true

/-- An instruction that has an encoding. -/
def Instr.wf : Instr → Bool
  | .init => true
  | .regRead r => regAssigned r
  | .regWrite r _ => regWritable r
  | .sinkOpen _ => true
  | .write p => payloadFits p
  | .byteAt _ => true
  | .segment _ _ => true
  | .matchLen _ p => payloadFits p
  | .discard _ => true
  | .copyN _ => true
  | .hash _ p => payloadFits p
  | .find => true
  | .skip _ => true
  | .encLit => true
  | .encMatch _ _ => true
  | .encEos => true
  | .rcFlush => true
  | .compress _ _ => true
  | .close => true
  | .pktLit _ => true
  | .pktMatch d0 len => Packet.wf (.simpleMatch d0 len)
  | .pktShortRep => true
  | .pktLongRep0 len => lenCodable len
  | .pktLongRep1 len => lenCodable len
  | .pktLongRep2 len => lenCodable len
  | .pktLongRep3 len => lenCodable len
  | .pktEos => true

/-- The packet a packet row stands for; none for a command. -/
def Instr.packet? : Instr → Option Packet
  | .pktLit x => some (.lit x)
  | .pktMatch d0 len => some (.simpleMatch d0 len)
  | .pktShortRep => some .shortRep
  | .pktLongRep0 len => some (.longRep 0 len)
  | .pktLongRep1 len => some (.longRep 1 len)
  | .pktLongRep2 len => some (.longRep 2 len)
  | .pktLongRep3 len => some (.longRep 3 len)
  | .pktEos => some .eos
  | .init => none
  | .regRead _ => none
  | .regWrite _ _ => none
  | .sinkOpen _ => none
  | .write _ => none
  | .byteAt _ => none
  | .segment _ _ => none
  | .matchLen _ _ => none
  | .discard _ => none
  | .copyN _ => none
  | .hash _ _ => none
  | .find => none
  | .skip _ => none
  | .encLit => none
  | .encMatch _ _ => none
  | .encEos => none
  | .rcFlush => none
  | .compress _ _ => none
  | .close => none

/-- The instruction that a packet is. -/
def Packet.instr : Packet → Instr
  | .lit x => .pktLit x
  | .simpleMatch d0 len => .pktMatch d0 len
  | .shortRep => .pktShortRep
  | .longRep 0 len => .pktLongRep0 len
  | .longRep 1 len => .pktLongRep1 len
  | .longRep 2 len => .pktLongRep2 len
  | .longRep 3 len => .pktLongRep3 len
  | .eos => .pktEos

end Sys2Proof
end

