-- ==== Sys2Proof/Decode.lean ====
section
/-! DEFINITION. Command words and their decoder (30_encoding.md R62 to R70, 60_exceptions.md R152), the packet
code and its decoder (R75 to R77), then an encoder written from the same tables. -/

namespace Sys2Proof

/-! ## Bit and byte order -/

/-- The `n` low bits of `v`, most significant first. -/
def bitsMsb (v : Nat) : Nat → List Bool
  | 0 => []
  | n + 1 => v.testBit n :: bitsMsb v n

/-- The `n` low bits of `v`, least significant first. -/
def bitsLsb (v : Nat) : Nat → List Bool
  | 0 => []
  | n + 1 => v.testBit 0 :: bitsLsb (v / 2) n

/-- A number of `n` bytes, least significant byte first (R65). -/
def natToBytes (v : Nat) : Nat → List Byte
  | 0 => []
  | n + 1 => BitVec.ofNat 8 v :: natToBytes (v / 256) n

/-- The number that bytes spell, least significant byte first (R65). -/
def bytesToNat : List Byte → Nat
  | [] => 0
  | b :: bs => b.toNat + 256 * bytesToNat bs

/-! ## The command word (R62) -/

/-- OPC, bits [7:0]. -/
def opcOf (w : CommandWord) : Byte := w.extractLsb' 0 8

/-- SUB, bits [15:8]. -/
def subOf (w : CommandWord) : Byte := w.extractLsb' 8 8

/-- RSVD, bits [31:16]. -/
def rsvdOf (w : CommandWord) : BitVec 16 := w.extractLsb' 16 16

/-- LEN, bits [63:32]. -/
def lenOf (w : CommandWord) : Word32 := w.extractLsb' 32 32

/-- DIST, bits [127:64]. -/
def distOf (w : CommandWord) : Word64 := w.extractLsb' 64 64

/-- Why a word with its payload does not decode (60_exceptions.md R152). Every one of them gives ILLEGAL. -/
inductive DecodeError where
  /-- OPC is not in the opcode map (R68). -/
  | opcode
  /-- RSVD is not 0 (R63). -/
  | reserved
  /-- A field the command does not use is not 0 (R63). -/
  | unusedField
  /-- SUB names no register the command accepts (R69). -/
  | register
  /-- The payload's length is not LEN, or there is a payload on a command without one (R64). -/
  | payload
  /-- Fewer bytes than a command word has (R50, R65). -/
  | shortWord
  /-- Decision bits that no packet code begins with (R75 to R77). -/
  | packet
  /-- Decision bits left over after one packet (R77). -/
  | packetTail
  deriving DecidableEq, Repr

/-- The commands that carry a payload (R64): WRITE, MATCHLEN, HASH. -/
def carriesPayload (opc : Byte) : Bool := opc == 0x10#8 || opc == 0x13#8 || opc == 0x20#8

/-- Which of SUB, LEN and DIST a command reads (R67); the others must be 0 (R63). -/
structure FieldUse where
  sub : Bool
  len : Bool
  dist : Bool
  deriving DecidableEq, Repr

/-- R63 and R64: RSVD and every unused field are 0, and the payload has its length. -/
def fieldCheck (u : FieldUse) (w : CommandWord) (payload : List Byte) : Option DecodeError :=
  if rsvdOf w != 0 then some .reserved
  else if !u.sub && subOf w != 0 then some .unusedField
  else if !u.len && lenOf w != 0 then some .unusedField
  else if !u.dist && distOf w != 0 then some .unusedField
  else if carriesPayload (opcOf w) then
    if payload.length = (lenOf w).toNat then none else some .payload
  else if payload.isEmpty then none else some .payload

/-- The instruction a word selects once its fields are sound, or the reason there is none. -/
def fieldsThen (u : FieldUse) (w : CommandWord) (payload : List Byte) (i : Except DecodeError Instr) :
    Except DecodeError Instr :=
  match fieldCheck u w payload with
  | some e => .error e
  | none => i

/-- Decoding a command word with its payload (R67, R152): total, and each refusal named. -/
def decode (w : CommandWord) (payload : List Byte) : Except DecodeError Instr :=
  match (opcOf w).toNat with
  | 0x01 => fieldsThen ⟨false, false, false⟩ w payload (.ok .init)
  | 0x02 => fieldsThen ⟨true, false, false⟩ w payload
      (if regAssigned (subOf w) then .ok (.regRead (subOf w)) else .error .register)
  | 0x03 => fieldsThen ⟨true, false, true⟩ w payload
      (if regWritable (subOf w) then .ok (.regWrite (subOf w) (distOf w)) else .error .register)
  | 0x04 => fieldsThen ⟨false, false, true⟩ w payload (.ok (.sinkOpen (distOf w)))
  | 0x10 => fieldsThen ⟨false, true, false⟩ w payload (.ok (.write payload))
  | 0x11 => fieldsThen ⟨false, false, true⟩ w payload (.ok (.byteAt (distOf w)))
  | 0x12 => fieldsThen ⟨false, true, true⟩ w payload (.ok (.segment (distOf w) (lenOf w)))
  | 0x13 => fieldsThen ⟨false, true, true⟩ w payload (.ok (.matchLen (distOf w) payload))
  | 0x14 => fieldsThen ⟨false, true, false⟩ w payload (.ok (.discard (lenOf w)))
  | 0x15 => fieldsThen ⟨false, true, false⟩ w payload (.ok (.copyN (lenOf w)))
  | 0x20 => fieldsThen ⟨true, true, false⟩ w payload (.ok (.hash (subOf w) payload))
  | 0x21 => fieldsThen ⟨false, false, false⟩ w payload (.ok .find)
  | 0x22 => fieldsThen ⟨false, true, false⟩ w payload (.ok (.skip (lenOf w)))
  | 0x30 => fieldsThen ⟨false, false, false⟩ w payload (.ok .encLit)
  | 0x31 => fieldsThen ⟨false, true, true⟩ w payload (.ok (.encMatch (distOf w) (lenOf w)))
  | 0x32 => fieldsThen ⟨false, false, false⟩ w payload (.ok .encEos)
  | 0x33 => fieldsThen ⟨false, false, false⟩ w payload (.ok .rcFlush)
  | 0x40 => fieldsThen ⟨true, true, false⟩ w payload
      (if (subOf w).toNat < 2 then .ok (.compress ((subOf w).toNat == 1) (lenOf w)) else .error .unusedField)
  | 0x41 => fieldsThen ⟨false, false, false⟩ w payload (.ok .close)
  | _ => .error .opcode

/-- The total length in bytes of a command, word plus payload, from OPC and LEN alone (R70). -/
def commandLength (w : CommandWord) : Nat :=
  16 + (if carriesPayload (opcOf w) then (lenOf w).toNat else 0)

/-- The command word that the first 16 bytes of a serialised stream spell (R65). -/
def wordOfBytes (bs : List Byte) : CommandWord := BitVec.ofNat 128 (bytesToNat (bs.take 16))

/-- One command off the front of a serialised stream (R65, R70): its word, its payload and the rest. -/
def splitCommand (bs : List Byte) : Option (CommandWord × List Byte × List Byte) :=
  if bs.length < 16 then none
  else if bs.length < commandLength (wordOfBytes bs) then none
  else some (wordOfBytes bs, (bs.drop 16).take (commandLength (wordOfBytes bs) - 16),
    bs.drop (commandLength (wordOfBytes bs)))

/-- Decoding one serialised command (R65): the word's 16 bytes, then the payload. -/
def decodeBytes (bs : List Byte) : Except DecodeError Instr :=
  if bs.length < 16 then .error .shortWord else decode (wordOfBytes bs) (bs.drop 16)

/-! ## The packet code (R75 to R77) -/

/-- The distance slot of a 0-based distance (44_lzma_model.md R130). -/
def distSlot (d0 : Nat) : Nat :=
  if d0 < 4 then d0 else 2 * Nat.log2 d0 + (d0.testBit (Nat.log2 d0 - 1)).toNat

/-- The footer bits of a slot from 4 on (44_lzma_model.md R131). -/
def slotFooterBits (slot : Nat) : Nat := slot / 2 - 1

/-- The least distance of a slot from 4 on (44_lzma_model.md R131): `(2 | (slot & 1)) << fb`. -/
def slotBase (slot : Nat) : Nat := (2 + slot % 2) * 2 ^ slotFooterBits slot

/-- The decision bits of a length (R76, 44_lzma_model.md R129). -/
def lenBits (len : Nat) : List Bool :=
  if len - 2 < 8 then false :: bitsMsb (len - 2) 3
  else if len - 2 < 16 then true :: false :: bitsMsb (len - 2 - 8) 3
  else true :: true :: bitsMsb (len - 2 - 16) 8

/-- The decision bits of a distance (R76, 44_lzma_model.md R131). -/
def distBits (d0 : Nat) : List Bool :=
  bitsMsb (distSlot d0) 6 ++
    (if distSlot d0 < 4 then []
     else if distSlot d0 < 14 then bitsLsb (d0 - slotBase (distSlot d0)) (slotFooterBits (distSlot d0))
     else bitsMsb ((d0 - slotBase (distSlot d0)) / 16) (slotFooterBits (distSlot d0) - 4)
       ++ bitsLsb ((d0 - slotBase (distSlot d0)) % 16) 4)

/-- The leading decisions that name the packet kind (R75). -/
def packetHead : Packet → List Bool
  | .lit _ => [false]
  | .simpleMatch _ _ => [true, false]
  | .shortRep => [true, true, false, false]
  | .longRep 0 _ => [true, true, false, true]
  | .longRep 1 _ => [true, true, true, false]
  | .longRep 2 _ => [true, true, true, true, false]
  | .longRep 3 _ => [true, true, true, true, true]
  | .eos => [true, false]

/-- All decision bits of a packet, in coding order (R75, R76). -/
def packetBits : Packet → List Bool
  | .lit x => packetHead (.lit x) ++ bitsMsb x.toNat 8
  | .simpleMatch d0 len => packetHead (.simpleMatch d0 len) ++ lenBits len ++ distBits d0.toNat
  | .shortRep => packetHead .shortRep
  | .longRep g len => packetHead (.longRep g len) ++ lenBits len
  | .eos => packetHead .eos ++ lenBits 2 ++ distBits Config.eosDistance.toNat

/-- Reads `n` bits, most significant first, onto `acc`. -/
def readMsb : Nat → Nat → List Bool → Option (Nat × List Bool)
  | 0, acc, bs => some (acc, bs)
  | _ + 1, _, [] => none
  | n + 1, acc, b :: bs => readMsb n (2 * acc + b.toNat) bs

/-- Reads `n` bits, least significant first. -/
def readLsb : Nat → List Bool → Option (Nat × List Bool)
  | 0, bs => some (0, bs)
  | _ + 1, [] => none
  | n + 1, b :: bs =>
    match readLsb n bs with
    | none => none
    | some (v, rest) => some (b.toNat + 2 * v, rest)

/-- Reads a length code (R76, R77). -/
def readLen : List Bool → Option (Nat × List Bool)
  | false :: bs => (readMsb 3 0 bs).map (fun r => (r.1 + 2, r.2))
  | true :: false :: bs => (readMsb 3 0 bs).map (fun r => (r.1 + 10, r.2))
  | true :: true :: bs => (readMsb 8 0 bs).map (fun r => (r.1 + 18, r.2))
  | [] => none
  | [true] => none

/-- Reads what a distance code holds after its slot (R76, R77). -/
def readDistTail (slot : Nat) (bs : List Bool) : Option (Nat × List Bool) :=
  if slot < 4 then some (slot, bs)
  else if slot < 14 then (readLsb (slotFooterBits slot) bs).map (fun r => (slotBase slot + r.1, r.2))
  else
    match readMsb (slotFooterBits slot - 4) 0 bs with
    | none => none
    | some (hi, bs') => (readLsb 4 bs').map (fun r => (slotBase slot + 16 * hi + r.1, r.2))

/-- Reads a distance code (R76, R77). -/
def readDist (bs : List Bool) : Option (Nat × List Bool) :=
  match readMsb 6 0 bs with
  | none => none
  | some (slot, bs') => readDistTail slot bs'

/-- The match packet that a length and a 0-based distance spell; the sentinel goes with length 2 only (R75). -/
def matchPacket (len d0 : Nat) : Option Packet :=
  if d0 = Config.eosDistance.toNat then (if len = 2 then some .eos else none)
  else some (.simpleMatch (BitVec.ofNat 32 d0) len)

/-- Reads a length code and makes the long rep of `rep[g]`. -/
def readLongRep (g : Fin 4) (bs : List Bool) : Option (Packet × List Bool) :=
  (readLen bs).map (fun r => (.longRep g r.1, r.2))

/-- Reads a simple match's length and distance. -/
def readMatch (bs : List Bool) : Option (Packet × List Bool) :=
  match readLen bs with
  | none => none
  | some (len, bs') =>
    match readDist bs' with
    | none => none
    | some (d0, rest) => (matchPacket len d0).map (fun p => (p, rest))

/-- One packet off the front of a sequence of decision bits (R77). -/
def decodePacket : List Bool → Option (Packet × List Bool)
  | false :: bs => (readMsb 8 0 bs).map (fun r => (.lit (BitVec.ofNat 8 r.1), r.2))
  | true :: false :: bs => readMatch bs
  | true :: true :: false :: false :: bs => some (.shortRep, bs)
  | true :: true :: false :: true :: bs => readLongRep 0 bs
  | true :: true :: true :: false :: bs => readLongRep 1 bs
  | true :: true :: true :: true :: false :: bs => readLongRep 2 bs
  | true :: true :: true :: true :: true :: bs => readLongRep 3 bs
  | [] => none
  | [true] => none
  | [true, true] => none
  | [true, true, false] => none
  | [true, true, true] => none
  | [true, true, true, true] => none

/-! ## The encoder -/

/-- An instruction's code: a command word with its payload, or a packet's decision bits. -/
inductive Encoded where
  | command (w : CommandWord) (payload : List Byte)
  | packet (bits : List Bool)
  deriving DecidableEq, Repr

/-- A command word from its fields, RSVD being 0 (R62). -/
def mkWord (dist : Word64) (len : Word32) (sub opc : Byte) : CommandWord :=
  BitVec.ofNat 128
    (opc.toNat + sub.toNat * 256 + len.toNat * 4294967296 + dist.toNat * 18446744073709551616)

/-- A payload's LEN field (R64). -/
def payloadLen (p : List Byte) : Word32 := BitVec.ofNat 32 p.length

/-- The code of an instruction (R67, R71, R75). -/
def encode : Instr → Encoded
  | .init => .command (mkWord 0 0 0 0x01) []
  | .regRead r => .command (mkWord 0 0 r 0x02) []
  | .regWrite r v => .command (mkWord v 0 r 0x03) []
  | .sinkOpen limit => .command (mkWord limit 0 0 0x04) []
  | .write p => .command (mkWord 0 (payloadLen p) 0 0x10) p
  | .byteAt d => .command (mkWord d 0 0 0x11) []
  | .segment d n => .command (mkWord d n 0 0x12) []
  | .matchLen d p => .command (mkWord d (payloadLen p) 0 0x13) p
  | .discard n => .command (mkWord 0 n 0 0x14) []
  | .copyN n => .command (mkWord 0 n 0 0x15) []
  | .hash k p => .command (mkWord 0 (payloadLen p) k 0x20) p
  | .find => .command (mkWord 0 0 0 0x21) []
  | .skip n => .command (mkWord 0 n 0 0x22) []
  | .encLit => .command (mkWord 0 0 0 0x30) []
  | .encMatch d len => .command (mkWord d len 0 0x31) []
  | .encEos => .command (mkWord 0 0 0 0x32) []
  | .rcFlush => .command (mkWord 0 0 0 0x33) []
  | .compress all n => .command (mkWord 0 n (if all then 1 else 0) 0x40) []
  | .close => .command (mkWord 0 0 0 0x41) []
  | .pktLit x => .packet (packetBits (.lit x))
  | .pktMatch d0 len => .packet (packetBits (.simpleMatch d0 len))
  | .pktShortRep => .packet (packetBits .shortRep)
  | .pktLongRep0 len => .packet (packetBits (.longRep 0 len))
  | .pktLongRep1 len => .packet (packetBits (.longRep 1 len))
  | .pktLongRep2 len => .packet (packetBits (.longRep 2 len))
  | .pktLongRep3 len => .packet (packetBits (.longRep 3 len))
  | .pktEos => .packet (packetBits .eos)

/-- Decoding a code: a command's word and payload, or the bits of exactly one packet. -/
def decodeEncoded : Encoded → Except DecodeError Instr
  | .command w p => decode w p
  | .packet bits =>
    match decodePacket bits with
    | none => .error .packet
    | some (p, []) => .ok p.instr
    | some (_, _ :: _) => .error .packetTail

/-- A command serialised (R65): the word's 16 bytes, then the payload. -/
def serialise (w : CommandWord) (payload : List Byte) : List Byte := natToBytes w.toNat 16 ++ payload

/-! ## The opcode table's words -/

/-- The command word that `nbits` bits spell, every bit above them 0. -/
def tableWord (nbits w : Nat) : CommandWord := BitVec.ofNat 128 (w % 2 ^ nbits)

/-- The payload that goes with it: LEN bytes for a command that carries one, from the bits above the word. -/
def tablePayload (nbits w : Nat) : List Byte :=
  if carriesPayload (opcOf (tableWord nbits w)) then
    natToBytes (w % 2 ^ nbits / 2 ^ 128) (lenOf (tableWord nbits w)).toNat
  else []

/-- The instruction the decoder reads from the opcode table's bits, laid out as R65 serialises them. -/
def decodeTableWord (nbits w : Nat) : Option Instr :=
  match decodeBytes (serialise (tableWord nbits w) (tablePayload nbits w)) with
  | .ok i => some i
  | .error _ => none

end Sys2Proof
end

