-- ==== Sys2Proof/Machine/Sparse.lean ====
section
/-! DEFINITION. Sparse storage as plain data: a list of (key, value) pairs in one canonical form, keys strictly
rising. The ring, the probability bank and the hash index are held this way. -/

namespace Sys2Proof.Machine

/-- What is listed at a key. -/
def sparseGet {α : Type} : List (Nat × α) → Nat → Option α
  | [], _ => none
  | (k, v) :: rest, a => if k = a then some v else sparseGet rest a

/-- Lists a value at a key, in key order, in place of what stood there. -/
def sparseSet {α : Type} : List (Nat × α) → Nat → α → List (Nat × α)
  | [], a, v => [(a, v)]
  | (k, w) :: rest, a, v =>
    if a < k then (a, v) :: (k, w) :: rest
    else if a = k then (a, v) :: rest
    else (k, w) :: sparseSet rest a v

/-- Takes a key off the list. -/
def sparseErase {α : Type} : List (Nat × α) → Nat → List (Nat × α)
  | [], _ => []
  | (k, w) :: rest, a => if k = a then sparseErase rest a else (k, w) :: sparseErase rest a

/-- Every key is above `lo`, and keys rise strictly. -/
def sparseAbove {α : Type} : Nat → List (Nat × α) → Bool
  | _, [] => true
  | lo, (k, _) :: rest => decide (lo < k) && sparseAbove k rest

/-- The canonical form: keys rise strictly. -/
def sparseSorted {α : Type} : List (Nat × α) → Bool
  | [] => true
  | (k, _) :: rest => sparseAbove k rest

/-- The ring buffer's cells (10_state.md R26): (cell number, byte), keys rising. A cell that is not listed holds
no value the session has written. -/
abbrev Memory := List Host.Cell

/-- The byte a cell lists, if it lists one. -/
def Memory.read (m : Memory) (cell : Nat) : Option Byte := sparseGet m cell

/-- Writes a cell. -/
def Memory.write (m : Memory) (cell : Nat) (b : Byte) : Memory := sparseSet m cell b

/-- The canonical form of the ring: strictly rising cells. An unlisted cell has no value, so no entry can equal
what an unlisted cell reads as. -/
def Memory.wf (m : Memory) : Bool := sparseSorted m

/-- The probability bank's cells that do not hold PROB_INIT (10_state.md R31), by address, keys rising. -/
abbrev Bank := List (Nat × Prob)

/-- A probability cell: PROB_INIT where nothing is listed (45_control.md R140). -/
def Bank.read (bank : Bank) (a : Nat) : Prob := (sparseGet bank a).getD Config.probInit

/-- Writes a probability cell; PROB_INIT is not listed. -/
def Bank.write (bank : Bank) (a : Nat) (p : Prob) : Bank :=
  if p = Config.probInit then sparseErase bank a else sparseSet bank a p

/-- The canonical form of the bank: strictly rising addresses, and no cell listed at PROB_INIT. -/
def Bank.wf (bank : Bank) : Bool := sparseSorted bank && bank.all (fun c => c.2 != Config.probInit)

end Sys2Proof.Machine
end

