-- ==== Sys2Proof/Machine/State.lean ====
section
/-! DEFINITION. The state of XZ-CORE (10_state.md R15 to R37), its reset value (R44), and the reasons a step of
the model could stop. -/

namespace Sys2Proof.Machine

/-- The status codes (60_exceptions.md R147), in the order of their numbers. -/
inductive Status where
  | ok
  | noSpace
  | limit
  | range
  | config
  | illegal
  | sinkOverflow
  | notInit
  | faulted
  | sequence
  deriving DecidableEq, Repr

/-- The response record of a command (30_encoding.md R72). -/
structure Response where
  status : Status
  count  : Word64
  value  : Word64
  items  : List Word64
  deriving DecidableEq, Repr

/-- The twelve configuration registers, in register order (10_state.md R17). -/
structure Cfg where
  dictCap   : Word64
  laCap     : Word64
  lc        : Word64
  lp        : Word64
  pb        : Word64
  mf        : Word64
  wordLen   : Word64
  niceLen   : Word64
  depth     : Word64
  eos       : Word64
  opMargin  : Word64
  eosMargin : Word64
  deriving DecidableEq, Repr

/-- The repeat-distance cache, most recent first, 0-based distances (10_state.md R30). -/
structure Reps where
  r0 : Word32
  r1 : Word32
  r2 : Word32
  r3 : Word32
  deriving DecidableEq, Repr

/-- The abstract hash index (10_state.md R36, 41_hash_index.md R90): SINGLE_2 and SINGLE_3 map a fingerprint to a
position, CHAIN maps one to its positions, most recent first. -/
structure Index where
  single2 : List (Nat × Nat)
  single3 : List (Nat × Nat)
  chain   : List (Nat × List Nat)
  deriving DecidableEq, Repr

/-- The range encoder with its probability bank and its sink (10_state.md R31, R33, R34). `sinks` is the observation
of 20_memory.md R56: the bytes each sink accepted, in emission order, the newest sink first (log 6). -/
structure Coder where
  probs       : Bank
  rcLow       : Word64
  rcRange     : Word32
  rcCache     : Byte
  rcCacheSize : Nat
  rcFresh     : Bool
  sinkRem     : Nat
  outCount    : Nat
  sinkBroken  : Bool
  sinks       : List (List Byte)
  deriving DecidableEq, Repr

/-- One move of the host (70_reset_and_hazards.md R171, R178): a command word with its payload, or a hardware
reset between commands (R168). -/
inductive HostEvent where
  | command (w : CommandWord) (payload : List Byte)
  | reset
  deriving DecidableEq, Repr

/-- The state (10_state.md R15), with the host's side beside it: `inbox`, the host's moves not yet taken, and
`responses`, the records returned so far, oldest first (logs 5 and 6). Counters are exact numbers (log 8). -/
structure State where
  cfgPending : Cfg
  cfg        : Cfg
  initDone   : Bool
  faulted    : Bool
  faultCode  : Byte
  faultOpc   : Byte
  lastStatus : Status
  ring       : Memory
  H          : Nat
  B          : Nat
  ahead      : Nat
  pend       : Nat
  index      : Index
  idxBase    : Int
  lzState    : Byte
  rep        : Reps
  coder      : Coder
  inbox      : List HostEvent
  responses  : List Response
  deriving DecidableEq, Repr

/-- The reasons the model could stop with a fault: NONE. Every condition the spec reports is a response record and a
next state (60_exceptions.md R147, R159), so no instruction raises a Lean fault. Safe: there is nothing to raise. -/
inductive Fault where
  deriving DecidableEq, Repr

/-- The reasons an instruction could have no meaning. -/
inductive Refusal where
  /-- Raised by an arm of exec for an instruction without a meaning; no arm raises it now. Safe: it stops. -/
  | notModelled (mnemonic : String)
  deriving DecidableEq, Repr

/-- The CFG registers at hardware reset (10_state.md R17). -/
def Cfg.pendingReset : Cfg where
  dictCap   := 0
  laCap     := 4096
  lc        := 3
  lp        := 0
  pb        := 2
  mf        := 0
  wordLen   := 4
  niceLen   := 273
  depth     := 16
  eos       := 0
  opMargin  := 20
  eosMargin := 16

/-- The active configuration at hardware reset: all fields 0 (10_state.md R44). -/
def Cfg.zero : Cfg := ⟨0, 0, 0, 0, 0, 0, 0, 0, 0, 0, 0, 0⟩

/-- The repeat cache at reset and after INIT (10_state.md R30, R44). -/
def Reps.zero : Reps := ⟨0, 0, 0, 0⟩

/-- The index with every table empty (10_state.md R36). -/
def Index.empty : Index := ⟨[], [], []⟩

/-- The coder at hardware reset (10_state.md R44); the bank as log 4 says. -/
def Coder.reset : Coder where
  probs       := []
  rcLow       := 0
  rcRange     := 0xFFFFFFFF#32
  rcCache     := 0
  rcCacheSize := 1
  rcFresh     := true
  sinkRem     := 0
  outCount    := 0
  sinkBroken  := false
  sinks       := []

/-- The machine right after hardware reset (10_state.md R44), with no move of the host waiting. -/
def State.reset : State where
  cfgPending := Cfg.pendingReset
  cfg        := Cfg.zero
  initDone   := false
  faulted    := false
  faultCode  := 0
  faultOpc   := 0
  lastStatus := .ok
  ring       := []
  H          := 0
  B          := 0
  ahead      := 0
  pend       := 0
  index      := Index.empty
  idxBase    := -1
  lzState    := 0
  rep        := Reps.zero
  coder      := Coder.reset
  inbox      := []
  responses  := []

end Sys2Proof.Machine
end

