-- ==== Sys2Proof/Machine/Flags.lean ====
section
/-! DEFINITION. The status codes, the STATUS register's fields (10_state.md R21) and the encoder state's transitions
(44_lzma_model.md R125), which are the machine's only status-like state (10_state.md R38). -/

namespace Sys2Proof.Machine

/-- The number of a status (60_exceptions.md R147). -/
def Status.code : Status → Byte
  | .ok => 0
  | .noSpace => 1
  | .limit => 2
  | .range => 3
  | .config => 4
  | .illegal => 5
  | .sinkOverflow => 6
  | .notInit => 7
  | .faulted => 8
  | .sequence => 9

/-- The STATUS register (10_state.md R21). -/
def statusWord (s : State) : Word64 :=
  BitVec.ofNat 64
    (s.lastStatus.code.toNat
      + s.initDone.toNat * 0x100
      + s.faulted.toNat * 0x200
      + s.coder.sinkBroken.toNat * 0x400
      + (s.initDone && s.coder.rcFresh).toNat * 0x800
      + s.faultCode.toNat * 0x10000
      + s.faultOpc.toNat * 0x1000000)

/-- lzState after a literal (R125). -/
def updLit (st : Nat) : Nat := if st < 4 then 0 else if st ≤ 9 then st - 3 else st - 6

/-- lzState after a simple match (R125). -/
def updMatch (st : Nat) : Nat := if st < 7 then 7 else 10

/-- lzState after a long rep (R125). -/
def updRep (st : Nat) : Nat := if st < 7 then 8 else 11

/-- lzState after a short rep (R125). -/
def updShortRep (st : Nat) : Nat := if st < 7 then 9 else 11

/-- lzState after a packet (30_encoding.md R75). -/
def lzAfter (p : Packet) (st : Nat) : Nat :=
  match p with
  | .lit _ => updLit st
  | .simpleMatch _ _ => updMatch st
  | .shortRep => updShortRep st
  | .longRep _ _ => updRep st
  | .eos => updMatch st

end Sys2Proof.Machine
end

