-- ==== Sys2Proof/Machine/Ops.lean ====
section
/-! DEFINITION. The named operations over registers, ring and sink, the response record, the common checks of
60_exceptions.md R151, the fault latch (R149) and hardware reset, the only event that clears it (R150). -/

namespace Sys2Proof.Machine

/-! ## Configuration registers -/

/-- The configuration field numbered `n`, in the order of 10_state.md R17; 0 past the last. -/
def Cfg.get (c : Cfg) (n : Nat) : Word64 :=
  match n with
  | 0 => c.dictCap
  | 1 => c.laCap
  | 2 => c.lc
  | 3 => c.lp
  | 4 => c.pb
  | 5 => c.mf
  | 6 => c.wordLen
  | 7 => c.niceLen
  | 8 => c.depth
  | 9 => c.eos
  | 10 => c.opMargin
  | 11 => c.eosMargin
  | _ => 0

/-- Stores the configuration field numbered `n`; nothing past the last. -/
def Cfg.set (c : Cfg) (n : Nat) (v : Word64) : Cfg :=
  match n with
  | 0 => { c with dictCap := v }
  | 1 => { c with laCap := v }
  | 2 => { c with lc := v }
  | 3 => { c with lp := v }
  | 4 => { c with pb := v }
  | 5 => { c with mf := v }
  | 6 => { c with wordLen := v }
  | 7 => { c with niceLen := v }
  | 8 => { c with depth := v }
  | 9 => { c with eos := v }
  | 10 => { c with opMargin := v }
  | 11 => { c with eosMargin := v }
  | _ => c

/-- INIT's validation of a configuration, on exact values (45_control.md R139). -/
def Cfg.legal (c : Cfg) : Bool :=
  c.mf.toNat == 0
    && 1 ≤ c.dictCap.toNat
    && Config.maxMatchLen ≤ c.laCap.toNat
    && c.dictCap.toNat + c.laCap.toNat ≤ 4294967295
    && c.lc.toNat + c.lp.toNat ≤ 4
    && c.pb.toNat ≤ 4
    && (c.wordLen.toNat == 2 || c.wordLen.toNat == 3 || c.wordLen.toNat == 4)
    && 2 ≤ c.niceLen.toNat
    && c.niceLen.toNat ≤ Config.maxMatchLen
    && 1 ≤ c.depth.toNat
    && c.depth.toNat ≤ 4294967295
    && c.eos.toNat ≤ 1
    && c.opMargin.toNat ≤ 9223372036854775807
    && c.eosMargin.toNat ≤ 9223372036854775807

/-! ## Derived sizes -/

/-- L, the ring's length in bytes (00_scope.md R7). -/
def ringLen (s : State) : Nat := s.cfg.dictCap.toNat + s.cfg.laCap.toNat

/-- dictLen, the addressable history bytes (10_state.md R24). -/
def dictLen (s : State) : Nat := min s.H s.cfg.dictCap.toNat

/-- Available, the bytes a WRITE can accept (10_state.md R25). -/
def available (s : State) : Nat :=
  min (ringLen s - s.B - dictLen s) (18446744073709551615 - (s.H + s.B))

/-- HEADROOM, signed (10_state.md R35). -/
def headroom (c : Coder) : Int := (c.sinkRem : Int) - ((c.rcCacheSize : Int) + 4)

/-! ## The ring (20_memory.md R45) -/

/-- The cell of stream position `p`. -/
def ringCell (s : State) (p : Nat) : Nat := p % ringLen s

/-- Ring(p): the byte at stream position `p`; a cell nothing has written holds any value (log 3). -/
def ringAt (s : State) (p : Nat) : Byte :=
  (s.ring.read (ringCell s p)).getD (Config.ringFree (ringCell s p))

/-- The `n` bytes from stream position `p` on, in stream order (20_memory.md R48). -/
def ringSeg (s : State) (p : Nat) : Nat → List Byte
  | 0 => []
  | n + 1 => ringAt s p :: ringSeg s (p + 1) n

/-- RingWrite(p, b) for consecutive positions from `p` on (20_memory.md R45, R51). -/
def ringWriteAll (len : Nat) : Memory → Nat → List Byte → Memory
  | m, _, [] => m
  | m, p, b :: bs => ringWriteAll len (m.write (p % len) b) (p + 1) bs

/-- LA(i), the i-th look-ahead byte (00_scope.md R12). -/
def lookAhead (s : State) (i : Nat) : Byte := ringAt s (s.H + i)

/-- Advance(m): moves `m` look-ahead bytes into history (40_dictionary.md R84). -/
def advance (m : Nat) (s : State) : State :=
  { s with H := s.H + m, B := s.B - m, ahead := s.ahead - m, pend := s.pend - m }

/-! ## The sink (43_range_coder.md R118) -/

/-- The newest sink takes a byte. -/
def acceptByte (b : Byte) : List (List Byte) → List (List Byte)
  | [] => [[b]]
  | t :: ts => (t ++ [b]) :: ts

/-- Emit(b): offers one byte to the sink; with none left to give it is dropped and the sink is broken. -/
def emit (b : Byte) (c : Coder) : Coder :=
  if c.sinkRem = 0 then { c with sinkBroken := true }
  else { c with
    sinkRem := c.sinkRem - 1
    outCount := c.outCount + 1
    sinks := acceptByte b c.sinks }

/-- Emit for each byte in order. -/
def emitAll : List Byte → Coder → Coder
  | [], c => c
  | b :: bs, c => emitAll bs (emit b c)

/-! ## Responses and the fault latch -/

/-- Returns a response record and leaves STATUS.LAST (REG_READ alone, 10_state.md R21). -/
def respondQuietly (st : Status) (count : Nat) (value : Word64) (items : List Word64) (s : State) : State :=
  { s with responses := s.responses ++ [⟨st, BitVec.ofNat 64 count, value, items⟩] }

/-- Returns a response record and writes STATUS.LAST (60_exceptions.md R151). -/
def respond (st : Status) (count : Nat) (value : Word64) (items : List Word64) (s : State) : State :=
  respondQuietly st count value items { s with lastStatus := st }

/-- A response as the host receives it (30_encoding.md R65): a 24-byte header, then the items, little-endian. -/
def serialiseResponse (r : Response) : List Byte :=
  [r.status.code] ++ List.replicate 7 0 ++ natToBytes r.count.toNat 8 ++ natToBytes r.value.toNat 8
    ++ r.items.flatMap (fun v => natToBytes v.toNat 8)

/-- Sets the fault latch once: the first fatal status and its opcode (60_exceptions.md R149). -/
def latchFault (st : Status) (opc : Byte) (s : State) : State :=
  if s.faulted then s
  else { s with faulted := true, faultCode := st.code, faultOpc := opc }

/-- RaiseFatal(S): the latch, then the response (60_exceptions.md R149); LAST is written but by REG_READ. -/
def raiseFatal (st : Status) (opc : Byte) (s : State) : State :=
  if opc = 0x02#8 then respondQuietly st 0 0 [] (latchFault st opc s)
  else respond st 0 0 [] (latchFault st opc s)

/-- Hardware reset (70_reset_and_hazards.md R168): every piece of state at its reset value. The host's later
moves stay, and a new run's observation begins (R171, log 14). -/
def hardReset (s : State) : State := { State.reset with inbox := s.inbox }

/-! ## The common checks (60_exceptions.md R151) -/

/-- Which of the sink check (step 5), the PEND check and the RC_FRESH check (step 6) a command makes. -/
structure Checks where
  sink  : Bool
  idle  : Bool
  fresh : Bool
  deriving DecidableEq, Repr

/-- Steps 1 and 4 to 6 of R151: the refusal that applies first, if any. -/
def commonCheck (c : Checks) (s : State) : Option Status :=
  if s.faulted then some .faulted
  else if !s.initDone then some .notInit
  else if c.sink && s.coder.sinkBroken then some .sinkOverflow
  else if c.idle && s.pend != 0 then some .sequence
  else if c.fresh && !s.coder.rcFresh then some .sequence
  else none

/-- A command of R151 step 7: refused by the common checks, or its own rule run. -/
def runCommon (c : Checks) (body : State → State) (s : State) : Host.Outcome State Fault Refusal :=
  match commonCheck c s with
  | some st => .next (respond st 0 0 [] s)
  | none => .next (body s)

/-- A command of R151 step 3 (INIT, REG_WRITE): refused only while faulted. -/
def runEarly (body : State → State) (s : State) : Host.Outcome State Fault Refusal :=
  if s.faulted then .next (respond .faulted 0 0 [] s) else .next (body s)

end Sys2Proof.Machine
end

