-- ==== Sys2Proof/Machine/Operands.lean ====
section
/-! DEFINITION. Operand forms: distances and their ranges (20_memory.md R47), the byte and segment reads they
address, the common-length functions (40_dictionary.md R83), and register numbers (10_state.md R17). -/

namespace Sys2Proof.Machine

/-! ## Distances -/

/-- A distance within the history window, [1, dictLen] (20_memory.md R47). -/
def distInWindow (s : State) (d : Int) : Bool := 1 ≤ d && d ≤ (dictLen s : Int)

/-- A distance SEGMENT accepts, [-B, dictLen] (20_memory.md R47). -/
def distInData (s : State) (d : Int) : Bool := -(s.B : Int) ≤ d && d ≤ (dictLen s : Int)

/-- The stream position H - d of a distance (20_memory.md R47). -/
def distPos (s : State) (d : Int) : Nat := ((s.H : Int) - d).toNat

/-- ByteAt(d): the history byte at a distance, or the sentinel 0 (40_dictionary.md R80). -/
def byteAtDist (s : State) (d : Int) : Byte := if distInWindow s d then ringAt s (distPos s d) else 0

/-- How many bytes a segment of `n` bytes at distance `d` has: clipped to the written data (40_dictionary.md R81). -/
def segmentCount (s : State) (d : Int) (n : Nat) : Nat := min n (d + (s.B : Int)).toNat

/-! ## The common-length functions (40_dictionary.md R83) -/

/-- The number of leading places in which two byte lists agree. -/
def prefixLen : List Byte → List Byte → Nat
  | [], _ => 0
  | _, [] => 0
  | a :: as, b :: bs => if a = b then prefixLen as bs + 1 else 0

/-- MatchLenAt(d, needle): how far the needle agrees with the written data from distance `d` on. Only as many
bytes as the needle has are looked at (R83). -/
def matchLenAt (s : State) (d : Int) (needle : List Byte) : Nat :=
  prefixLen needle (ringSeg s (distPos s d) (segmentCount s d needle.length))

/-! ## Registers (10_state.md R17) -/

/-- A byte as a register value or an item. -/
def byteWord (b : Byte) : Word64 := b.setWidth 64

/-- The ID register (10_state.md R20). -/
def idWord : Word64 := 0x000000014C5A4D41#64

/-- The registers 0x10 to 0x24, by number (10_state.md R17); 0 elsewhere. -/
def stateRegister (s : State) (r : Nat) : Word64 :=
  match r with
  | 0x10 => idWord
  | 0x11 => statusWord s
  | 0x12 => BitVec.ofNat 64 s.H
  | 0x13 => BitVec.ofNat 64 s.B
  | 0x14 => if s.initDone then BitVec.ofNat 64 (dictLen s) else 0
  | 0x15 => if s.initDone then BitVec.ofNat 64 (available s) else 0
  | 0x16 => BitVec.ofNat 64 s.ahead
  | 0x17 => BitVec.ofNat 64 s.pend
  | 0x18 => s.lzState.setWidth 64
  | 0x19 => s.rep.r0.setWidth 64
  | 0x1A => s.rep.r1.setWidth 64
  | 0x1B => s.rep.r2.setWidth 64
  | 0x1C => s.rep.r3.setWidth 64
  | 0x1D => s.coder.rcLow
  | 0x1E => s.coder.rcRange.setWidth 64
  | 0x1F => s.coder.rcCache.setWidth 64
  | 0x20 => BitVec.ofNat 64 s.coder.rcCacheSize
  | 0x21 => BitVec.ofNat 64 s.coder.sinkRem
  | 0x22 => BitVec.ofNat 64 s.coder.outCount
  | 0x23 => BitVec.ofInt 64 s.idxBase
  | 0x24 => BitVec.ofInt 64 (headroom s.coder)
  | _ => 0

/-- REG[r] for an assigned register number (45_control.md R141). -/
def regValue (s : State) (r : Byte) : Word64 :=
  if r.toNat ≤ 0x0B then s.cfgPending.get r.toNat
  else if r.toNat < 0x30 then stateRegister s r.toNat
  else s.cfg.get (r.toNat - 0x30)

/-- The assigned register numbers, in order (10_state.md R17). -/
def registerNumbers : List Byte := ((List.range 256).map (BitVec.ofNat 8)).filter regAssigned

/-- The register readout of a run's observation (70_reset_and_hazards.md R171). -/
def registerReadout (s : State) : List (Byte × Word64) := registerNumbers.map (fun r => (r, regValue s r))

end Sys2Proof.Machine
end

