-- ==== Sys2Proof/Machine/RangeCoder.lean ====
section
/-! DEFINITION. The probability cells (10_state.md R31) and the range encoder (43_range_coder.md R112 to R121):
values are computed exactly on numbers and narrowed to their registers at the end. -/

namespace Sys2Proof.Machine

/-! ## The probability bank's cells -/

/-- The two length coders of one layout (44_lzma_model.md R129). -/
inductive LenCoder where
  | len
  | repLen
  deriving DecidableEq, Repr

/-- A cell of the probability bank (10_state.md R31). -/
inductive ProbCell where
  | isMatch (st ps : Nat)
  | isRep (st : Nat)
  | isRepG0 (st : Nat)
  | isRepG1 (st : Nat)
  | isRepG2 (st : Nat)
  | isRep0Long (st ps : Nat)
  | lit (litState i : Nat)
  | choice (c : LenCoder)
  | choice2 (c : LenCoder)
  | low (c : LenCoder) (ps i : Nat)
  | mid (c : LenCoder) (ps i : Nat)
  | high (c : LenCoder) (i : Nat)
  | posSlot (lenState i : Nat)
  | posSpec (slot i : Nat)
  | align (i : Nat)
  deriving DecidableEq, Repr

/-- Where a length coder's cells begin in the bank. -/
def LenCoder.base : LenCoder → Nat
  | .len => 432
  | .repLen => 946

/-- A cell's address in the bank. The bank's layout is the model's own; only that cells do not share an address
matters (10_state.md R31, log 4). -/
def ProbCell.addr : ProbCell → Nat
  | .isMatch st ps => st * 16 + ps
  | .isRep st => 192 + st
  | .isRepG0 st => 204 + st
  | .isRepG1 st => 216 + st
  | .isRepG2 st => 228 + st
  | .isRep0Long st ps => 240 + (st * 16 + ps)
  | .choice c => c.base
  | .choice2 c => c.base + 1
  | .low c ps i => c.base + 2 + (ps * 8 + i)
  | .mid c ps i => c.base + 130 + (ps * 8 + i)
  | .high c i => c.base + 258 + i
  | .posSlot ls i => 1460 + (ls * 64 + i)
  | .posSpec slot i => 1716 + ((slot - 4) * 32 + i)
  | .align i => 2036 + i
  | .lit ls i => 2052 + (ls * 768 + i)

/-- A cell within its array's shape, for a bank with `lits` literal sub-coders (10_state.md R31). -/
def ProbCell.inShape (lits : Nat) : ProbCell → Bool
  | .isMatch st ps => decide (st < 12) && decide (ps < 16)
  | .isRep st => st < 12
  | .isRepG0 st => st < 12
  | .isRepG1 st => st < 12
  | .isRepG2 st => st < 12
  | .isRep0Long st ps => decide (st < 12) && decide (ps < 16)
  | .lit ls i => decide (ls < lits) && decide (i < 768)
  | .choice _ => true
  | .choice2 _ => true
  | .low _ ps i => decide (ps < 16) && decide (i < 8)
  | .mid _ ps i => decide (ps < 16) && decide (i < 8)
  | .high _ i => i < 256
  | .posSlot ls i => decide (ls < 4) && decide (i < 64)
  | .posSpec slot i => decide (4 ≤ slot) && decide (slot < 14) && decide (i < 2 ^ (slot / 2 - 1))
  | .align i => i < 16

/-! ## The coder -/

/-- RcInit (R112): the range encoder at its initial values; the bank and the sink stay. -/
def rcInit (c : Coder) : Coder :=
  { c with rcLow := 0, rcRange := 0xFFFFFFFF#32, rcCache := 0, rcCacheSize := 1, rcFresh := true }

/-- The bytes a settling ShiftLow emits: the held-back byte and the pending 0xFF bytes, each with the carry (R115). -/
def settledBytes (c : Coder) : List Byte :=
  BitVec.ofNat 8 (c.rcCache.toNat + c.rcLow.toNat / 4294967296)
    :: List.replicate (c.rcCacheSize - 1) (BitVec.ofNat 8 (255 + c.rcLow.toNat / 4294967296))

/-- The top byte of `low` can no longer be changed by a carry (R115). -/
def topSettled (c : Coder) : Bool := c.rcLow.toNat < 0xFF000000 || 4294967296 ≤ c.rcLow.toNat

/-- The shifted `low` of R115: its low 24 bits, moved up a byte. -/
def lowShifted (low : Word64) : Word64 := BitVec.ofNat 64 (low.toNat % 16777216 * 256)

/-- ShiftLow (R115): emits what is settled, or holds back one byte more. -/
def shiftLow (c : Coder) : Coder :=
  if topSettled c then
    { emitAll (settledBytes c) c with
      rcCache := BitVec.ofNat 8 (c.rcLow.toNat / 16777216)
      rcCacheSize := 1
      rcLow := lowShifted c.rcLow }
  else
    { c with rcCacheSize := c.rcCacheSize + 1, rcLow := lowShifted c.rcLow }

/-- `rcRange << 8`, truncated to 32 bits (R116). -/
def rangeShifted (r : Word32) : Word32 := BitVec.ofNat 32 (r.toNat * 256)

/-- Normalize (R116), for at most `fuel` turns of its loop: three are enough from any range but 0 (log 9). -/
def normalize : Nat → Coder → Coder
  | 0, c => c
  | fuel + 1, c =>
    if c.rcRange.toNat < Config.top then
      normalize fuel (shiftLow { c with rcRange := rangeShifted c.rcRange })
    else c

/-- The bound of R113: `(rcRange >> 11) * P`. -/
def probBound (c : Coder) (p : Prob) : Nat := c.rcRange.toNat / 2048 * p.toNat

/-- The adaptive move of a probability (R113). -/
def probMove (p : Prob) (b : Bool) : Prob :=
  if b then BitVec.ofNat 11 (p.toNat - p.toNat / 32)
  else BitVec.ofNat 11 (p.toNat + (2048 - p.toNat) / 32)

/-- The interval step of R113, before normalisation. -/
def narrow (bound : Nat) (b : Bool) (c : Coder) : Coder :=
  if b then
    { c with
      rcLow := BitVec.ofNat 64 (c.rcLow.toNat + bound)
      rcRange := BitVec.ofNat 32 (c.rcRange.toNat - bound) }
  else { c with rcRange := BitVec.ofNat 32 bound }

/-- EncBit(P, b) with the cell at bank address `a` (R113). -/
def encBit (a : Nat) (b : Bool) (c : Coder) : Coder :=
  normalize 4
    { narrow (probBound c (c.probs.read a)) b c with
      rcFresh := false
      probs := c.probs.write a (probMove (c.probs.read a) b) }

/-- One turn of EncDirect (R114): one bit at probability one half. -/
def encDirectBit (b : Bool) (c : Coder) : Coder :=
  normalize 4
    { c with
      rcFresh := false
      rcRange := BitVec.ofNat 32 (c.rcRange.toNat / 2)
      rcLow := if b then BitVec.ofNat 64 (c.rcLow.toNat + c.rcRange.toNat / 2) else c.rcLow }

/-- RcFlush (R117): five ShiftLows, then RcInit. -/
def rcFlushBody (c : Coder) : Coder :=
  rcInit (shiftLow (shiftLow (shiftLow (shiftLow (shiftLow c)))))

/-- What ending the stream costs the sink (R119). -/
def flushCost (c : Coder) : Nat := c.rcCacheSize + 4

/-! ## Decisions -/

/-- One coded decision: an adaptive one with its cell (R113), or a direct bit (R114). -/
inductive Decision where
  | adaptive (cell : ProbCell) (bit : Bool)
  | direct (bit : Bool)
  deriving DecidableEq, Repr

/-- The bit a decision codes. -/
def Decision.bit : Decision → Bool
  | .adaptive _ b => b
  | .direct b => b

/-- Codes one decision. -/
def codeOne (c : Coder) : Decision → Coder
  | .adaptive cell b => encBit cell.addr b c
  | .direct b => encDirectBit b c

/-- Codes decisions in order. -/
def codeAll : List Decision → Coder → Coder
  | [], c => c
  | d :: ds, c => codeAll ds (codeOne c d)

/-- A tree walk from node `m`: each bit is coded in the current node's cell (R120, R121). -/
def treeDecisions (cell : Nat → ProbCell) (m : Nat) : List Bool → List Decision
  | [] => []
  | b :: bs => .adaptive (cell m) b :: treeDecisions cell (2 * m + b.toNat) bs

/-- EncTree(A, n, v) (R120). -/
def treeMsb (cell : Nat → ProbCell) (n v : Nat) : List Decision := treeDecisions cell 1 (bitsMsb v n)

/-- EncTreeRev(A, n, v) (R121). -/
def treeLsb (cell : Nat → ProbCell) (n v : Nat) : List Decision := treeDecisions cell 1 (bitsLsb v n)

/-- EncDirect(v, n) (R114). -/
def directMsb (n v : Nat) : List Decision := (bitsMsb v n).map Decision.direct

end Sys2Proof.Machine
end

