-- ==== Sys2Proof/Machine/LzmaModel.lean ====
section
/-! DEFINITION. The LZMA context model (44_lzma_model.md R126 to R136): contexts, the literal, length and distance
coders as lists of decisions, the repeat cache, and the coding of one packet. -/

namespace Sys2Proof.Machine

/-! ## Contexts (R126, R127) -/

/-- What an operation's coding reads before its first decision (R126). -/
structure Context where
  /-- lzState -/
  st : Nat
  /-- posState -/
  ps : Nat
  /-- litState (R127) -/
  litState : Nat
  /-- matchByte, in matched mode (lzState at least 7) -/
  matchByte : Option Byte
  deriving DecidableEq, Repr

/-- litState (R127): position bits above literal-context bits. -/
def litStateOf (s : State) : Nat :=
  s.H % 2 ^ s.cfg.lp.toNat * 2 ^ s.cfg.lc.toNat
    + (byteAtDist s 1).toNat / 2 ^ (8 - s.cfg.lc.toNat)

/-- The contexts at the head (R126). -/
def contextOf (s : State) : Context where
  st := s.lzState.toNat
  ps := s.H % 2 ^ s.cfg.pb.toNat
  litState := litStateOf s
  matchByte := if 7 ≤ s.lzState.toNat then some (byteAtDist s ((s.rep.r0.toNat : Int) + 1)) else none

/-! ## Coders (R128 to R131) -/

/-- Plain mode of R128, from the partial symbol `sym` on. -/
def litPlain (ls : Nat) (sym : Nat) (bits : List Bool) : List Decision := treeDecisions (ProbCell.lit ls) sym bits

/-- Matched mode of R128: the match byte's bit picks the cell, until the first mismatch. -/
def litMatched (ls : Nat) : Nat → List Bool → List Bool → List Decision
  | sym, mb :: mbs, b :: bs =>
    .adaptive (.lit ls (0x100 + mb.toNat * 0x100 + sym)) b ::
      (if mb = b then litMatched ls (2 * sym + b.toNat) mbs bs else litPlain ls (2 * sym + b.toNat) bs)
  | sym, [], bs => litPlain ls sym bs
  | _, _ :: _, [] => []

/-- EncLiteral(x) (R128). -/
def literalDecisions (k : Context) (x : Byte) : List Decision :=
  match k.matchByte with
  | none => litPlain k.litState 1 (bitsMsb x.toNat 8)
  | some mb => litMatched k.litState 1 (bitsMsb mb.toNat 8) (bitsMsb x.toNat 8)

/-- EncLen(C, len, ps) (R129). -/
def lenDecisions (c : LenCoder) (len ps : Nat) : List Decision :=
  if len - 2 < 8 then
    .adaptive (.choice c) false :: treeMsb (ProbCell.low c ps) 3 (len - 2)
  else if len - 2 < 16 then
    .adaptive (.choice c) true :: .adaptive (.choice2 c) false :: treeMsb (ProbCell.mid c ps) 3 (len - 2 - 8)
  else
    .adaptive (.choice c) true :: .adaptive (.choice2 c) true :: treeMsb (ProbCell.high c) 8 (len - 2 - 16)

/-- The part of EncDist after the slot (R131). -/
def distTailDecisions (d0 slot : Nat) : List Decision :=
  if slot < 4 then []
  else if slot < 14 then treeLsb (ProbCell.posSpec slot) (slotFooterBits slot) (d0 - slotBase slot)
  else directMsb (slotFooterBits slot - 4) ((d0 - slotBase slot) / 16)
    ++ treeLsb ProbCell.align 4 ((d0 - slotBase slot) % 16)

/-- EncDist(d0, len) (R131). -/
def distDecisions (d0 len : Nat) : List Decision :=
  treeMsb (ProbCell.posSlot (min (len - 2) 3)) 6 (distSlot d0) ++ distTailDecisions d0 (distSlot d0)

/-! ## Packets (30_encoding.md R75, R133) -/

/-- The leading decisions of a packet, with their cells (30_encoding.md R75). -/
def headDecisions (k : Context) : Packet → List Decision
  | .lit _ => [.adaptive (.isMatch k.st k.ps) false]
  | .simpleMatch _ _ => [.adaptive (.isMatch k.st k.ps) true, .adaptive (.isRep k.st) false]
  | .shortRep =>
    [.adaptive (.isMatch k.st k.ps) true, .adaptive (.isRep k.st) true, .adaptive (.isRepG0 k.st) false,
      .adaptive (.isRep0Long k.st k.ps) false]
  | .longRep 0 _ =>
    [.adaptive (.isMatch k.st k.ps) true, .adaptive (.isRep k.st) true, .adaptive (.isRepG0 k.st) false,
      .adaptive (.isRep0Long k.st k.ps) true]
  | .longRep 1 _ =>
    [.adaptive (.isMatch k.st k.ps) true, .adaptive (.isRep k.st) true, .adaptive (.isRepG0 k.st) true,
      .adaptive (.isRepG1 k.st) false]
  | .longRep 2 _ =>
    [.adaptive (.isMatch k.st k.ps) true, .adaptive (.isRep k.st) true, .adaptive (.isRepG0 k.st) true,
      .adaptive (.isRepG1 k.st) true, .adaptive (.isRepG2 k.st) false]
  | .longRep 3 _ =>
    [.adaptive (.isMatch k.st k.ps) true, .adaptive (.isRep k.st) true, .adaptive (.isRepG0 k.st) true,
      .adaptive (.isRepG1 k.st) true, .adaptive (.isRepG2 k.st) true]
  | .eos => [.adaptive (.isMatch k.st k.ps) true, .adaptive (.isRep k.st) false]

/-- The decisions of a packet after its leading ones. -/
def tailDecisions (k : Context) : Packet → List Decision
  | .lit x => literalDecisions k x
  | .simpleMatch d0 len => lenDecisions .len len k.ps ++ distDecisions d0.toNat len
  | .shortRep => []
  | .longRep _ len => lenDecisions .repLen len k.ps
  | .eos => lenDecisions .len 2 k.ps ++ distDecisions Config.eosDistance.toNat 2

/-- All decisions of a packet, in coding order. -/
def packetDecisions (k : Context) (p : Packet) : List Decision := headDecisions k p ++ tailDecisions k p

/-- rep[g] (10_state.md R30). -/
def Reps.get (r : Reps) (g : Fin 4) : Word32 :=
  match g with
  | 0 => r.r0
  | 1 => r.r1
  | 2 => r.r2
  | 3 => r.r3

/-- RepPush(d0) (R136). -/
def repPush (d0 : Word32) (r : Reps) : Reps := ⟨d0, r.r0, r.r1, r.r2⟩

/-- RepPromote(g) (R136). -/
def repPromote (g : Fin 4) (r : Reps) : Reps :=
  match g with
  | 0 => r
  | 1 => ⟨r.r1, r.r0, r.r2, r.r3⟩
  | 2 => ⟨r.r2, r.r0, r.r1, r.r3⟩
  | 3 => ⟨r.r3, r.r0, r.r1, r.r2⟩

/-- The repeat cache after a packet (R136). -/
def repAfter (p : Packet) (r : Reps) : Reps :=
  match p with
  | .lit _ => r
  | .simpleMatch d0 _ => repPush d0 r
  | .shortRep => r
  | .longRep g _ => repPromote g r
  | .eos => repPush Config.eosDistance r

/-- Coding one packet at the head (R133): its decisions in the contexts of the state before it, then lzState and
the repeat cache. -/
def codePacket (p : Packet) (s : State) : State :=
  { s with
    coder := codeAll (packetDecisions (contextOf s) p) s.coder
    lzState := BitVec.ofNat 8 (lzAfter p s.lzState.toNat)
    rep := repAfter p s.rep }

/-- The least g with rep[g] = d0, if any (R133). -/
def repIndex (r : Reps) (d0 : Word32) : Option (Fin 4) :=
  if r.r0 = d0 then some 0
  else if r.r1 = d0 then some 1
  else if r.r2 = d0 then some 2
  else if r.r3 = d0 then some 3
  else none

/-- The packet EncodeMatch(d0, len, allowRep = true) codes (R133). -/
def matchPacketFor (r : Reps) (d0 : Word32) (len : Nat) : Packet :=
  match repIndex r d0 with
  | none => .simpleMatch d0 len
  | some 0 => if len = 1 then .shortRep else .longRep 0 len
  | some g => .longRep g len

end Sys2Proof.Machine
end

