-- ==== Sys2Proof/Machine/HashIndex.lean ====
section
/-! DEFINITION. Fingerprints and the abstract hash index (41_hash_index.md R87 to R97), with the HASH command (R89).
The hash table is an argument `T` (00_scope.md R9); the meanings give `Config.hashTable`. -/

namespace Sys2Proof.Machine

/-- A hash table: one 32-bit word per byte value (00_scope.md R9). -/
abbrev HashTable := Byte → Word32

/-! ## Fingerprints (R87) -/

/-- `rotl32` (00_scope.md R11). -/
def rotl32 (v : Word32) (r : Nat) : Word32 := v.rotateLeft r

/-- F_k(w) for the word `w` of k bytes (R87): byte i is rotated by k - 1 - i, the number of bytes after it. -/
def fingerprint (T : HashTable) : List Byte → Word32
  | [] => 0
  | b :: bs => rotl32 (T b) bs.length ^^^ fingerprint T bs

/-- The rolling update of R88, for a window of `k` bytes that loses `out` and gains `inn`. -/
def rollFingerprint (T : HashTable) (k : Nat) (f : Word32) (out inn : Byte) : Word32 :=
  rotl32 f 1 ^^^ rotl32 (T out) k ^^^ T inn

/-- The fingerprints of every window of `k` bytes, in window order (R89); none for a string shorter than `k`. -/
def windowPrints (T : HashTable) (k : Nat) : List Byte → List Word32
  | [] => []
  | b :: bs => if k ≤ bs.length + 1 then fingerprint T ((b :: bs).take k) :: windowPrints T k bs else []

/-- HASH's own rule (R89). -/
def hashBody (T : HashTable) (k : Byte) (payload : List Byte) (s : State) : State :=
  if k.toNat = 2 ∨ k.toNat = 3 ∨ k.toNat = 4 then
    respond .ok (windowPrints T k.toNat payload).length 0
      ((windowPrints T k.toNat payload).map (fun f => f.setWidth 64)) s
  else raiseFatal .range 0x20 s

/-! ## The index (R90 to R92) -/

/-- Key_k(p) (R87), for a position whose word is written. -/
def keyAt (T : HashTable) (s : State) (k p : Nat) : Nat := (fingerprint T (ringSeg s p k)).toNat

/-- SINGLE_k (R90); empty for any other word length. -/
def Index.single (ix : Index) (k : Nat) : List (Nat × Nat) :=
  if k = 2 then ix.single2 else if k = 3 then ix.single3 else []

/-- SINGLE_k[key] <- p (R91). -/
def Index.setSingle (ix : Index) (k key p : Nat) : Index :=
  if k = 2 then { ix with single2 := sparseSet ix.single2 key p }
  else if k = 3 then { ix with single3 := sparseSet ix.single3 key p }
  else ix

/-- CHAIN[key] (R90): the positions inserted under a key, most recent first. -/
def Index.chainAt (ix : Index) (key : Nat) : List Nat := (sparseGet ix.chain key).getD []

/-- CHAIN[key] <- p :: CHAIN[key] (R91). -/
def Index.pushChain (ix : Index) (key p : Nat) : Index :=
  { ix with chain := sparseSet ix.chain key (p :: ix.chainAt key) }

/-- The part of Insert(p) for one word length `k` (R91): skipped when the word is not fully written. -/
def insertWord (T : HashTable) (s : State) (p : Nat) (ix : Index) (k : Nat) : Index :=
  if p + k ≤ s.H + s.B then
    if k < s.cfg.wordLen.toNat then ix.setSingle k (keyAt T s k p) p
    else ix.pushChain (keyAt T s k p) p
  else ix

/-- The word lengths 2 to N of the session (R91). -/
def wordLengths (s : State) : List Nat := (List.range (s.cfg.wordLen.toNat - 1)).map (· + 2)

/-- RebaseIfNeeded(p) (R97), on the abstract index: IDX_BASE alone moves (R94, R98). -/
def rebased (s : State) (p : Nat) : Int :=
  if (p : Int) - s.idxBase > 4294967295 then (s.H : Int) - (dictLen s : Int) - 1 else s.idxBase

/-- Insert(p) (R91). -/
def insertPos (T : HashTable) (p : Nat) (s : State) : State :=
  { s with
    idxBase := rebased s p
    index := (wordLengths s).foldl (insertWord T s p) s.index }

/-- A live position: its distance lies in [1, dictLen] (R92). -/
def live (s : State) (p : Nat) : Bool := decide (s.H - dictLen s ≤ p) && decide (p < s.H)

/-- LookupSingle_k(key) (R92). -/
def lookupSingle (s : State) (k key : Nat) : Option Nat := (sparseGet (s.index.single k) key).filter (live s)

/-- GetChain(key) (R92): the first DEPTH live positions. -/
def getChain (s : State) (key : Nat) : List Nat :=
  ((s.index.chainAt key).filter (live s)).take s.cfg.depth.toNat

/-! ## The stored form of the index (R95, R96, R99, R100) -/

/-- The stored 32-bit offset of a position (R95). -/
def storedOffset (s : State) (q : Nat) : Int := (q : Int) - s.idxBase

/-- The chain node of a position: one per ring cell, 0 being null (R99). -/
def arenaNode (s : State) (q : Nat) : Nat := q % ringLen s + 1

/-- The buckets of a table that `n` insertions of new entries have filled, from `floor` buckets on (R100): they double
when an insertion would leave more entries than 0.75 times their number. `floor` is HT_FLOOR (00_scope.md R9). -/
def bucketsFor (floor : Nat) : Nat → Nat
  | 0 => floor
  | n + 1 =>
    if 3 * bucketsFor floor n < 4 * (n + 1) then 2 * bucketsFor floor n else bucketsFor floor n

/-- The entries of the table of word length `k` (R90): a single-entry table's, or the chain-head table's. -/
def tableEntries (s : State) (k : Nat) : Nat :=
  if k < s.cfg.wordLen.toNat then (s.index.single k).length else s.index.chain.length

/-- The buckets of the table of word length `k`, for a device whose floor size is `floor` (R100); no command reads
them. A resize that drops dead entries, which R100 allows, is not taken (log 11). -/
def tableBuckets (floor : Nat) (s : State) (k : Nat) : Nat := bucketsFor floor (tableEntries s k)

/-- The buckets of the device's own table of word length `k` (R100). -/
def indexBuckets (s : State) (k : Nat) : Nat := tableBuckets Config.htFloor s k

/-! ## The meaning -/

/-- HASH (R89). -/
def execHash (k : Byte) (payload : List Byte) (s : State) : Host.Outcome State Fault Refusal :=
  runCommon ⟨false, false, false⟩ (hashBody Config.hashTable k payload) s

end Sys2Proof.Machine
end

