-- ==== Sys2Proof/Machine/MatchFinder.lean ====
section
/-! DEFINITION. The match finder's commands, FIND and SKIP (42_match_finder.md R103 to R109). -/

namespace Sys2Proof.Machine

/-- The needle (R103): the look-ahead, capped at MAX_MATCH_LEN. -/
def needle (s : State) : List Byte := ringSeg s s.H (min s.B Config.maxMatchLen)

/-- A search so far (R104): the candidates kept, in order, as (distance, length), and the best length. -/
structure Search where
  res  : List (Nat × Nat)
  best : Nat
  deriving DecidableEq, Repr

/-- The search at its start (R104). -/
def Search.start : Search := ⟨[], 1⟩

/-- done() (R104). -/
def Search.done (s : State) (r : Search) : Bool :=
  decide (s.cfg.niceLen.toNat ≤ r.best) || decide ((needle s).length ≤ r.best)

/-- Consider(d) (R105). -/
def consider (s : State) (r : Search) (d : Nat) : Search :=
  if r.best < matchLenAt s d (needle s) then
    ⟨r.res ++ [(d, matchLenAt s d (needle s))], matchLenAt s d (needle s)⟩
  else r

/-- The candidate that SINGLE_k gives for the needle, as a distance (R104). -/
def singleCandidate (T : HashTable) (s : State) (k : Nat) : Option Nat :=
  if k ≤ (needle s).length then
    (lookupSingle s k (fingerprint T ((needle s).take k)).toNat).map (fun q => s.H - q)
  else none

/-- The single-entry tables, shortest word first (R104). -/
def searchSingles (T : HashTable) (s : State) : List Nat → Search → Search
  | [], r => r
  | k :: ks, r =>
    if r.done s then r
    else
      match singleCandidate T s k with
      | none => searchSingles T s ks r
      | some d => searchSingles T s ks (consider s r d)

/-- A walk along chain positions, most recent first (R104). -/
def searchChain (s : State) : List Nat → Search → Search
  | [], r => r
  | q :: qs, r => if r.done s then r else searchChain s qs (consider s r (s.H - q))

/-- The word lengths of the single-entry tables, 2 to N - 1 (R104). -/
def singleLengths (s : State) : List Nat := (List.range (s.cfg.wordLen.toNat - 2)).map (· + 2)

/-- The chain's positions for the needle, none when the needle is shorter than N (R104). -/
def chainCandidates (T : HashTable) (s : State) : List Nat :=
  if s.cfg.wordLen.toNat ≤ (needle s).length then
    getChain s (fingerprint T ((needle s).take s.cfg.wordLen.toNat)).toNat
  else []

/-- The whole search of FIND (R104). -/
def search (T : HashTable) (s : State) : Search :=
  searchChain s (chainCandidates T s) (searchSingles T s (singleLengths s) Search.start)

/-- FIND's list, (distance, length) (R104). -/
def findList (T : HashTable) (s : State) : List (Nat × Nat) := (search T s).res

/-- The last step of FIND: the head is indexed once (R104). -/
def indexHead (T : HashTable) (s : State) : State :=
  if s.ahead = 0 ∧ 0 < s.B then { insertPos T s.H s with ahead := 1 } else s

/-- A FIND item, `(len << 32) | dist` (30_encoding.md R73). -/
def findItem (m : Nat × Nat) : Word64 := BitVec.ofNat 64 (m.2 * 4294967296 + m.1)

/-- FIND's own rule (R104). -/
def findBody (T : HashTable) (s : State) : State :=
  respond .ok (findList T s).length 0 ((findList T s).map findItem) (indexHead T s)

/-- Insert for `n` consecutive positions from `p` on (R108), with H and B as they stand. -/
def insertRange (T : HashTable) (p : Nat) : Nat → State → State
  | 0, s => s
  | n + 1, s => insertRange T (p + 1) n (insertPos T p s)

/-- SkipBody(n) (R108): indexes the positions not yet indexed, then advances. -/
def skipBody (T : HashTable) (n : Nat) (s : State) : State :=
  advance (min n s.B) (insertRange T (s.H + s.ahead) (min n s.B - s.ahead) s)

/-! ## The meanings -/

/-- FIND (R104). -/
def execFind (s : State) : Host.Outcome State Fault Refusal :=
  runCommon ⟨false, false, false⟩ (findBody Config.hashTable) s

/-- SKIP (R108). -/
def execSkip (n : Word32) (s : State) : Host.Outcome State Fault Refusal :=
  runCommon ⟨false, false, false⟩
    (fun s => respond .ok (min n.toNat s.B) 0 [] (skipBody Config.hashTable n.toNat s)) s

end Sys2Proof.Machine
end

