-- ==== Sys2Proof/Machine/Dictionary.lean ====
section
/-! DEFINITION. The dictionary's commands (40_dictionary.md R79 to R86). -/

namespace Sys2Proof.Machine

/-- WRITE's own rule (R79): the bytes that fit are appended. -/
def writeBody (payload : List Byte) (s : State) : State :=
  respond (if min payload.length (available s) < payload.length then .noSpace else .ok)
    (min payload.length (available s)) 0 []
    { s with
      ring := ringWriteAll (ringLen s) s.ring (s.H + s.B) (payload.take (min payload.length (available s)))
      B := s.B + min payload.length (available s) }

/-- BYTEAT's own rule (R80). -/
def byteAtBody (d : Word64) (s : State) : State := respond .ok 0 (byteWord (byteAtDist s d.toInt)) [] s

/-- SEGMENT's own rule (R81). -/
def segmentBody (d : Word64) (n : Word32) (s : State) : State :=
  if distInData s d.toInt then
    respond .ok (segmentCount s d.toInt n.toNat) 0
      ((ringSeg s (distPos s d.toInt) (segmentCount s d.toInt n.toNat)).map byteWord) s
  else raiseFatal .range 0x12 s

/-- MATCHLEN's own rule (R82). -/
def matchLenBody (d : Word64) (needle : List Byte) (s : State) : State :=
  if distInWindow s d.toInt then respond .ok 0 (BitVec.ofNat 64 (matchLenAt s d.toInt needle)) [] s
  else raiseFatal .range 0x13 s

/-- DISCARD's own rule (R85). -/
def discardBody (n : Word32) (s : State) : State :=
  respond .ok (min n.toNat s.B) 0 [] (advance (min n.toNat s.B) s)

/-- The bytes COPYN copies, oldest first (R86). -/
def copyBytes (s : State) (n : Nat) : List Byte := ringSeg s (s.H - min n (dictLen s)) (min n (dictLen s))

/-- COPYN's own rule (R86). -/
def copyNBody (n : Word32) (s : State) : State :=
  if s.coder.sinkRem < min n.toNat (dictLen s) then respond .limit 0 0 [] s
  else
    respond (if min n.toNat (dictLen s) < n.toNat then .noSpace else .ok) (min n.toNat (dictLen s)) 0 []
      { s with coder := emitAll (copyBytes s n.toNat) s.coder }

/-! ## The meanings -/

/-- WRITE (R79). -/
def execWrite (payload : List Byte) (s : State) : Host.Outcome State Fault Refusal :=
  runCommon ⟨false, false, false⟩ (writeBody payload) s

/-- BYTEAT (R80). -/
def execByteAt (d : Word64) (s : State) : Host.Outcome State Fault Refusal :=
  runCommon ⟨false, false, false⟩ (byteAtBody d) s

/-- SEGMENT (R81). -/
def execSegment (d : Word64) (n : Word32) (s : State) : Host.Outcome State Fault Refusal :=
  runCommon ⟨false, false, false⟩ (segmentBody d n) s

/-- MATCHLEN (R82). -/
def execMatchLen (d : Word64) (needle : List Byte) (s : State) : Host.Outcome State Fault Refusal :=
  runCommon ⟨false, false, false⟩ (matchLenBody d needle) s

/-- DISCARD (R85). -/
def execDiscard (n : Word32) (s : State) : Host.Outcome State Fault Refusal :=
  runCommon ⟨false, false, false⟩ (discardBody n) s

/-- COPYN (R86): refused while the sink is broken, and while a stream is open. -/
def execCopyN (n : Word32) (s : State) : Host.Outcome State Fault Refusal :=
  runCommon ⟨true, false, true⟩ (copyNBody n) s

end Sys2Proof.Machine
end

