-- ==== Sys2Proof/Machine/Stream.lean ====
section
/-! DEFINITION. The stream commands, RC_FLUSH and SINK_OPEN (43_range_coder.md R122, R123). -/

namespace Sys2Proof.Machine

/-- RC_FLUSH's own rule (R122). -/
def rcFlushRule (s : State) : State :=
  if s.coder.sinkRem < flushCost s.coder then respond .limit 0 0 [] s
  else respond .ok (flushCost s.coder) 0 [] { s with coder := rcFlushBody s.coder }

/-- A fresh sink of `limit` bytes and a fresh range encoder; the bank stays (R123). -/
def openSink (limit : Nat) (c : Coder) : Coder :=
  { rcInit c with sinkRem := limit, outCount := 0, sinkBroken := false, sinks := [] :: c.sinks }

/-- SINK_OPEN's own rule (R123). -/
def sinkOpenBody (limit : Word64) (s : State) : State :=
  if limit.toInt < 0 then raiseFatal .range 0x04 s
  else respond .ok 0 0 [] { s with coder := openSink limit.toNat s.coder }

/-! ## The meanings -/

/-- RC_FLUSH (R122): refused while the sink is broken. -/
def execRcFlush (s : State) : Host.Outcome State Fault Refusal := runCommon ⟨true, false, false⟩ rcFlushRule s

/-- SINK_OPEN (R123). -/
def execSinkOpen (limit : Word64) (s : State) : Host.Outcome State Fault Refusal :=
  runCommon ⟨false, false, false⟩ (sinkOpenBody limit) s

end Sys2Proof.Machine
end

