-- ==== Sys2Proof/Machine/Encode.lean ====
section
/-! DEFINITION. The encode commands (44_lzma_model.md R132 to R138) and the packet rows (30_encoding.md R75, R133). -/

namespace Sys2Proof.Machine

/-! ## Checks -/

/-- What MarginCheck asks of HEADROOM (R138). -/
def marginNeed (c : Cfg) : Nat := c.opMargin.toNat + (if c.eos.toNat = 1 then c.eosMargin.toNat else 0)

/-- MarginCheck passes (R138). -/
def marginOk (s : State) : Bool := (marginNeed s.cfg : Int) ≤ headroom s.coder

/-- verify() (R132, R135): a match in the format's ranges, or a short rep. -/
def formatOk (r : Reps) (d : Int) (len : Nat) : Bool :=
  ((decide (1 ≤ d) && decide (d ≤ (Config.maxDistance : Int))) &&
      (decide (Config.minMatchLen ≤ len) && decide (len ≤ Config.maxMatchLen)))
    || (decide (len = 1) && decide (d - 1 = (r.r0.toNat : Int)))

/-- The bytes at distance `d` repeat for `len` bytes (R135). -/
def bytesRepeat (s : State) (d : Int) (len : Nat) : Bool := len ≤ matchLenAt s d (ringSeg s s.H len)

/-- ENC_MATCH's operand checks, in the order of R135. -/
def matchOk (s : State) (d : Int) (len : Nat) : Bool :=
  formatOk s.rep d len && decide (d ≤ (dictLen s : Int)) && decide (len ≤ s.B) && bytesRepeat s d len

/-- The 0-based distance of a match (R133). -/
def zeroBased (d : Int) : Word32 := BitVec.ofInt 32 (d - 1)

/-! ## Bodies -/

/-- EncLitBody: EncodeLiteral and its pend assignment (R133, R134). -/
def encLitCore (s : State) : State := { codePacket (.lit (lookAhead s 0)) s with pend := 1 }

/-- EncMatchBody(d, len): EncodeMatch and its pend assignment (R133, R135). -/
def encMatchCore (d : Int) (len : Nat) (s : State) : State :=
  { codePacket (matchPacketFor s.rep (zeroBased d) len) s with pend := len }

/-- OK, or SINK_OVERFLOW when the sink refused a byte (60_exceptions.md R157). -/
def sinkStatus (s : State) : Status := if s.coder.sinkBroken then .sinkOverflow else .ok

/-- The response of an encode command after its coding (R134, R135, R137). -/
def respondCoded (count : Nat) (s : State) : State := respond (sinkStatus s) count 0 [] s

/-- ENC_LIT's own rule (R134). -/
def encLitBody (s : State) : State :=
  if s.B < 1 then raiseFatal .range 0x30 s
  else if marginOk s then respondCoded 1 (encLitCore s)
  else respond .limit 0 0 [] s

/-- ENC_MATCH's own rule (R135). -/
def encMatchBody (d : Word64) (len : Word32) (s : State) : State :=
  if matchOk s d.toInt len.toNat then
    if marginOk s then respondCoded len.toNat (encMatchCore d.toInt len.toNat s) else respond .limit 0 0 [] s
  else raiseFatal .range 0x31 s

/-- The EOS margin alone passes (R137). -/
def eosMarginOk (s : State) : Bool := (s.cfg.eosMargin.toNat : Int) ≤ headroom s.coder

/-- ENC_EOS's own rule (R137). -/
def encEosBody (s : State) : State :=
  if eosMarginOk s then respondCoded 0 (codePacket .eos s) else respond .limit 0 0 [] s

/-! ## The meanings -/

/-- ENC_LIT (R134). -/
def execEncLit (s : State) : Host.Outcome State Fault Refusal := runCommon ⟨true, true, false⟩ encLitBody s

/-- ENC_MATCH (R135). -/
def execEncMatch (d : Word64) (len : Word32) (s : State) : Host.Outcome State Fault Refusal :=
  runCommon ⟨true, true, false⟩ (encMatchBody d len) s

/-- ENC_EOS (R137). -/
def execEncEos (s : State) : Host.Outcome State Fault Refusal := runCommon ⟨true, true, false⟩ encEosBody s

/-- PKT_LIT (30_encoding.md R75): codes a literal packet at the head. -/
def execPktLit (x : Byte) (s : State) : Host.Outcome State Fault Refusal := .next (codePacket (.lit x) s)

/-- PKT_MATCH (30_encoding.md R75): codes a simple match packet. -/
def execPktMatch (d0 : Word32) (len : Nat) (s : State) : Host.Outcome State Fault Refusal :=
  .next (codePacket (.simpleMatch d0 len) s)

/-- PKT_SHORTREP (30_encoding.md R75): codes a short rep packet. -/
def execPktShortRep (s : State) : Host.Outcome State Fault Refusal := .next (codePacket .shortRep s)

/-- PKT_LONGREP0 (30_encoding.md R75): codes a repeat of rep[0]. -/
def execPktLongRep0 (len : Nat) (s : State) : Host.Outcome State Fault Refusal :=
  .next (codePacket (.longRep 0 len) s)

/-- PKT_LONGREP1 (30_encoding.md R75): codes a repeat of rep[1] and promotes it. -/
def execPktLongRep1 (len : Nat) (s : State) : Host.Outcome State Fault Refusal :=
  .next (codePacket (.longRep 1 len) s)

/-- PKT_LONGREP2 (30_encoding.md R75): codes a repeat of rep[2] and promotes it. -/
def execPktLongRep2 (len : Nat) (s : State) : Host.Outcome State Fault Refusal :=
  .next (codePacket (.longRep 2 len) s)

/-- PKT_LONGREP3 (30_encoding.md R75): codes a repeat of rep[3] and promotes it. -/
def execPktLongRep3 (len : Nat) (s : State) : Host.Outcome State Fault Refusal :=
  .next (codePacket (.longRep 3 len) s)

/-- PKT_EOS (30_encoding.md R75, R137): codes the end-of-stream marker. -/
def execPktEos (s : State) : Host.Outcome State Fault Refusal := .next (codePacket .eos s)

end Sys2Proof.Machine
end

