-- ==== Sys2Proof/Machine/Policy.lean ====
section
/-! DEFINITION. POLICY, the operation-selection function of COMPRESS and CLOSE (45_control.md R143): an argument of the
loop (00_scope.md R9), for which the meanings give `Config.policy`. -/

namespace Sys2Proof.Machine

/-- A policy: from FIND's list alone, a match (distance, length), or none for the literal LA(0) (R143). It reads no other
state, so no result depends on what 10_state.md R15, R18 and R37 shut out (log 2). -/
abbrev Policy := List (Nat × Nat) → Option (Nat × Nat)

/-- POLICY_greedy (R143): the last, longest, item. -/
def greedy : Policy := fun res => res.getLast?

/-- The operation a policy chooses (R143): a literal, or a match that passes every check of 44_lzma_model.md R135.
What R143 puts outside the spec, any other answer, is replaced by the default's (log 2). -/
def chooseOp (P : Policy) (res : List (Nat × Nat)) (s : State) : Option (Nat × Nat) :=
  match P res with
  | none => none
  | some m => if matchOk s (m.1 : Int) m.2 then some m else greedy res

end Sys2Proof.Machine
end

