-- ==== Sys2Proof/Machine/Control.lean ====
section
/-! DEFINITION. The control commands (45_control.md R139 to R145): configuration, registers, the compress loop and
close. -/

namespace Sys2Proof.Machine

/-! ## Configuration and registers -/

/-- The coder of a new session (R140): every probability at its initial value, a fresh range encoder, no sink. -/
def sessionCoder (c : Coder) : Coder :=
  { rcInit c with probs := [], sinkRem := 0, outCount := 0, sinkBroken := false }

/-- INIT on a legal configuration (R140). -/
def startSession (s : State) : State :=
  { s with
    cfg := s.cfgPending
    ring := []
    H := 0
    B := 0
    ahead := 0
    pend := 0
    index := Index.empty
    idxBase := -1
    lzState := 0
    rep := Reps.zero
    coder := sessionCoder s.coder
    initDone := true }

/-- INIT's own rule (R139, R140). -/
def initBody (s : State) : State :=
  if s.cfgPending.legal then respond .ok 0 0 [] (startSession s) else respond .config 0 0 [] s

/-- REG_READ's own rule (R141). -/
def regReadBody (r : Byte) (s : State) : State :=
  if regAssigned r then respondQuietly .ok 0 (regValue s r) [] s else raiseFatal .illegal 0x02 s

/-- REG_WRITE's own rule (R142). -/
def regWriteBody (r : Byte) (v : Word64) (s : State) : State :=
  if regWritable r then respond .ok 0 0 [] { s with cfgPending := s.cfgPending.set r.toNat v }
  else raiseFatal .illegal 0x03 s

/-! ## The compress loop (R144) -/

/-- The operation of one turn: coded, then skipped (R144). -/
def codeOp (T : HashTable) (op : Option (Nat × Nat)) (s : State) : State :=
  match op with
  | some m => skipBody T m.2 (encMatchCore (m.1 : Int) m.2 s)
  | none => skipBody T 1 (encLitCore s)

/-- One turn of the loop, after its margin check: FindBody, POLICY, the operation (R144). POLICY sees FindBody's list;
the state beside it is for R143's check of the answer (log 2). -/
def loopTurn (T : HashTable) (P : Policy) (s : State) : State :=
  codeOp T (chooseOp P (findList T s) (indexHead T s)) (indexHead T s)

/-- How a loop ended: its status and operations, and the state (R144). -/
structure LoopEnd where
  status : Status
  ops    : Nat
  state  : State
  deriving DecidableEq, Repr

/-- The look-ahead the loop needs to go on (R144). -/
def loopThreshold (all : Bool) : Nat := if all then 1 else Config.maxMatchLen

/-- The loop goes on: enough look-ahead, and the cap is not reached (R144). -/
def loopGoes (all : Bool) (maxOps ops : Nat) (s : State) : Bool :=
  decide (loopThreshold all ≤ s.B) && (decide (maxOps = 0) || decide (ops < maxOps))

/-- CompressLoop from `ops` operations on, for at most `fuel` turns. Every turn takes a byte of look-ahead, so B
turns are enough (70_reset_and_hazards.md R178). -/
def compressLoop (T : HashTable) (P : Policy) (all : Bool) (maxOps : Nat) : Nat → Nat → State → LoopEnd
  | 0, ops, s => ⟨.ok, ops, s⟩
  | fuel + 1, ops, s =>
    if loopGoes all maxOps ops s then
      if marginOk s then
        if (loopTurn T P s).coder.sinkBroken then ⟨.sinkOverflow, ops + 1, loopTurn T P s⟩
        else compressLoop T P all maxOps fuel (ops + 1) (loopTurn T P s)
      else ⟨.limit, ops, s⟩
    else ⟨.ok, ops, s⟩

/-- CompressLoop(all, maxOps) (R144). -/
def runLoop (T : HashTable) (P : Policy) (all : Bool) (maxOps : Nat) (s : State) : LoopEnd :=
  compressLoop T P all maxOps s.B 0 s

/-- COMPRESS's own rule (R144). -/
def compressBody (T : HashTable) (P : Policy) (all : Bool) (maxOps : Word32) (s : State) : State :=
  respond (runLoop T P all maxOps.toNat s).status (runLoop T P all maxOps.toNat s).ops
    (BitVec.ofNat 64 ((runLoop T P all maxOps.toNat s).state.H - s.H)) [] (runLoop T P all maxOps.toNat s).state

/-! ## Close (R145) -/

/-- The EOS step of CLOSE: the marker when the configuration asks for it and it fits, else LIMIT (R145). -/
def closeEos (e : LoopEnd) : LoopEnd :=
  if e.state.cfg.eos.toNat = 1 then
    if eosMarginOk e.state then { e with state := codePacket .eos e.state } else { e with status := .limit }
  else e

/-- The flush step of CLOSE (R145). -/
def closeFlush (e : LoopEnd) : LoopEnd :=
  if flushCost e.state.coder ≤ e.state.coder.sinkRem then
    { e with state := { e.state with coder := rcFlushBody e.state.coder } }
  else { e with status := .limit }

/-- The status CLOSE answers: SINK_OVERFLOW if the sink broke in it (R145). -/
def closeStatus (e : LoopEnd) : Status := if e.state.coder.sinkBroken then .sinkOverflow else e.status

/-- What CLOSE does after its loop (R145). -/
def closeTail (e : LoopEnd) : LoopEnd :=
  if e.status = .sinkOverflow then e else closeFlush (closeEos e)

/-- CLOSE's own rule (R145). -/
def closeBody (T : HashTable) (P : Policy) (s : State) : State :=
  respond (closeStatus (closeTail (runLoop T P true 0 s))) (closeTail (runLoop T P true 0 s)).ops
    (BitVec.ofNat 64 ((closeTail (runLoop T P true 0 s)).state.H - s.H)) []
    (closeTail (runLoop T P true 0 s)).state

/-! ## The meanings -/

/-- INIT (R139, R140). -/
def execInit (s : State) : Host.Outcome State Fault Refusal := runEarly initBody s

/-- REG_READ (R141): the one command that runs while faulted. -/
def execRegRead (r : Byte) (s : State) : Host.Outcome State Fault Refusal := .next (regReadBody r s)

/-- REG_WRITE (R142). -/
def execRegWrite (r : Byte) (v : Word64) (s : State) : Host.Outcome State Fault Refusal :=
  runEarly (regWriteBody r v) s

/-- COMPRESS (R144). -/
def execCompress (all : Bool) (maxOps : Word32) (s : State) : Host.Outcome State Fault Refusal :=
  runCommon ⟨true, true, false⟩ (compressBody Config.hashTable Config.policy all maxOps) s

/-- CLOSE (R145). -/
def execClose (s : State) : Host.Outcome State Fault Refusal :=
  runCommon ⟨true, true, false⟩ (closeBody Config.hashTable Config.policy) s

end Sys2Proof.Machine
end

