-- ==== Sys2Proof/Machine/Dispatch.lean ====
section
/-! DEFINITION. exec: one arm per constructor of Instr, each one call of its meaning. -/

namespace Sys2Proof.Machine

def exec (i : Instr) (s : State) : Host.Outcome State Fault Refusal :=
  match i with
  | .init => Sys2Proof.Machine.execInit s
  | .regRead r => Sys2Proof.Machine.execRegRead r s
  | .regWrite r v => Sys2Proof.Machine.execRegWrite r v s
  | .sinkOpen limit => Sys2Proof.Machine.execSinkOpen limit s
  | .write payload => Sys2Proof.Machine.execWrite payload s
  | .byteAt d => Sys2Proof.Machine.execByteAt d s
  | .segment d n => Sys2Proof.Machine.execSegment d n s
  | .matchLen d p => Sys2Proof.Machine.execMatchLen d p s
  | .discard n => Sys2Proof.Machine.execDiscard n s
  | .copyN n => Sys2Proof.Machine.execCopyN n s
  | .hash k p => Sys2Proof.Machine.execHash k p s
  | .find => Sys2Proof.Machine.execFind s
  | .skip n => Sys2Proof.Machine.execSkip n s
  | .encLit => Sys2Proof.Machine.execEncLit s
  | .encMatch d len => Sys2Proof.Machine.execEncMatch d len s
  | .encEos => Sys2Proof.Machine.execEncEos s
  | .rcFlush => Sys2Proof.Machine.execRcFlush s
  | .compress all n => Sys2Proof.Machine.execCompress all n s
  | .close => Sys2Proof.Machine.execClose s
  | .pktLit x => Sys2Proof.Machine.execPktLit x s
  | .pktMatch d0 len => Sys2Proof.Machine.execPktMatch d0 len s
  | .pktShortRep => Sys2Proof.Machine.execPktShortRep s
  | .pktLongRep0 len => Sys2Proof.Machine.execPktLongRep0 len s
  | .pktLongRep1 len => Sys2Proof.Machine.execPktLongRep1 len s
  | .pktLongRep2 len => Sys2Proof.Machine.execPktLongRep2 len s
  | .pktLongRep3 len => Sys2Proof.Machine.execPktLongRep3 len s
  | .pktEos => Sys2Proof.Machine.execPktEos s

end Sys2Proof.Machine
end

