-- ==== Sys2Proof/Machine/Fetch.lean ====
section
/-! DEFINITION. Taking the host's next move: a command word with its payload through steps 1 and 2 of
60_exceptions.md R151, or a hardware reset (70_reset_and_hazards.md R168). -/

namespace Sys2Proof.Machine

/-- A word that does not decode (R152): FAULTED while the latch is set, but for REG_READ's opcode, else ILLEGAL. -/
def runIllegal (opc : Byte) (s : State) : State :=
  if s.faulted && opc != 0x02 then respond .faulted 0 0 [] s else raiseFatal .illegal opc s

/-- One command word with its payload (R151). The meaning of a decoded command makes step 1's check itself. -/
def runCommand (w : CommandWord) (payload : List Byte) (s : State) : Host.Outcome State Fault Refusal :=
  match decode w payload with
  | .ok i => exec i s
  | .error _ => .next (runIllegal (opcOf w) s)

/-- The host's oldest move, or idling when there is none (60_exceptions.md R164). -/
def takeMove (s : State) : Host.Outcome State Fault Refusal :=
  match s.inbox with
  | [] => .next s
  | .reset :: rest => .next (hardReset { s with inbox := rest })
  | .command w payload :: rest => runCommand w payload { s with inbox := rest }

/-- The host's next move is the command that the table's bits spell; the moves already waiting follow it. -/
def queueTableWord (s : State) (nbits w : Nat) : State :=
  { s with inbox := .command (tableWord nbits w) (tablePayload nbits w) :: s.inbox }

end Sys2Proof.Machine
end

