-- ==== Sys2Proof/Machine/Step.lean ====
section
/-! DEFINITION. One step of the machine: the host's next move, to completion (20_memory.md R55). -/

namespace Sys2Proof.Machine

/-- One step. -/
def step (s : State) : Host.Outcome State Fault Refusal := takeMove s

/-- The state with an instruction of the opcode table as the host's next command. -/
def State.withFetchWord (s : State) (nbits w : Nat) : State := queueTableWord s nbits w

end Sys2Proof.Machine
end

