-- ==== Sys2Proof/Machine/Pseudo.lean ====
section
/-! DEFINITION. The pseudo-instructions of 30_encoding.md R74: an assembler's names for sequences of commands. None has
an opcode of its own, so none is a constructor of Instr. -/

namespace Sys2Proof.Machine

/-- NOP: `REG_READ ID`. -/
def pseudoNop : List Instr := [.regRead 0x10]

/-- CFG name, v: `REG_WRITE CFG_name, v`, by the register's number. -/
def pseudoCfg (r : Byte) (v : Word64) : List Instr := [.regWrite r v]

/-- STEP_LIT: `ENC_LIT`, then `SKIP 1`. -/
def pseudoStepLit : List Instr := [.encLit, .skip 1]

/-- STEP_MATCH d, len: `ENC_MATCH d, len`, then `SKIP len`. -/
def pseudoStepMatch (d : Word64) (len : Word32) : List Instr := [.encMatch d len, .skip len]

/-- What STEP issues after its FIND: STEP_MATCH with the last item of FIND's list, or STEP_LIT for an empty list. An
item is `(len << 32) | dist` (R73). -/
def pseudoStepAfterFind (items : List Word64) : List Instr :=
  match items.getLast? with
  | none => pseudoStepLit
  | some v => pseudoStepMatch (v &&& 0xFFFFFFFF#64) (BitVec.ofNat 32 (v.toNat / 4294967296))

/-- FINISH: `CLOSE`. -/
def pseudoFinish : List Instr := [.close]

end Sys2Proof.Machine
end

