-- ==== Sys2Proof/Safety.lean ====
section
/-! DEFINITION. The terms in which claims are made: which commands a check applies to, when a command runs its own
rule, what a run's statuses are called, and the invariants of 10_state.md R42. -/

namespace Sys2Proof

/-! ## Commands by class -/

/-- A command of 30_encoding.md R67, not a packet row. -/
def Instr.isCommand (i : Instr) : Bool := i.packet?.isNone

/-- A command that a broken sink refuses (60_exceptions.md R151 step 5, R157). -/
def Instr.needsSink : Instr → Bool
  | .copyN _ | .encLit | .encMatch _ _ | .encEos | .rcFlush | .compress _ _ | .close => true
  | .init | .regRead _ | .regWrite _ _ | .sinkOpen _ | .write _ | .byteAt _ | .segment _ _ | .matchLen _ _
  | .discard _ | .hash _ _ | .find | .skip _ => false
  | .pktLit _ | .pktMatch _ _ | .pktShortRep | .pktLongRep0 _ | .pktLongRep1 _ | .pktLongRep2 _ | .pktLongRep3 _
  | .pktEos => false

/-- An encode command, which a pending operation refuses (60_exceptions.md R151 step 6, R155). -/
def Instr.needsIdle : Instr → Bool
  | .encLit | .encMatch _ _ | .encEos | .compress _ _ | .close => true
  | .init | .regRead _ | .regWrite _ _ | .sinkOpen _ | .write _ | .byteAt _ | .segment _ _ | .matchLen _ _
  | .discard _ | .copyN _ | .hash _ _ | .find | .skip _ | .rcFlush => false
  | .pktLit _ | .pktMatch _ _ | .pktShortRep | .pktLongRep0 _ | .pktLongRep1 _ | .pktLongRep2 _ | .pktLongRep3 _
  | .pktEos => false

/-- A command that runs without a session (60_exceptions.md R151 step 3, R154). -/
def Instr.runsEarly : Instr → Bool
  | .init | .regRead _ | .regWrite _ _ => true
  | .sinkOpen _ | .write _ | .byteAt _ | .segment _ _ | .matchLen _ _ | .discard _ | .copyN _ | .hash _ _ | .find
  | .skip _ | .encLit | .encMatch _ _ | .encEos | .rcFlush | .compress _ _ | .close => false
  | .pktLit _ | .pktMatch _ _ | .pktShortRep | .pktLongRep0 _ | .pktLongRep1 _ | .pktLongRep2 _ | .pktLongRep3 _
  | .pktEos => false

/-- A command's opcode (30_encoding.md R67); 0 for a packet row, which has none. -/
def Instr.opcode (i : Instr) : Byte :=
  match encode i with
  | .command w _ => opcOf w
  | .packet _ => 0

end Sys2Proof

namespace Sys2Proof.Machine

/-! ## Readiness: when the common checks of R151 let a command through -/

/-- A session runs and no fault is latched. -/
abbrev ready (s : State) : Prop := s.faulted = false ∧ s.initDone = true

/-- Ready, and the sink is not broken. -/
abbrev sinkReady (s : State) : Prop := ready s ∧ s.coder.sinkBroken = false

/-- Sink-ready, and no operation is pending. -/
abbrev encodeReady (s : State) : Prop := sinkReady s ∧ s.pend = 0

/-! ## Statuses -/

/-- A fatal status (60_exceptions.md R148). -/
def Status.fatal (st : Status) : Bool := st == .range || st == .illegal

/-- A refusal (60_exceptions.md R148). -/
def Status.refusal (st : Status) : Bool := st == .notInit || st == .faulted || st == .sequence

/-- A status of a clean run (70_reset_and_hazards.md R171). -/
def Status.clean (st : Status) : Bool := !(st.fatal || st == .faulted || st == .sinkOverflow)

/-- A state without what every command leaves behind: STATUS.LAST and the record of responses. -/
def withoutTalk (s : State) : State := { s with lastStatus := .ok, responses := [] }

/-- A state without its fault latch as well. -/
def withoutLatch (s : State) : State := { withoutTalk s with faulted := false, faultCode := 0, faultOpc := 0 }

/-- A run is clean so far (70_reset_and_hazards.md R171). -/
def cleanRun (s : State) : Bool := s.responses.all (fun r => r.status.clean)

/-- A sink's stream is complete when this holds as the sink is replaced or the run ends (70_reset_and_hazards.md R171). -/
def streamComplete (s : State) : Bool := s.coder.rcFresh

/-! ## Invariants -/

/-- The range of a probability cell (10_state.md R31, R42). -/
def probInRange (p : Prob) : Bool := 31 ≤ p.toNat && p.toNat ≤ 2017

/-- The held-back bytes with `low`, as one number: the cache byte, the pending 0xFF bytes, then `low`
(43_range_coder.md R115). -/
def heldValue (c : Coder) : Nat :=
  ((c.rcCache.toNat + 1) * 256 ^ (c.rcCacheSize - 1) - 1) * 4294967296 + c.rcLow.toNat

/-- The range encoder's invariant: 10_state.md R42, the bound on `low` of 43_range_coder.md R112, that a carry has room
in the held-back bytes (R115), and that only an opened sink takes bytes (R123). -/
structure CoderInv (c : Coder) : Prop where
  cacheSize  : 1 ≤ c.rcCacheSize
  range      : Config.top ≤ c.rcRange.toNat
  low        : c.rcLow.toNat + c.rcRange.toNat < 8589934592
  carryRoom  : heldValue c + c.rcRange.toNat ≤ 256 ^ c.rcCacheSize * 4294967296
  bankForm   : c.probs.wf = true
  bankRange  : ∀ cell ∈ c.probs, probInRange cell.2 = true
  sinkBounds : c.sinkRem + c.outCount ≤ 9223372036854775807
  sinkOpen   : 0 < c.sinkRem → c.sinks ≠ []

/-- The invariant of the machine (10_state.md R42), with what keeps it: the active configuration is legal, H + B fits
its registers (R25), the ring has its canonical form and holds a written byte at every defined position
(20_memory.md R46), only positions below H + ahead are indexed, each at most once (42_match_finder.md R109), a chain is
most recent first (41_hash_index.md R93), and IDX_BASE lies below every live position (R96). -/
structure Inv (s : State) : Prop where
  cfgLegal    : s.initDone = true → s.cfg.legal = true
  unborn      : s.initDone = false → s.cfg = Cfg.zero ∧ s.H = 0 ∧ s.B = 0
  window      : s.B + dictLen s ≤ ringLen s
  total       : s.H + s.B ≤ 18446744073709551615
  aheadLe     : s.ahead ≤ s.B
  aheadOne    : s.ahead ≤ 1
  pendLe      : s.pend ≤ s.B
  lzLe        : s.lzState.toNat ≤ 11
  ringForm    : s.ring.wf = true
  ringCells   : ∀ cell ∈ s.ring, cell.1 < ringLen s
  ringDefined : ∀ i < dictLen s + s.B, (s.ring.read (ringCell s (s.H - dictLen s + i))).isSome = true
  single2     : ∀ e ∈ s.index.single2, e.2 < s.H + s.ahead
  single3     : ∀ e ∈ s.index.single3, e.2 < s.H + s.ahead
  chain       : ∀ e ∈ s.index.chain, ∀ p ∈ e.2, p < s.H + s.ahead
  chainOrder  : ∀ e ∈ s.index.chain, e.2.Pairwise (fun p q => q < p)
  base        : s.idxBase + 1 ≤ (s.H : Int) - (dictLen s : Int)
  coder       : CoderInv s.coder
  unlatched   : s.faulted = false → s.faultCode = 0 ∧ s.faultOpc = 0
  latched     : s.faulted = true → s.faultCode = Status.range.code ∨ s.faultCode = Status.illegal.code

end Sys2Proof.Machine
end

