-- ==== Sys2Proof/Certificates/Slice0/Obligations.lean ====
section
/-! DEFINITION. The statements for the provers, in the order of OBLIGATIONS.json. -/

open Sys2Proof Sys2Proof.Machine

/-! ## Encodings -/

/-- Every well-formed instruction, command or packet, is what its own code decodes to (30_encoding.md R67, R75). -/
def Obligations.DecodeEncodeRoundTrip : Prop :=
  ∀ i : Instr, i.wf = true → decodeEncoded (encode i) = .ok i

/-- A word that decodes is the word, and its payload the payload, of exactly one well-formed command: no bit of it is
dropped (30_encoding.md R62, R63, R64). -/
def Obligations.DecodeDropsNoBit : Prop :=
  ∀ (w : CommandWord) (payload : List Byte) (i : Instr), decode w payload = .ok i →
    i.wf = true ∧ i.isCommand = true ∧ encode i = .command w payload

/-- A word with its payload fails to decode exactly when one of the conditions of 60_exceptions.md R152 holds. -/
def Obligations.IllegalWords : Prop :=
  ∀ (w : CommandWord) (payload : List Byte), (∃ e, decode w payload = .error e) ↔
    (opcOf w).toNat ∉ [0x01, 0x02, 0x03, 0x04, 0x10, 0x11, 0x12, 0x13, 0x14, 0x15, 0x20, 0x21, 0x22, 0x30, 0x31, 0x32,
        0x33, 0x40, 0x41]
    ∨ rsvdOf w ≠ 0
    ∨ ((opcOf w).toNat = 0x02 ∧
        (¬ ((subOf w).toNat ≤ 0x0B ∨ (0x10 ≤ (subOf w).toNat ∧ (subOf w).toNat ≤ 0x24)
            ∨ (0x30 ≤ (subOf w).toNat ∧ (subOf w).toNat ≤ 0x3B))
          ∨ lenOf w ≠ 0 ∨ distOf w ≠ 0))
    ∨ ((opcOf w).toNat = 0x03 ∧ (0x0B < (subOf w).toNat ∨ lenOf w ≠ 0))
    ∨ ((opcOf w).toNat = 0x40 ∧ 2 ≤ (subOf w).toNat)
    ∨ ((opcOf w).toNat ∉ [0x02, 0x03, 0x40, 0x20] ∧ subOf w ≠ 0)
    ∨ ((opcOf w).toNat ∉ [0x10, 0x12, 0x13, 0x14, 0x15, 0x20, 0x22, 0x31, 0x40] ∧ lenOf w ≠ 0)
    ∨ ((opcOf w).toNat ∉ [0x04, 0x11, 0x12, 0x13, 0x31, 0x03] ∧ distOf w ≠ 0)
    ∨ ((opcOf w).toNat ∈ [0x10, 0x13, 0x20] ∧ payload.length ≠ (lenOf w).toNat)
    ∨ ((opcOf w).toNat ∉ [0x10, 0x13, 0x20] ∧ payload ≠ [])

/-- A command serialised with its payload has the layout and the length that 30_encoding.md R65 and R70 give, and comes
off the front of a stream whole. -/
def Obligations.SerialisedStreamSplits : Prop :=
  ∀ (w : CommandWord) (payload rest : List Byte),
    payload.length = (if (opcOf w).toNat ∈ [0x10, 0x13, 0x20] then (lenOf w).toNat else 0) →
      serialise w payload = opcOf w :: subOf w :: natToBytes (rsvdOf w).toNat 2 ++ natToBytes (lenOf w).toNat 4
          ++ natToBytes (distOf w).toNat 8 ++ payload
        ∧ (serialise w payload).length = 16 + payload.length
        ∧ splitCommand (serialise w payload ++ rest) = some (w, payload, rest)
        ∧ decodeBytes (serialise w payload) = decode w payload

/-- A few words written out by the fields of 30_encoding.md R62 decode to the commands R67 gives them, and the prefixes
of R75 to their packets. -/
def Obligations.SpecWordsDecode : Prop :=
  decode 0x00000000000000400000000000000003#128 [] = .ok (.regWrite 0x00 64)
    ∧ decode 0x00000000000003E80000000000000004#128 [] = .ok (.sinkOpen 1000)
    ∧ decode 0x00000000000000000000000500000010#128 [0x62, 0x61, 0x6C, 0x6C, 0x61]
        = .ok (.write [0x62, 0x61, 0x6C, 0x6C, 0x61])
    ∧ decode 0xFFFFFFFFFFFFFFFE0000000500000012#128 [] = .ok (.segment 0xFFFFFFFFFFFFFFFE 5)
    ∧ decode 0x00000000000000000000000400000420#128 [0x62, 0x61, 0x6C, 0x6C] = .ok (.hash 4 [0x62, 0x61, 0x6C, 0x6C])
    ∧ decode 0x000000000000000A0000000200000031#128 [] = .ok (.encMatch 10 2)
    ∧ decode 0x00000000000000000000000300000140#128 [] = .ok (.compress true 3)
    ∧ decode 0x00000000000000000000000000000041#128 [] = .ok .close
    ∧ decodePacket [true, true, false, false] = some (.shortRep, [])
    ∧ decodePacket [true, true, true, true, false, false, true, false, true] = some (.longRep 2 7, [])

/-- A decoder finds the end of every packet from its own decisions: no packet's code begins another's
(30_encoding.md R77). -/
def Obligations.PacketsSelfDelimit : Prop :=
  ∀ (p : Packet) (rest : List Bool), p.wf = true → decodePacket (packetBits p ++ rest) = some (p, rest)

/-- Whatever the contexts, the decisions the core codes for a packet spell that packet's code (30_encoding.md R75,
R76), and each decision is coded with the cell the spec gives it: the prefix cells of R75, the tree nodes of
43_range_coder.md R120 and R121, and the literal, length and distance cells of 44_lzma_model.md R128, R129 and R131. -/
def Obligations.DecisionsSpellThePacket : Prop :=
  (∀ (k : Context) (p : Packet), (packetDecisions k p).map Decision.bit = packetBits p)
    ∧ (∀ (A : Nat → ProbCell) (n v : Nat),
        treeMsb A n v = (List.range n).map (fun i => .adaptive
            (A ((List.range i).foldl (fun m j => 2 * m + (v.testBit (n - 1 - j)).toNat) 1)) (v.testBit (n - 1 - i)))
          ∧ treeLsb A n v = (List.range n).map (fun i => .adaptive
            (A ((List.range i).foldl (fun m j => 2 * m + (v.testBit j).toNat) 1)) (v.testBit i))
          ∧ directMsb n v = (List.range n).map (fun i => .direct (v.testBit (n - 1 - i))))
    ∧ (∀ (k : Context) (x : Byte), literalDecisions k x = (List.range 8).map (fun i => .adaptive
        (.lit k.litState (2 ^ i + x.toNat / 2 ^ (8 - i)
          + k.matchByte.elim 0 (fun mb =>
              if mb.toNat / 2 ^ (8 - i) = x.toNat / 2 ^ (8 - i) then 0x100 + (mb.toNat.testBit (7 - i)).toNat * 0x100
              else 0)))
        (x.toNat.testBit (7 - i))))
    ∧ (∀ (C : LenCoder) (len ps n : Nat), n = len - 2 →
        (n < 8 → lenDecisions C len ps = .adaptive (.choice C) false :: treeMsb (.low C ps) 3 n)
          ∧ (8 ≤ n → n < 16 → lenDecisions C len ps =
              .adaptive (.choice C) true :: .adaptive (.choice2 C) false :: treeMsb (.mid C ps) 3 (n - 8))
          ∧ (16 ≤ n → lenDecisions C len ps =
              .adaptive (.choice C) true :: .adaptive (.choice2 C) true :: treeMsb (.high C) 8 (n - 16)))
    ∧ (∀ d0 len slot fb r : Nat, slot = distSlot d0 → fb = slot / 2 - 1 → r = d0 - (2 + slot % 2) * 2 ^ fb →
        (slot < 4 → distDecisions d0 len = treeMsb (.posSlot (min (len - 2) 3)) 6 slot)
          ∧ (4 ≤ slot → slot < 14 → distDecisions d0 len =
              treeMsb (.posSlot (min (len - 2) 3)) 6 slot ++ treeLsb (.posSpec slot) fb r)
          ∧ (14 ≤ slot → distDecisions d0 len = treeMsb (.posSlot (min (len - 2) 3)) 6 slot
              ++ (directMsb (fb - 4) (r / 16) ++ treeLsb .align 4 (r % 16))))
    ∧ (∀ (k : Context) (isM : Bool → Decision) (rep : List Bool → List Decision),
        (∀ b, isM b = .adaptive (.isMatch k.st k.ps) b) →
        (∀ g0 g, rep (g0 :: g) = isM true :: .adaptive (.isRep k.st) true :: .adaptive (.isRepG0 k.st) g0 ::
            (if g0 then (List.zipWith Decision.adaptive [.isRepG1 k.st, .isRepG2 k.st] g)
              else (List.zipWith Decision.adaptive [.isRep0Long k.st k.ps] g))) →
          (∀ x, packetDecisions k (.lit x) = isM false :: literalDecisions k x)
            ∧ (∀ d0 len, packetDecisions k (.simpleMatch d0 len) =
                isM true :: .adaptive (.isRep k.st) false :: (lenDecisions .len len k.ps ++ distDecisions d0.toNat len))
            ∧ packetDecisions k .shortRep = rep [false, false]
            ∧ (∀ len, packetDecisions k (.longRep 0 len) = rep [false, true] ++ lenDecisions .repLen len k.ps)
            ∧ (∀ len, packetDecisions k (.longRep 1 len) = rep [true, false] ++ lenDecisions .repLen len k.ps)
            ∧ (∀ len, packetDecisions k (.longRep 2 len) = rep [true, true, false] ++ lenDecisions .repLen len k.ps)
            ∧ (∀ len, packetDecisions k (.longRep 3 len) = rep [true, true, true] ++ lenDecisions .repLen len k.ps)
            ∧ packetDecisions k .eos =
                isM true :: .adaptive (.isRep k.st) false :: (lenDecisions .len 2 k.ps ++ distDecisions 0xFFFFFFFF 2))

/-! ## The step, statuses and the fault latch -/

/-- A step runs the command that the host's next word and payload decode to, and takes that move off (30_encoding.md
R62, 60_exceptions.md R151). -/
def Obligations.StepRunsTheDecodedCommand : Prop :=
  ∀ (s : State) (w : CommandWord) (payload : List Byte) (rest : List HostEvent) (i : Instr),
    s.inbox = .command w payload :: rest → decode w payload = .ok i → step s = exec i { s with inbox := rest }

/-- What a step does otherwise: it idles with no move waiting (60_exceptions.md R164), takes hardware reset
(70_reset_and_hazards.md R168), and answers an undecodable word by steps 1 and 2 of 60_exceptions.md R151. -/
def Obligations.StepWithoutACommand : Prop :=
  (∀ s : State, s.inbox = [] → step s = .next s)
    ∧ (∀ (s : State) (rest : List HostEvent), s.inbox = .reset :: rest →
        step s = .next { State.reset with inbox := rest })
    ∧ (∀ (s : State) (w : CommandWord) (payload : List Byte) (rest : List HostEvent) (e : DecodeError),
        s.inbox = .command w payload :: rest → decode w payload = .error e →
          (s.faulted = false → (opcOf w).toNat ≠ 0x02 →
            step s = .next { s with
              inbox := rest, faulted := true, faultCode := 5, faultOpc := opcOf w, lastStatus := .illegal
              responses := s.responses ++ [⟨.illegal, 0, 0, []⟩] })
          ∧ (s.faulted = false → (opcOf w).toNat = 0x02 →
            step s = .next { s with
              inbox := rest, faulted := true, faultCode := 5, faultOpc := opcOf w
              responses := s.responses ++ [⟨.illegal, 0, 0, []⟩] })
          ∧ (s.faulted = true → (opcOf w).toNat ≠ 0x02 →
            step s = .next { s with
              inbox := rest, lastStatus := .faulted, responses := s.responses ++ [⟨.faulted, 0, 0, []⟩] })
          ∧ (s.faulted = true → (opcOf w).toNat = 0x02 →
            step s = .next { s with inbox := rest, responses := s.responses ++ [⟨.illegal, 0, 0, []⟩] }))

/-- The state after hardware reset, field by field, where 10_state.md R44 gives a value. -/
def Obligations.ResetValues : Prop :=
  State.reset.cfgPending = ⟨0, 4096, 3, 0, 2, 0, 4, 273, 16, 0, 20, 16⟩
    ∧ State.reset.cfg = ⟨0, 0, 0, 0, 0, 0, 0, 0, 0, 0, 0, 0⟩
    ∧ State.reset.initDone = false ∧ State.reset.faulted = false ∧ State.reset.coder.sinkBroken = false
    ∧ State.reset.faultCode = 0 ∧ State.reset.faultOpc = 0 ∧ State.reset.lastStatus.code = 0
    ∧ State.reset.H = 0 ∧ State.reset.B = 0 ∧ State.reset.ahead = 0 ∧ State.reset.pend = 0
    ∧ State.reset.index = ⟨[], [], []⟩ ∧ State.reset.idxBase = -1
    ∧ State.reset.lzState = 0 ∧ State.reset.rep = ⟨0, 0, 0, 0⟩
    ∧ State.reset.coder.rcLow = 0 ∧ State.reset.coder.rcRange = 0xFFFFFFFF#32 ∧ State.reset.coder.rcCache = 0
    ∧ State.reset.coder.rcCacheSize = 1 ∧ State.reset.coder.rcFresh = true
    ∧ State.reset.coder.sinkRem = 0 ∧ State.reset.coder.outCount = 0
    ∧ statusWord State.reset = 0 ∧ regValue State.reset 0x24 = 0xFFFFFFFFFFFFFFFB#64

/-- Every command answers, with exactly one response; LAST becomes its status but for REG_READ; only SEGMENT, HASH and
FIND list items, as many as the count says (30_encoding.md R72, 60_exceptions.md R151). -/
def Obligations.OneResponsePerCommand : Prop :=
  ∀ (i : Instr) (s : State), i.isCommand = true → ∃ (t : State) (r : Response), exec i s = .next t
    ∧ t.responses = s.responses ++ [r] ∧ t.inbox = s.inbox
    ∧ t.lastStatus = (if i.opcode = 0x02#8 then s.lastStatus else r.status)
    ∧ (r.items = []
        ∨ (i.opcode.toNat ∈ [0x12, 0x20, 0x21] ∧ r.count = BitVec.ofNat 64 r.items.length))

/-- A fatal status is precise: it leaves everything but the latch, LAST and the response as it was, and records the
first fatal status and opcode only (60_exceptions.md R149). -/
def Obligations.FatalIsPrecise : Prop :=
  ∀ (i : Instr) (s t : State) (r : Response), i.isCommand = true → exec i s = .next t →
    t.responses = s.responses ++ [r] → r.status.fatal = true →
      r = ⟨r.status, 0, 0, []⟩ ∧ withoutLatch t = withoutLatch s ∧ t.faulted = true
        ∧ (s.faulted = false → t.faultCode = r.status.code ∧ t.faultOpc = i.opcode)
        ∧ (s.faulted = true → t.faultCode = s.faultCode ∧ t.faultOpc = s.faultOpc)

/-- A refusal, CONFIG, a LIMIT of a single-step command and a SINK_OVERFLOW refusal answer with zeros and change nothing
but LAST (60_exceptions.md R148, R153, R156, R157). -/
def Obligations.RefusalsWriteNothing : Prop :=
  ∀ (i : Instr) (s t : State) (r : Response), i.isCommand = true → exec i s = .next t →
    t.responses = s.responses ++ [r] →
      (r.status.refusal = true ∨ r.status = .config ∨ (r.status = .limit ∧ i.opcode.toNat ∉ [0x40, 0x41])
        ∨ (r.status = .sinkOverflow ∧ s.coder.sinkBroken = true)) →
        r = ⟨r.status, 0, 0, []⟩ ∧ withoutTalk t = withoutTalk s

/-- While the fault latch is set, every word but REG_READ's is answered FAULTED and changes nothing else, REG_READ
changes no state, and only hardware reset clears the latch (60_exceptions.md R150). -/
def Obligations.FaultLatchHolds : Prop :=
  ∀ s : State, s.faulted = true →
    (∀ (w : CommandWord) (payload : List Byte) (rest : List HostEvent), s.inbox = .command w payload :: rest →
        (opcOf w).toNat ≠ 0x02 →
          step s = .next { s with
            inbox := rest, lastStatus := .faulted, responses := s.responses ++ [⟨.faulted, 0, 0, []⟩] })
      ∧ (∀ r : Byte, regAssigned r = true →
          exec (.regRead r) s = .next { s with responses := s.responses ++ [⟨.ok, 0, regValue s r, []⟩] })
      ∧ (∀ t : State, step s = .next t → (∃ rest, s.inbox = .reset :: rest)
          ∨ (t.faulted = true ∧ withoutTalk t = withoutTalk { s with inbox := t.inbox }))

/-- Steps 4 to 6 of 60_exceptions.md R151, in their order, for every command past its steps 1 to 3. -/
def Obligations.CommonChecksInOrder : Prop :=
  ∀ (i : Instr) (s : State), i.isCommand = true → i.runsEarly = false → s.faulted = false →
    (s.initDone = false → exec i s = .next (respond .notInit 0 0 [] s))
      ∧ (s.initDone = true → i.needsSink = true → s.coder.sinkBroken = true →
          exec i s = .next (respond .sinkOverflow 0 0 [] s))
      ∧ (s.initDone = true → (i.needsSink && s.coder.sinkBroken) = false → i.needsIdle = true → s.pend ≠ 0 →
          exec i s = .next (respond .sequence 0 0 [] s))
      ∧ (∀ n, i = .copyN n → s.initDone = true → s.coder.sinkBroken = false → s.coder.rcFresh = false →
          exec i s = .next (respond .sequence 0 0 [] s))

/-! ## Configuration and registers -/

/-- INIT on a legal pending configuration starts a session; on any other it answers CONFIG and changes nothing
(45_control.md R139, R140). -/
def Obligations.InitStartsASession : Prop :=
  ∀ (s : State) (ok : Prop), s.faulted = false →
    (ok ↔
      s.cfgPending.mf.toNat = 0 ∧ 1 ≤ s.cfgPending.dictCap.toNat ∧ 273 ≤ s.cfgPending.laCap.toNat
        ∧ s.cfgPending.dictCap.toNat + s.cfgPending.laCap.toNat ≤ 2 ^ 32 - 1
        ∧ s.cfgPending.lc.toNat + s.cfgPending.lp.toNat ≤ 4 ∧ s.cfgPending.pb.toNat ≤ 4
        ∧ s.cfgPending.wordLen.toNat ∈ [2, 3, 4]
        ∧ 2 ≤ s.cfgPending.niceLen.toNat ∧ s.cfgPending.niceLen.toNat ≤ 273
        ∧ 1 ≤ s.cfgPending.depth.toNat ∧ s.cfgPending.depth.toNat ≤ 2 ^ 32 - 1
        ∧ s.cfgPending.eos.toNat ∈ [0, 1]
        ∧ s.cfgPending.opMargin.toNat ≤ 2 ^ 63 - 1 ∧ s.cfgPending.eosMargin.toNat ≤ 2 ^ 63 - 1) →
      (¬ ok → exec .init s = .next (respond .config 0 0 [] s))
        ∧ (ok → ∃ t : State, exec .init s = .next t
          ∧ t.cfg = s.cfgPending ∧ t.cfgPending = s.cfgPending ∧ t.initDone = true
          ∧ t.H = 0 ∧ t.B = 0 ∧ t.ahead = 0 ∧ t.pend = 0 ∧ t.index = ⟨[], [], []⟩ ∧ t.idxBase = -1
          ∧ t.lzState = 0 ∧ t.rep = ⟨0, 0, 0, 0⟩ ∧ (∀ a, t.coder.probs.read a = 1024#11)
          ∧ t.coder.rcLow = 0 ∧ t.coder.rcRange = 0xFFFFFFFF#32 ∧ t.coder.rcCache = 0 ∧ t.coder.rcCacheSize = 1
          ∧ t.coder.rcFresh = true ∧ t.coder.sinkRem = 0 ∧ t.coder.outCount = 0 ∧ t.coder.sinkBroken = false
          ∧ t.coder.sinks = s.coder.sinks ∧ t.faulted = false ∧ t.faultCode = s.faultCode
          ∧ t.faultOpc = s.faultOpc ∧ t.lastStatus = .ok ∧ t.inbox = s.inbox
          ∧ t.responses = s.responses ++ [⟨.ok, 0, 0, []⟩])

/-- REG_READ of every assigned register answers its value and changes nothing else, LAST included; of any other number
it is ILLEGAL (10_state.md R17 to R21, 45_control.md R141). -/
def Obligations.RegReadAnswersTheRegister : Prop :=
  ∀ s : State,
    (∀ e ∈
      [(0x00#8, s.cfgPending.dictCap), (0x01#8, s.cfgPending.laCap), (0x02#8, s.cfgPending.lc),
        (0x03#8, s.cfgPending.lp), (0x04#8, s.cfgPending.pb), (0x05#8, s.cfgPending.mf),
        (0x06#8, s.cfgPending.wordLen), (0x07#8, s.cfgPending.niceLen), (0x08#8, s.cfgPending.depth),
        (0x09#8, s.cfgPending.eos), (0x0A#8, s.cfgPending.opMargin), (0x0B#8, s.cfgPending.eosMargin)] ++
      [(0x10#8, 0x000000014C5A4D41#64), (0x11#8, statusWord s), (0x12#8, BitVec.ofNat 64 s.H),
        (0x13#8, BitVec.ofNat 64 s.B), (0x14#8, if s.initDone then BitVec.ofNat 64 (dictLen s) else 0),
        (0x15#8, if s.initDone then BitVec.ofNat 64 (available s) else 0), (0x16#8, BitVec.ofNat 64 s.ahead),
        (0x17#8, BitVec.ofNat 64 s.pend), (0x18#8, s.lzState.setWidth 64), (0x19#8, s.rep.r0.setWidth 64),
        (0x1A#8, s.rep.r1.setWidth 64), (0x1B#8, s.rep.r2.setWidth 64), (0x1C#8, s.rep.r3.setWidth 64)] ++
      [(0x1D#8, s.coder.rcLow), (0x1E#8, s.coder.rcRange.setWidth 64), (0x1F#8, s.coder.rcCache.setWidth 64),
        (0x20#8, BitVec.ofNat 64 s.coder.rcCacheSize), (0x21#8, BitVec.ofNat 64 s.coder.sinkRem),
        (0x22#8, BitVec.ofNat 64 s.coder.outCount), (0x23#8, BitVec.ofInt 64 s.idxBase),
        (0x24#8, BitVec.ofInt 64 ((s.coder.sinkRem : Int) - (s.coder.rcCacheSize + 4)))] ++
      [(0x30#8, s.cfg.dictCap), (0x31#8, s.cfg.laCap), (0x32#8, s.cfg.lc), (0x33#8, s.cfg.lp), (0x34#8, s.cfg.pb),
        (0x35#8, s.cfg.mf), (0x36#8, s.cfg.wordLen), (0x37#8, s.cfg.niceLen), (0x38#8, s.cfg.depth),
        (0x39#8, s.cfg.eos), (0x3A#8, s.cfg.opMargin), (0x3B#8, s.cfg.eosMargin)],
      exec (.regRead e.1) s = .next { s with responses := s.responses ++ [⟨.ok, 0, e.2, []⟩] })
    ∧ (∀ r : Byte, ¬ (r.toNat ≤ 0x0B ∨ (0x10 ≤ r.toNat ∧ r.toNat ≤ 0x24) ∨ (0x30 ≤ r.toNat ∧ r.toNat ≤ 0x3B)) →
        exec (.regRead r) s = .next (raiseFatal .illegal 0x02 s))

/-- The fields of STATUS (10_state.md R21), and the numbers of the ten statuses in LAST, FAULT_CODE and a response
(60_exceptions.md R147). -/
def Obligations.StatusRegisterFields : Prop :=
  (Status.ok.code = 0 ∧ Status.noSpace.code = 1 ∧ Status.limit.code = 2 ∧ Status.range.code = 3
      ∧ Status.config.code = 4 ∧ Status.illegal.code = 5 ∧ Status.sinkOverflow.code = 6 ∧ Status.notInit.code = 7
      ∧ Status.faulted.code = 8 ∧ Status.sequence.code = 9)
    ∧ ∀ s : State,
    (statusWord s).extractLsb' 0 8 = s.lastStatus.code
      ∧ (statusWord s).getLsbD 8 = s.initDone ∧ (statusWord s).getLsbD 9 = s.faulted
      ∧ (statusWord s).getLsbD 10 = s.coder.sinkBroken
      ∧ (statusWord s).getLsbD 11 = (s.initDone && s.coder.rcFresh)
      ∧ (statusWord s).extractLsb' 12 4 = 0#4
      ∧ (statusWord s).extractLsb' 16 8 = s.faultCode ∧ (statusWord s).extractLsb' 24 8 = s.faultOpc
      ∧ (statusWord s).extractLsb' 32 32 = 0#32

/-- REG_WRITE stores any value in the pending register it names and nothing else; it reads back, and the active
configuration stays; any other register number is ILLEGAL (45_control.md R142). -/
def Obligations.RegWriteStores : Prop :=
  ∀ (s : State) (r : Byte) (v : Word64), s.faulted = false →
    (r.toNat ≤ 0x0B → ∃ t : State, exec (.regWrite r v) s = .next t
        ∧ t = { s with
            cfgPending := t.cfgPending, lastStatus := .ok, responses := s.responses ++ [⟨.ok, 0, 0, []⟩] }
        ∧ regValue t r = v ∧ (∀ q : Byte, q.toNat ≤ 0x0B → q ≠ r → regValue t q = regValue s q))
      ∧ (0x0B < r.toNat → exec (.regWrite r v) s = .next (raiseFatal .illegal 0x03 s))

/-! ## The dictionary -/

/-- WRITE appends the bytes that fit, in order, and changes no other cell; NO_SPACE says that some did not fit
(40_dictionary.md R79). -/
def Obligations.WriteAppends : Prop :=
  ∀ (s : State) (payload : List Byte) (m : Nat), ready s →
    m = min payload.length
        (min (ringLen s - s.B - dictLen s) (2 ^ 64 - 1 - (s.H + s.B))) →
      ∃ t : State, exec (.write payload) s = .next t
        ∧ t = { s with
            ring := t.ring, B := s.B + m, lastStatus := if m < payload.length then .noSpace else .ok
            responses := s.responses ++
              [⟨if m < payload.length then .noSpace else .ok, BitVec.ofNat 64 m, 0, []⟩] }
        ∧ (∀ i (h : i < payload.length), i < m →
            t.ring.read ((s.H + s.B + i) % ringLen s) = some payload[i])
        ∧ (∀ cell, (∀ i < m, (s.H + s.B + i) % ringLen s ≠ cell) → t.ring.read cell = s.ring.read cell)

/-- WRITE never overwrites a look-ahead byte or a history byte inside the window (40_dictionary.md R79, 20_memory.md
R46). -/
def Obligations.WriteKeepsTheWindow : Prop :=
  ∀ (s t : State) (payload : List Byte) (p : Nat), Inv s → exec (.write payload) s = .next t →
    s.H - dictLen s ≤ p → p < s.H + s.B → ringAt t p = ringAt s p

/-- BYTEAT answers the history byte at its distance, or 0 for a distance outside the window, and changes nothing but
LAST (40_dictionary.md R80). -/
def Obligations.ByteAtReadsHistory : Prop :=
  ∀ (s : State) (d : Word64), ready s →
    (1 ≤ d.toInt → d.toInt ≤ (dictLen s : Int) → exec (.byteAt d) s =
        .next (respond .ok 0 ((ringAt s (s.H - d.toInt.toNat)).setWidth 64) [] s))
      ∧ (¬ (1 ≤ d.toInt ∧ d.toInt ≤ (dictLen s : Int)) → exec (.byteAt d) s = .next (respond .ok 0 0 [] s))

/-- SEGMENT answers the bytes from its distance on, one item a byte, clipped to the written data, and changes nothing
but LAST; a distance outside [-B, dictLen] is RANGE (40_dictionary.md R81). -/
def Obligations.SegmentReadsTheData : Prop :=
  ∀ (s : State) (d : Word64) (n : Word32) (c : Nat), ready s → c = min n.toNat (d.toInt + s.B).toNat →
    (-(s.B : Int) ≤ d.toInt → d.toInt ≤ (dictLen s : Int) → exec (.segment d n) s =
        .next (respond .ok c 0
          ((List.range c).map (fun i => (ringAt s (((s.H : Int) - d.toInt).toNat + i)).setWidth 64)) s))
      ∧ (¬ (-(s.B : Int) ≤ d.toInt ∧ d.toInt ≤ (dictLen s : Int)) →
          exec (.segment d n) s = .next (raiseFatal .range 0x12 s))

/-- A segment is the cells up to the ring's end, then the cells from 0 on (20_memory.md R48). -/
def Obligations.SegmentWrapsInTwoParts : Prop :=
  ∀ (s : State) (p n k : Nat), 0 < ringLen s → n ≤ ringLen s → k = min n (ringLen s - p % ringLen s) →
    ringSeg s p n = (List.range k).map (fun i => ringAt s (p % ringLen s + i))
        ++ (List.range (n - k)).map (fun i => ringAt s i)
      ∧ (∀ i < k, ringCell s (p % ringLen s + i) = p % ringLen s + i) ∧ (∀ i < n - k, ringCell s i = i)

/-- MATCHLEN answers how far the needle agrees with all the data from its distance to the end of the written bytes, and
changes nothing but LAST; a distance outside the window is RANGE (40_dictionary.md R82, R83). -/
def Obligations.MatchLenComparesTheData : Prop :=
  ∀ (s : State) (d : Word64) (needle : List Byte), ready s →
    (1 ≤ d.toInt → d.toInt ≤ (dictLen s : Int) → exec (.matchLen d needle) s =
        .next (respond .ok 0
          (BitVec.ofNat 64 (prefixLen needle (ringSeg s (s.H - d.toInt.toNat) (d.toInt.toNat + s.B)))) [] s))
      ∧ (¬ (1 ≤ d.toInt ∧ d.toInt ≤ (dictLen s : Int)) →
          exec (.matchLen d needle) s = .next (raiseFatal .range 0x13 s))

/-- The common length is the largest count of leading bytes that agree; it is symmetric, at most either length, and the
shorter length exactly when one is a prefix of the other (40_dictionary.md R83). -/
def Obligations.PrefixLenLaws : Prop :=
  ∀ a b : List Byte,
    prefixLen a b ≤ min a.length b.length
      ∧ (∀ m, m ≤ prefixLen a b ↔ m ≤ min a.length b.length ∧ ∀ i < m, a[i]? = b[i]?)
      ∧ prefixLen a b = prefixLen b a
      ∧ (prefixLen a b = min a.length b.length ↔ a <+: b ∨ b <+: a)

/-- DISCARD advances by what it is asked, or by what there is, and indexes nothing (40_dictionary.md R84, R85). -/
def Obligations.DiscardAdvances : Prop :=
  ∀ (s : State) (n : Word32) (m : Nat), ready s → m = min n.toNat s.B →
    exec (.discard n) s = .next { s with
      H := s.H + m, B := s.B - m, ahead := s.ahead - m, pend := s.pend - m, lastStatus := .ok
      responses := s.responses ++ [⟨.ok, BitVec.ofNat 64 m, 0, []⟩] }

/-- COPYN offers the last history bytes to the sink, oldest first, and changes nothing else; without room for all of them
it answers LIMIT and emits nothing (40_dictionary.md R86). -/
def Obligations.CopyNCopiesHistory : Prop :=
  ∀ (s : State) (n : Word32) (m : Nat) (st : Status), sinkReady s → s.coder.rcFresh = true →
    m = min n.toNat (dictLen s) → st = (if m < n.toNat then .noSpace else .ok) →
      (s.coder.sinkRem < m → exec (.copyN n) s = .next (respond .limit 0 0 [] s))
        ∧ (m = 0 → exec (.copyN n) s = .next (respond st 0 0 [] s))
        ∧ (∀ u us, m ≤ s.coder.sinkRem → s.coder.sinks = u :: us → exec (.copyN n) s =
            .next (respond st m 0 [] { s with coder := { s.coder with
              sinkRem := s.coder.sinkRem - m, outCount := s.coder.outCount + m
              sinks := (u ++ (List.range m).map (fun i => ringAt s (s.H - m + i))) :: us } }))

/-- The defined positions occupy distinct cells, each holding a written byte, and an index node each; the position whose
node a new one reuses has left the window (20_memory.md R46, 41_hash_index.md R99). -/
def Obligations.DefinedPositionsHaveTheirOwnCells : Prop :=
  ∀ (s : State) (p : Nat), Inv s → s.H - dictLen s ≤ p → p < s.H + s.B →
    (s.ring.read (ringCell s p)).isSome = true
      ∧ (∀ q, s.H - dictLen s ≤ q → q < s.H + s.B → q ≠ p →
          ringCell s q ≠ ringCell s p ∧ arenaNode s q ≠ arenaNode s p)
      ∧ 1 ≤ arenaNode s p ∧ arenaNode s p ≤ ringLen s
      ∧ (ringLen s ≤ p → p - ringLen s < s.H - dictLen s)

/-! ## Fingerprints, the index and the match finder -/

/-- HASH answers the fingerprint of every window of its payload, in order, and changes nothing but LAST; a word length
outside 2 to 4 is RANGE (41_hash_index.md R89). -/
def Obligations.HashFingerprintsEveryWindow : Prop :=
  ∀ (s : State) (k : Byte) (payload : List Byte), ready s →
    (k.toNat ∈ [2, 3, 4] → exec (.hash k payload) s =
        .next (respond .ok (payload.length + 1 - k.toNat) 0
          ((List.range (payload.length + 1 - k.toNat)).map
            (fun i => (fingerprint Config.hashTable ((payload.drop i).take k.toNat)).setWidth 64)) s))
      ∧ (k.toNat ∉ [2, 3, 4] → exec (.hash k payload) s = .next (raiseFatal .range 0x20 s))

/-- The fingerprint of 2, 3 and 4 bytes, and its rolling update over a window that moves by one byte (41_hash_index.md
R87, R88). -/
def Obligations.FingerprintsRoll : Prop :=
  ∀ T : HashTable,
    (∀ a b, fingerprint T [a, b] = rotl32 (T a) 1 ^^^ T b)
      ∧ (∀ a b c, fingerprint T [a, b, c] = rotl32 (T a) 2 ^^^ rotl32 (T b) 1 ^^^ T c)
      ∧ (∀ a b c d, fingerprint T [a, b, c, d] = rotl32 (T a) 3 ^^^ rotl32 (T b) 2 ^^^ rotl32 (T c) 1 ^^^ T d)
      ∧ (∀ (b : Byte) (w : List Byte) (c : Byte), 2 ≤ (b :: w).length → (b :: w).length ≤ 4 →
          fingerprint T (w ++ [c]) = rotl32 (fingerprint T (b :: w)) 1 ^^^ rotl32 (T b) (b :: w).length ^^^ T c)

/-- Insert(p) lists p under each word's key in every table whose word is fully written, keeps every other entry, and
moves IDX_BASE by the rebase rule alone (41_hash_index.md R91, R97). -/
def Obligations.InsertListsThePosition : Prop :=
  ∀ (T : HashTable) (s : State) (p n : Nat), n = s.cfg.wordLen.toNat → n ∈ [2, 3, 4] →
    (∀ k key, k ∈ [2, 3] → sparseGet ((insertPos T p s).index.single k) key =
        if k < n ∧ p + k ≤ s.H + s.B ∧ key = (fingerprint T (ringSeg s p k)).toNat then some p
        else sparseGet (s.index.single k) key)
      ∧ (∀ key, (insertPos T p s).index.chainAt key =
          if p + n ≤ s.H + s.B ∧ key = (fingerprint T (ringSeg s p n)).toNat then p :: s.index.chainAt key
          else s.index.chainAt key)
      ∧ (insertPos T p s).idxBase =
          (if (p : Int) - s.idxBase > 2 ^ 32 - 1 then (s.H : Int) - dictLen s - 1 else s.idxBase)
      ∧ insertPos T p s =
          { s with index := (insertPos T p s).index, idxBase := (insertPos T p s).idxBase }

/-- The chain lookup answers live positions listed under the key, most recent first, at most DEPTH of them, and leaves
out a live one only when it answers DEPTH others; a single lookup answers its entry if that is live (41_hash_index.md
R92, R93). -/
def Obligations.LookupsAnswerLivePositions : Prop :=
  ∀ (s : State) (key : Nat), Inv s →
    (getChain s key).Pairwise (fun p q => q < p) ∧ (getChain s key).length ≤ s.cfg.depth.toNat
      ∧ (∀ q ∈ getChain s key, q ∈ s.index.chainAt key ∧ 1 ≤ s.H - q ∧ s.H - q ≤ dictLen s)
      ∧ (∀ q ∈ s.index.chainAt key, q < s.H → s.H - q ≤ dictLen s →
          q ∈ getChain s key
            ∨ ((getChain s key).length = s.cfg.depth.toNat ∧ ∀ p ∈ getChain s key, q < p))
      ∧ (∀ k q, lookupSingle s k key = some q ↔
          sparseGet (s.index.single k) key = some q ∧ q < s.H ∧ s.H - q ≤ dictLen s)

/-- After the rebase of an insertion, the stored offset of the new position and of every live position lies in
[1, 2^32 - 1], and every entry a rebase would drop is dead (41_hash_index.md R96, R97, R98). -/
def Obligations.RebaseKeepsOffsetsInRange : Prop :=
  ∀ (T : HashTable) (s : State) (p : Nat), Inv s → s.H ≤ p → p < s.H + s.B →
    1 ≤ (p : Int) - (insertPos T p s).idxBase ∧ (p : Int) - (insertPos T p s).idxBase ≤ 2 ^ 32 - 1
      ∧ (∀ q, s.H - dictLen s ≤ q → q < s.H →
          1 ≤ (q : Int) - (insertPos T p s).idxBase ∧ (q : Int) - (insertPos T p s).idxBase ≤ 2 ^ 32 - 1)
      ∧ (∀ q : Nat, (q : Int) ≤ (insertPos T p s).idxBase → live s q = false)
      ∧ s.idxBase ≤ (insertPos T p s).idxBase

/-- FIND answers the search's list, packed, and indexes the head once (42_match_finder.md R104, 30_encoding.md R73); and
the list is that of R103 to R105, for every hash table: the candidates are those of the single-entry tables by increasing
word length, then those of the chain, most recent first; each is kept, with its common length, exactly when that is above
the best so far, which starts at 1; and none is looked at once the best reaches NICE_LEN or the needle's length. -/
def Obligations.FindAnswersTheSearch : Prop :=
  (∀ s : State, ready s →
    (s.ahead = 0 ∧ 0 < s.B → exec .find s =
        .next (respond .ok (findList Config.hashTable s).length 0
          ((findList Config.hashTable s).map (fun m => BitVec.ofNat 64 (m.2 * 2 ^ 32 + m.1)))
          { insertPos Config.hashTable s.H s with ahead := 1 }))
      ∧ (¬ (s.ahead = 0 ∧ 0 < s.B) → exec .find s =
          .next (respond .ok (findList Config.hashTable s).length 0
            ((findList Config.hashTable s).map (fun m => BitVec.ofNat 64 (m.2 * 2 ^ 32 + m.1))) s)))
    ∧ ∀ (T : HashTable) (s : State) (N : Nat) (w : List Byte) (len : Nat → Nat) (singles chain : List Nat)
        (consider1 : List (Nat × Nat) × Nat → Nat → List (Nat × Nat) × Nat),
      N = s.cfg.wordLen.toNat →
      w = (List.range (min s.B 273)).map (fun i => ringAt s (s.H + i)) →
      (∀ d, len d = prefixLen w (ringSeg s (s.H - d) (d + s.B))) →
      (∀ r d, consider1 r d =
        if s.cfg.niceLen.toNat ≤ r.2 ∨ w.length ≤ r.2 then r
        else if r.2 < len d then (r.1 ++ [(d, len d)], len d) else r) →
      singles = ((List.range (N - 2)).map (· + 2)).filterMap (fun k =>
        if k ≤ w.length then (lookupSingle s k (fingerprint T (w.take k)).toNat).map (fun q => s.H - q) else none) →
      chain = (if N ≤ w.length then (getChain s (fingerprint T (w.take N)).toNat).map (fun q => s.H - q) else []) →
        findList T s = ((singles ++ chain).foldl consider1 ([], 1)).1

/-- Every FIND result is a match of the data, in increasing length, within the bounds (42_match_finder.md R107). -/
def Obligations.FindResultsAreMatches : Prop :=
  ∀ (T : HashTable) (s : State), s.initDone = true → Inv s →
    (∀ m ∈ findList T s, 2 ≤ m.2 ∧ m.2 ≤ 273 ∧ m.2 ≤ s.B ∧ 1 ≤ m.1 ∧ m.1 ≤ dictLen s
        ∧ m.2 = matchLenAt s m.1 (needle s) ∧ (∀ i < m.2, ringAt s (s.H + i) = ringAt s (s.H - m.1 + i))
        ∧ m.1 < 2 ^ 32 ∧ m.2 < 2 ^ 32)
      ∧ (findList T s).Pairwise (fun m n => m.2 < n.2)
      ∧ (findList T s).length ≤ (s.cfg.wordLen.toNat - 2) + s.cfg.depth.toNat

/-- FIND's last result is at least as long as every candidate of the tables, unless it reaches NICE_LEN
(42_match_finder.md R104, R105). -/
def Obligations.FindMissesNoLongerMatch : Prop :=
  ∀ (T : HashTable) (s : State) (d best : Nat),
    best = (((findList T s).getLast?).map Prod.snd).getD 1 →
    ((∃ k, 2 ≤ k ∧ k < s.cfg.wordLen.toNat ∧ k ≤ s.B ∧
        (lookupSingle s k (fingerprint T ((needle s).take k)).toNat).map (fun q => s.H - q) = some d)
      ∨ (s.cfg.wordLen.toNat ≤ (needle s).length ∧
          ∃ q ∈ getChain s (fingerprint T ((needle s).take s.cfg.wordLen.toNat)).toNat, d = s.H - q)) →
      matchLenAt s d (needle s) ≤ best ∨ s.cfg.niceLen.toNat ≤ best

/-- A second FIND at the same head answers the result of the chain search alone, R104's with no single-entry candidate,
and changes nothing but LAST (42_match_finder.md R110). -/
def Obligations.RepeatedFindSearchesTheChainAlone : Prop :=
  ∀ (s : State) (N : Nat) (w : List Byte) (len : Nat → Nat) (chain : List Nat)
      (consider1 : List (Nat × Nat) × Nat → Nat → List (Nat × Nat) × Nat),
    ready s → s.ahead = 0 → 0 < s.B → N = s.cfg.wordLen.toNat →
    w = (List.range (min s.B 273)).map (fun i => ringAt s (s.H + i)) →
    (∀ d, len d = prefixLen w (ringSeg s (s.H - d) (d + s.B))) →
    (∀ r d, consider1 r d =
      if s.cfg.niceLen.toNat ≤ r.2 ∨ w.length ≤ r.2 then r
      else if r.2 < len d then (r.1 ++ [(d, len d)], len d) else r) →
    chain = (if N ≤ w.length then
      (getChain s (fingerprint Config.hashTable (w.take N)).toNat).map (fun q => s.H - q) else []) →
      ∃ (a : State) (res : List (Nat × Nat)), exec .find s = .next a
        ∧ res = (chain.foldl consider1 ([], 1)).1
        ∧ exec .find a = .next (respond .ok res.length 0
            (res.map (fun m => BitVec.ofNat 64 (m.2 * 2 ^ 32 + m.1))) a)

/-- SKIP inserts the positions not yet indexed, in order, then advances (42_match_finder.md R108). -/
def Obligations.SkipIndexesAndAdvances : Prop :=
  ∀ (s u : State) (n : Word32) (m : Nat), ready s → m = min n.toNat s.B →
    u = (List.range (m - s.ahead)).foldl (fun v i => insertPos Config.hashTable (s.H + s.ahead + i) v) s →
      exec (.skip n) s = .next { s with
        index := u.index, idxBase := u.idxBase
        H := s.H + m, B := s.B - m, ahead := s.ahead - m, pend := s.pend - m, lastStatus := .ok
        responses := s.responses ++ [⟨.ok, BitVec.ofNat 64 m, 0, []⟩] }

/-! ## The range coder and the sink -/

/-- EncBit narrows the interval by the cell's probability, exactly, moves that cell alone within [31, 2017], and then
normalises; a direct bit halves the range, exactly, touches no cell, and then normalises (43_range_coder.md R113,
R114). -/
def Obligations.OneDecisionNarrowsExactly : Prop :=
  ∀ (b : Bool) (c : Coder), CoderInv c →
    (∀ a p bound : Nat, p = (c.probs.read a).toNat → bound = c.rcRange.toNat / 2 ^ 11 * p →
      0 < bound ∧ bound < c.rcRange.toNat ∧ ∃ u : Coder, encBit a b c = normalize 4 u
        ∧ u.rcRange.toNat = (if b then c.rcRange.toNat - bound else bound)
        ∧ u.rcLow.toNat = (if b then c.rcLow.toNat + bound else c.rcLow.toNat)
        ∧ (u.probs.read a).toNat = (if b then p - p / 2 ^ 5 else p + (2048 - p) / 2 ^ 5)
        ∧ 31 ≤ (u.probs.read a).toNat ∧ (u.probs.read a).toNat ≤ 2017
        ∧ (∀ a', a' ≠ a → u.probs.read a' = c.probs.read a')
        ∧ u = { c with rcRange := u.rcRange, rcLow := u.rcLow, probs := u.probs, rcFresh := false })
      ∧ (∃ u : Coder, encDirectBit b c = normalize 4 u
        ∧ u.rcRange.toNat = c.rcRange.toNat / 2
        ∧ u.rcLow.toNat = (if b then c.rcLow.toNat + c.rcRange.toNat / 2 else c.rcLow.toNat)
        ∧ u = { c with rcRange := u.rcRange, rcLow := u.rcLow, rcFresh := false })

/-- Normalize runs ShiftLow until the range is at least 2^24, three times at most, and at most once from a range of 2^16
on; no bit of the range is lost (43_range_coder.md R116). -/
def Obligations.NormalizeReachesTop : Prop :=
  ∀ c : Coder, 0 < c.rcRange.toNat → ∃ k ≤ 3,
    normalize 4 c = (fun v : Coder => shiftLow { v with rcRange := v.rcRange <<< 8 })^[k] c
      ∧ (normalize 4 c).rcRange.toNat = c.rcRange.toNat * 256 ^ k
      ∧ 2 ^ 24 ≤ (normalize 4 c).rcRange.toNat
      ∧ (2 ^ 24 ≤ c.rcRange.toNat → k = 0) ∧ (2 ^ 16 ≤ c.rcRange.toNat → k ≤ 1)

/-- ShiftLow multiplies the number it holds back by 256 and hands its settled top bytes to the sink, high byte first, so
that nothing is lost; HEADROOM falls by exactly 1 (43_range_coder.md R115, 44_lzma_model.md R138). -/
def Obligations.ShiftLowConservesTheNumber : Prop :=
  ∀ (c : Coder) (u : List Byte) (us : List (List Byte)), 1 ≤ c.rcCacheSize → c.rcLow.toNat < 2 ^ 33 →
    heldValue c < 256 ^ c.rcCacheSize * 2 ^ 32 → c.rcCacheSize ≤ c.sinkRem → c.sinks = u :: us →
      ∃ bs : List Byte, (shiftLow c).sinks = (u ++ bs) :: us
        ∧ bytesToNat bs.reverse * 256 ^ (shiftLow c).rcCacheSize * 2 ^ 32 + heldValue (shiftLow c) = heldValue c * 256
        ∧ bs.length + (shiftLow c).rcCacheSize = c.rcCacheSize + 1
        ∧ (shiftLow c).rcLow.toNat = c.rcLow.toNat % 2 ^ 24 * 2 ^ 8
        ∧ headroom (shiftLow c) = headroom c - 1 ∧ (shiftLow c).sinkBroken = c.sinkBroken
        ∧ (shiftLow c).outCount = c.outCount + bs.length

/-- Coding decisions, whatever they are, keeps the range coder's invariant (10_state.md R42, 43_range_coder.md R112,
R115, R116). -/
def Obligations.CodingKeepsTheCoderInvariant : Prop :=
  ∀ (ds : List Decision) (c : Coder), CoderInv c → CoderInv (codeAll ds c)

/-- RC_FLUSH emits the number the coder holds back as exactly rcCacheSize + 4 bytes, high byte first, and leaves a fresh
coder; without room for them it answers LIMIT and emits nothing (43_range_coder.md R117, R122). -/
def Obligations.RcFlushEmitsTheHeldNumber : Prop :=
  ∀ (s : State) (c : Nat), sinkReady s → c = s.coder.rcCacheSize + 4 →
    (s.coder.sinkRem < c → exec .rcFlush s = .next (respond .limit 0 0 [] s))
      ∧ (∀ u us, CoderInv s.coder → c ≤ s.coder.sinkRem → s.coder.sinks = u :: us → exec .rcFlush s =
          .next (respond .ok c 0 [] { s with coder := { s.coder with
            rcLow := 0, rcRange := 0xFFFFFFFF#32, rcCache := 0, rcCacheSize := 1, rcFresh := true
            sinkRem := s.coder.sinkRem - c, outCount := s.coder.outCount + c
            sinks := (u ++ (natToBytes (heldValue s.coder) c).reverse) :: us } }))

/-- SINK_OPEN attaches a fresh sink and a fresh range coder and keeps the rest; a negative limit is RANGE
(43_range_coder.md R123). -/
def Obligations.SinkOpenStartsASink : Prop :=
  ∀ (s : State) (limit : Word64), ready s →
    (limit.toInt < 0 → exec (.sinkOpen limit) s = .next (raiseFatal .range 0x04 s))
      ∧ (0 ≤ limit.toInt → exec (.sinkOpen limit) s =
          .next (respond .ok 0 0 [] { s with coder := { s.coder with
            rcLow := 0, rcRange := 0xFFFFFFFF#32, rcCache := 0, rcCacheSize := 1, rcFresh := true
            sinkRem := limit.toInt.toNat, outCount := 0, sinkBroken := false, sinks := [] :: s.coder.sinks } }))

/-- A command adds to the newest sink's bytes and touches no other's; only SINK_OPEN starts a sink; the accounting counts
the bytes added (20_memory.md R56, 43_range_coder.md R118). -/
def Obligations.SinkBytesOnlyGrow : Prop :=
  ∀ (i : Instr) (s t : State) (u : List Byte) (us : List (List Byte)), exec i s = .next t →
    s.coder.sinks = u :: us →
      (i.opcode = 0x04#8 ∧ t.coder.sinks = [] :: u :: us)
        ∨ ∃ bs : List Byte, t.coder.sinks = (u ++ bs) :: us
            ∧ ((i = .init ∧ bs = []) ∨
                (t.coder.outCount = s.coder.outCount + bs.length ∧ t.coder.sinkRem + bs.length = s.coder.sinkRem))

/-! ## The LZMA model -/

/-- The encoder state's transition table, the class of it that each packet kind takes, and the repeat cache's moves
(44_lzma_model.md R125, R133, R136, 30_encoding.md R75). -/
def Obligations.TransitionsAndRepeats : Prop :=
  (List.range 12).map updLit = [0, 0, 0, 0, 1, 2, 3, 4, 5, 6, 4, 5]
    ∧ (List.range 12).map updMatch = [7, 7, 7, 7, 7, 7, 7, 10, 10, 10, 10, 10]
    ∧ (List.range 12).map updRep = [8, 8, 8, 8, 8, 8, 8, 11, 11, 11, 11, 11]
    ∧ (List.range 12).map updShortRep = [9, 9, 9, 9, 9, 9, 9, 11, 11, 11, 11, 11]
    ∧ (∀ (st : Nat) (d0 : Word32) (x : Byte) (len : Nat) (g : Fin 4),
        lzAfter (.lit x) st = updLit st ∧ lzAfter (.simpleMatch d0 len) st = updMatch st
          ∧ lzAfter (.longRep g len) st = updRep st ∧ lzAfter .shortRep st = updShortRep st
          ∧ lzAfter .eos st = updMatch st)
    ∧ (∀ (r : Reps) (d0 : Word32) (x : Byte) (len : Nat),
        repAfter (.simpleMatch d0 len) r = ⟨d0, r.r0, r.r1, r.r2⟩ ∧ repAfter .eos r = ⟨0xFFFFFFFF#32, r.r0, r.r1, r.r2⟩
          ∧ repAfter (.longRep 1 len) r = ⟨r.r1, r.r0, r.r2, r.r3⟩
          ∧ repAfter (.longRep 2 len) r = ⟨r.r2, r.r0, r.r1, r.r3⟩
          ∧ repAfter (.longRep 3 len) r = ⟨r.r3, r.r0, r.r1, r.r2⟩
          ∧ repAfter (.longRep 0 len) r = r ∧ repAfter .shortRep r = r ∧ repAfter (.lit x) r = r)

/-- A distance's slot, and where the distance lies within it (44_lzma_model.md R130, R131). -/
def Obligations.DistanceSlots : Prop :=
  ∀ d0 : Nat, d0 < 2 ^ 32 →
    distSlot d0 < 64
      ∧ (d0 < 4 → distSlot d0 = d0)
      ∧ (4 ≤ d0 → ∃ n b : Nat, 2 ^ n ≤ d0 ∧ d0 < 2 ^ (n + 1) ∧ b = d0 / 2 ^ (n - 1) % 2 ∧ distSlot d0 = 2 * n + b
          ∧ slotFooterBits (distSlot d0) = n - 1 ∧ slotBase (distSlot d0) = (2 + b) * 2 ^ (n - 1)
          ∧ slotBase (distSlot d0) ≤ d0
          ∧ d0 < slotBase (distSlot d0) + 2 ^ slotFooterBits (distSlot d0))

/-- Every cell a packet is coded with lies in its array's shape, and no two cells of the bank share an address
(10_state.md R31, 44_lzma_model.md R126, R127). -/
def Obligations.PacketCellsLieInTheBank : Prop :=
  (∀ (s : State) (p : Packet) (cell : ProbCell) (b : Bool), Inv s → s.initDone = true → p.wf = true →
      .adaptive cell b ∈ packetDecisions (contextOf s) p →
        cell.inShape (2 ^ (s.cfg.lc.toNat + s.cfg.lp.toNat)) = true)
    ∧ (∀ (lits : Nat) (c c' : ProbCell), c.inShape lits = true → c'.inShape lits = true → c.addr = c'.addr → c = c')

/-- ENC_LIT codes the head byte as a literal packet, moves lzState and sets PEND, and changes nothing else; without a
look-ahead byte it is RANGE, without headroom LIMIT (44_lzma_model.md R134). -/
def Obligations.EncLitCodesTheHead : Prop :=
  ∀ (s : State) (need : Int) (c : Coder), encodeReady s →
    need = s.cfg.opMargin.toNat + (if s.cfg.eos.toNat = 1 then (s.cfg.eosMargin.toNat : Int) else 0) →
    c = codeAll (packetDecisions (contextOf s) (.lit (ringAt s s.H))) s.coder →
      (s.B < 1 → exec .encLit s = .next (raiseFatal .range 0x30 s))
        ∧ (1 ≤ s.B → headroom s.coder < need → exec .encLit s = .next (respond .limit 0 0 [] s))
        ∧ (1 ≤ s.B → need ≤ headroom s.coder → exec .encLit s =
            .next (respond (if c.sinkBroken then .sinkOverflow else .ok) 1 0 []
              { s with coder := c, lzState := BitVec.ofNat 8 (updLit s.lzState.toNat), pend := 1 }))

/-- ENC_MATCH checks that its operands name a match of the format, in the window, within the look-ahead, whose bytes
repeat; then it codes the packet that the repeat cache selects, and sets PEND (44_lzma_model.md R133, R135). -/
def Obligations.EncMatchCodesTheMatch : Prop :=
  ∀ (s : State) (dw : Word64) (lw : Word32) (d : Int) (len : Nat) (d0 : Word32) (need : Int) (ok : Prop) (p : Packet)
    (c : Coder), encodeReady s → d = dw.toInt → len = lw.toNat → (d0.toNat : Int) = (d - 1) % 2 ^ 32 →
    need = s.cfg.opMargin.toNat + (if s.cfg.eos.toNat = 1 then (s.cfg.eosMargin.toNat : Int) else 0) →
    (ok ↔ ((1 ≤ d ∧ d ≤ 2 ^ 32 - 1 ∧ 2 ≤ len ∧ len ≤ 273) ∨ (len = 1 ∧ d - 1 = s.rep.r0.toNat))
      ∧ d ≤ dictLen s ∧ len ≤ s.B ∧ ∀ i < len, ringAt s (s.H + i) = ringAt s (s.H - d.toNat + i)) →
    p = (if s.rep.r0 = d0 then (if len = 1 then .shortRep else .longRep 0 len)
      else if s.rep.r1 = d0 then .longRep 1 len
      else if s.rep.r2 = d0 then .longRep 2 len
      else if s.rep.r3 = d0 then .longRep 3 len
      else .simpleMatch d0 len) →
    c = codeAll (packetDecisions (contextOf s) p) s.coder →
      (¬ ok → exec (.encMatch dw lw) s = .next (raiseFatal .range 0x31 s))
        ∧ (ok → headroom s.coder < need → exec (.encMatch dw lw) s = .next (respond .limit 0 0 [] s))
        ∧ (ok → need ≤ headroom s.coder → exec (.encMatch dw lw) s =
            .next (respond (if c.sinkBroken then .sinkOverflow else .ok) len 0 []
              { s with
                coder := c, lzState := BitVec.ofNat 8 (lzAfter p s.lzState.toNat), rep := repAfter p s.rep
                pend := len }))

/-- ENC_EOS codes the end marker under the EOS margin alone and consumes nothing (44_lzma_model.md R137). -/
def Obligations.EncEosCodesTheMarker : Prop :=
  ∀ (s : State) (c : Coder), encodeReady s → c = codeAll (packetDecisions (contextOf s) .eos) s.coder →
    (headroom s.coder < s.cfg.eosMargin.toNat → exec .encEos s = .next (respond .limit 0 0 [] s))
      ∧ ((s.cfg.eosMargin.toNat : Int) ≤ headroom s.coder → exec .encEos s =
          .next (respond (if c.sinkBroken then .sinkOverflow else .ok) 0 0 []
            { s with
              coder := c, lzState := BitVec.ofNat 8 (updMatch s.lzState.toNat)
              rep := ⟨0xFFFFFFFF#32, s.rep.r0, s.rep.r1, s.rep.r2⟩ }))

/-- Each packet row, PKT_LIT, PKT_MATCH, PKT_SHORTREP, PKT_LONGREP0 to PKT_LONGREP3 and PKT_EOS, codes its prefix and
its fields in the contexts of the head, moves lzState by its class and the repeat cache by its kind, and changes nothing
else (30_encoding.md R75, 44_lzma_model.md R125, R126, R127, R133, R136). -/
def Obligations.PacketRowsCodeOnePacket : Prop :=
  ∀ (i : Instr) (p : Packet) (s : State) (k : Context) (prev : Byte), i.packet? = some p → k = contextOf s →
    prev = (if 1 ≤ dictLen s then ringAt s (s.H - 1) else 0) →
    exec i s = .next { s with
        coder := codeAll (packetDecisions k p) s.coder, lzState := BitVec.ofNat 8 (lzAfter p s.lzState.toNat)
        rep := repAfter p s.rep }
      ∧ (packetDecisions k p).head? = some (.adaptive (.isMatch k.st k.ps) (packetHead p)[0]!)
      ∧ (packetHead p).isPrefixOf ((packetDecisions k p).map Decision.bit)
      ∧ k.st = s.lzState.toNat ∧ k.ps = s.H &&& (2 ^ s.cfg.pb.toNat - 1)
      ∧ k.litState = (s.H &&& (2 ^ s.cfg.lp.toNat - 1)) <<< s.cfg.lc.toNat ||| prev.toNat >>> (8 - s.cfg.lc.toNat)
      ∧ k.matchByte = (if 7 ≤ s.lzState.toNat then
          some (if s.rep.r0.toNat + 1 ≤ dictLen s then ringAt s (s.H - (s.rep.r0.toNat + 1)) else 0) else none)

/-- With margins of at least 20 and 16 no command breaks the sink, and an operation coded by ENC_LIT or ENC_MATCH leaves
room for the end marker, where the session asks for one, and for the flush (44_lzma_model.md R138, 60_exceptions.md
R157). -/
def Obligations.SafeMarginsNeverOverflow : Prop :=
  ∀ (i : Instr) (s t : State), Inv s → i.isCommand = true → 20 ≤ s.cfg.opMargin.toNat → 16 ≤ s.cfg.eosMargin.toNat →
    s.coder.sinkBroken = false → exec i s = .next t →
      t.coder.sinkBroken = false
        ∧ (i.opcode.toNat ∈ [0x30, 0x31] → t.lastStatus = .ok →
            (if s.cfg.eos.toNat = 1 then (s.cfg.eosMargin.toNat : Int) else 0) ≤ headroom t.coder)

/-! ## The compress loop and close -/

/-- COMPRESS runs turn after turn, each coding the operation that `chooseOp` takes, until its loop condition fails, the
margin check fails, or the sink breaks, and answers the operations coded and the bytes consumed (45_control.md R143, R144).
That operation is POLICY's answer where R143 admits it; that the last item of FIND's list, or a literal, stands for any
other answer is the model's choice (log 2), and `k ≤ s.B` rests on it. -/
def Obligations.CompressRunsTurns : Prop :=
  ∀ (s : State) (all : Bool) (maxOps : Word32) (turn : State → State) (goes : Nat → State → Prop), encodeReady s →
    (∀ v, turn v =
      (chooseOp Config.policy (findList Config.hashTable v) (indexHead Config.hashTable v)).elim
        (skipBody Config.hashTable 1 (encLitCore (indexHead Config.hashTable v)))
        (fun m => skipBody Config.hashTable m.2 (encMatchCore m.1 m.2 (indexHead Config.hashTable v)))) →
    (∀ n v, goes n v ↔ (if all then 1 else 273) ≤ v.B ∧ (maxOps.toNat = 0 ∨ n < maxOps.toNat)) →
      ∃ (k : Nat) (st : Status), k ≤ s.B
        ∧ exec (.compress all maxOps) s =
            .next (respond st k (BitVec.ofNat 64 ((turn^[k] s).H - s.H)) [] (turn^[k] s))
        ∧ (∀ j < k, goes j (turn^[j] s) ∧ marginOk (turn^[j] s) = true ∧ (turn^[j] s).coder.sinkBroken = false)
        ∧ ((st = .ok ∧ ¬ goes k (turn^[k] s) ∧ (turn^[k] s).coder.sinkBroken = false)
          ∨ (st = .limit ∧ goes k (turn^[k] s) ∧ marginOk (turn^[k] s) = false
              ∧ (turn^[k] s).coder.sinkBroken = false)
          ∨ (st = .sinkOverflow ∧ 0 < k ∧ (turn^[k] s).coder.sinkBroken = true))

/-- COMPRESS by one operation is what the host's own STEP does: FIND, then ENC_LIT or ENC_MATCH as POLICY chooses from
FIND's list, then SKIP of the bytes coded; the states differ in LAST and the responses alone (45_control.md R143, R144,
60_exceptions.md R167, 30_encoding.md R74). POLICY's answer counts when it is a literal or a match that ENC_MATCH would
accept, and the last item of the list stands for any other: that last clause is the model's choice (log 2), and that the
encode never answers RANGE rests on it. -/
def Obligations.CompressTurnIsHostStep : Prop :=
  ∀ (s : State) (res : List (Nat × Nat)) (choice : Option (Nat × Nat)) (valid : Nat × Nat → Prop), Inv s →
    encodeReady s → 1 ≤ s.B → marginOk s = true → res = findList Config.hashTable s →
    choice = chooseOp Config.policy res (indexHead Config.hashTable s) →
    (∀ m, valid m ↔
      ((1 ≤ m.1 ∧ m.1 ≤ 2 ^ 32 - 1 ∧ 2 ≤ m.2 ∧ m.2 ≤ 273) ∨ (m.2 = 1 ∧ m.1 = s.rep.r0.toNat + 1))
      ∧ m.1 ≤ dictLen s ∧ m.2 ≤ s.B ∧ ∀ i < m.2, ringAt s (s.H + i) = ringAt s (s.H - m.1 + i)) →
    (Config.policy res = none → choice = none)
      ∧ (∀ m, Config.policy res = some m → (valid m → choice = some m) ∧ (¬ valid m → choice = res.getLast?))
      ∧ ∃ (a b c t : State) (op : Instr) (len : Word32), exec .find s = .next a
      ∧ (choice = none → op = .encLit ∧ len = 1)
      ∧ (∀ m, choice = some m → op = .encMatch (BitVec.ofNat 64 m.1) len ∧ len.toNat = m.2)
      ∧ exec op a = .next b ∧ (b.lastStatus = .ok ∨ b.lastStatus = .sinkOverflow)
      ∧ b.pend = len.toNat ∧ exec (.skip len) b = .next c
      ∧ exec (.compress true 1) s = .next t ∧ withoutTalk t = withoutTalk c
      ∧ c.pend = 0 ∧ t.H = s.H + len.toNat
      ∧ t.responses = s.responses ++ [⟨b.lastStatus, 1, len.setWidth 64, []⟩]

/-- CLOSE is COMPRESS of everything, then, unless that overflowed the sink, ENC_EOS where the session asks for a marker
and RC_FLUSH; the states differ in LAST and the responses alone, and the status is the worst of theirs
(45_control.md R145). -/
def Obligations.CloseIsHostSequence : Prop :=
  ∀ s : State, encodeReady s →
    ∃ (c e f t : State) (rc : Response) (st : Status), exec (.compress true 0) s = .next c
      ∧ c.responses = s.responses ++ [rc]
      ∧ (c.cfg.eos.toNat = 1 → exec .encEos c = .next e) ∧ (c.cfg.eos.toNat ≠ 1 → e = { c with lastStatus := .ok })
      ∧ exec .rcFlush e = .next f
      ∧ exec .close s = .next t ∧ t.responses = s.responses ++ [⟨st, rc.count, rc.value, []⟩] ∧ t.lastStatus = st
      ∧ (rc.status = .sinkOverflow → withoutTalk t = withoutTalk c ∧ st = .sinkOverflow)
      ∧ (rc.status ≠ .sinkOverflow → withoutTalk t = withoutTalk f
          ∧ st = (if t.coder.sinkBroken then .sinkOverflow
              else if rc.status = .limit ∨ e.lastStatus = .limit ∨ f.lastStatus = .limit then .limit else .ok))

/-! ## Whole-machine rules -/

/-- The invariant of the machine holds right after hardware reset (10_state.md R42, R44). -/
def Obligations.InvariantAtReset : Prop :=
  Inv State.reset

/-- Every step, and every instruction, keeps the invariant of the machine (10_state.md R42). -/
def Obligations.InvariantKeptByEveryStep : Prop :=
  (∀ s t : State, Inv s → step s = .next t → Inv t)
    ∧ (∀ (i : Instr) (s t : State), Inv s → exec i s = .next t → Inv t)

/-- Which instructions may write what: the active configuration (10_state.md R19), the pending one (R18), the ring
(20_memory.md R61), the head and the look-ahead (10_state.md R22, R23), the index (R36) and the model (R30, R31). -/
def Obligations.EachStateHasItsWriters : Prop :=
  ∀ (i : Instr) (s t : State), exec i s = .next t →
    (i.opcode ≠ 0x01#8 → t.cfg = s.cfg ∧ t.initDone = s.initDone)
      ∧ (i.opcode ≠ 0x03#8 → t.cfgPending = s.cfgPending)
      ∧ (i.opcode.toNat ∉ [0x01, 0x10] → t.ring = s.ring ∧ t.H + t.B = s.H + s.B ∧ s.H ≤ t.H)
      ∧ (i.opcode.toNat ∉ [0x01, 0x14, 0x22, 0x40, 0x41] → t.H = s.H ∧ s.B ≤ t.B ∧ (t.ahead = s.ahead ∨ i = .find))
      ∧ (i.opcode.toNat ∉ [0x01, 0x21, 0x22, 0x40, 0x41] → t.index = s.index ∧ t.idxBase = s.idxBase)
      ∧ (i.opcode.toNat ∉ [0x01, 0x30, 0x31, 0x32, 0x40, 0x41] → i.isCommand = true →
          t.lzState = s.lzState ∧ t.rep = s.rep ∧ t.coder.probs = s.coder.probs)
      ∧ (i.opcode.toNat ∉ [0x01, 0x04, 0x15, 0x30, 0x31, 0x32, 0x33, 0x40, 0x41] → i.isCommand = true →
          t.coder = s.coder)
end

