-- ==== Sys2Proof/Laws/Sparse.lean ====
section
/-! SUPPORT. Reads after writes on sparse storage, and that every operation keeps the canonical form. -/

namespace Sys2Proof.Machine

variable {α : Type}

/-! ## Reads after writes -/

@[simp] theorem sparseGet_sparseSet_same (m : List (Nat × α)) (a : Nat) (v : α) :
    sparseGet (sparseSet m a v) a = some v := by
  induction m with
  | nil => simp [sparseSet, sparseGet]
  | cons e rest ih =>
    obtain ⟨k, w⟩ := e
    simp only [sparseSet]
    split
    · simp [sparseGet]
    · split
      · simp [sparseGet]
      · simp only [sparseGet, ih]
        split
        · omega
        · rfl

theorem sparseGet_sparseSet_other (m : List (Nat × α)) {a b : Nat} (v : α) (h : b ≠ a) :
    sparseGet (sparseSet m a v) b = sparseGet m b := by
  induction m with
  | nil => simp [sparseSet, sparseGet, h.symm]
  | cons e rest ih =>
    obtain ⟨k, w⟩ := e
    simp only [sparseSet]
    split
    · simp [sparseGet, h.symm]
    · split
      · subst_vars; simp [sparseGet, h.symm]
      · simp only [sparseGet, ih]

@[simp] theorem sparseGet_sparseErase_same (m : List (Nat × α)) (a : Nat) : sparseGet (sparseErase m a) a = none := by
  induction m with
  | nil => rfl
  | cons e rest ih =>
    obtain ⟨k, w⟩ := e
    simp only [sparseErase]
    split
    · exact ih
    · simp_all [sparseGet]

theorem sparseGet_sparseErase_other (m : List (Nat × α)) {a b : Nat} (h : b ≠ a) :
    sparseGet (sparseErase m a) b = sparseGet m b := by
  induction m with
  | nil => rfl
  | cons e rest ih =>
    obtain ⟨k, w⟩ := e
    simp only [sparseErase, sparseGet]
    split
    · rw [ih, if_neg (by omega)]
    · simp only [sparseGet, ih]

/-! ## The canonical form -/

theorem sparseAbove_weaken {lo lo' : Nat} {m : List (Nat × α)} (h : lo' ≤ lo) (hm : sparseAbove lo m = true) :
    sparseAbove lo' m = true := by
  cases m with
  | nil => rfl
  | cons e rest => simp only [sparseAbove, Bool.and_eq_true, decide_eq_true_eq] at hm ⊢; exact ⟨by omega, hm.2⟩

theorem sparseAbove_sparseSet {lo a : Nat} (v : α) {m : List (Nat × α)} (ha : lo < a)
    (hm : sparseAbove lo m = true) : sparseAbove lo (sparseSet m a v) = true := by
  induction m generalizing lo with
  | nil => simp [sparseSet, sparseAbove, ha]
  | cons e rest ih =>
    obtain ⟨k, w⟩ := e
    simp only [sparseAbove, Bool.and_eq_true, decide_eq_true_eq] at hm
    simp only [sparseSet]
    split
    · simp_all [sparseAbove]
    · split
      · subst_vars; simp_all [sparseAbove]
      · simp only [sparseAbove, Bool.and_eq_true, decide_eq_true_eq]
        exact ⟨hm.1, ih (by omega) hm.2⟩

theorem sparseSorted_sparseSet (a : Nat) (v : α) {m : List (Nat × α)} (hm : sparseSorted m = true) :
    sparseSorted (sparseSet m a v) = true := by
  cases m with
  | nil => rfl
  | cons e rest =>
    obtain ⟨k, w⟩ := e
    simp only [sparseSorted] at hm
    simp only [sparseSet]
    split
    · simp_all [sparseSorted, sparseAbove]
    · split
      · subst_vars; exact hm
      · exact sparseAbove_sparseSet v (by omega) hm

theorem sparseAbove_sparseErase {lo : Nat} (a : Nat) {m : List (Nat × α)} (hm : sparseAbove lo m = true) :
    sparseAbove lo (sparseErase m a) = true := by
  induction m generalizing lo with
  | nil => rfl
  | cons e rest ih =>
    obtain ⟨k, w⟩ := e
    simp only [sparseAbove, Bool.and_eq_true, decide_eq_true_eq] at hm
    simp only [sparseErase]
    split
    · exact ih (sparseAbove_weaken (by omega) hm.2)
    · simp only [sparseAbove, Bool.and_eq_true, decide_eq_true_eq]; exact ⟨hm.1, ih hm.2⟩

theorem sparseSorted_sparseErase (a : Nat) {m : List (Nat × α)} (hm : sparseSorted m = true) :
    sparseSorted (sparseErase m a) = true := by
  induction m with
  | nil => rfl
  | cons e rest ih =>
    obtain ⟨k, w⟩ := e
    simp only [sparseErase]
    split
    · refine ih ?_
      cases rest with
      | nil => rfl
      | cons e' rest' => simp only [sparseSorted, sparseAbove, Bool.and_eq_true] at hm ⊢; exact hm.2
    · exact sparseAbove_sparseErase a hm

theorem mem_sparseSet {m : List (Nat × α)} {a : Nat} {v : α} {e : Nat × α} (h : e ∈ sparseSet m a v) :
    e = (a, v) ∨ e ∈ m := by
  induction m with
  | nil => simpa [sparseSet] using h
  | cons e' rest ih =>
    obtain ⟨k, w⟩ := e'
    simp only [sparseSet] at h
    split at h
    · simpa using h
    · split at h
      · simp only [List.mem_cons] at h ⊢; tauto
      · simp only [List.mem_cons] at h ⊢
        rcases h with h | h
        · tauto
        · rcases ih h with h | h <;> tauto

theorem mem_sparseErase {m : List (Nat × α)} {a : Nat} {e : Nat × α} (h : e ∈ sparseErase m a) : e ∈ m := by
  induction m with
  | nil => simp [sparseErase] at h
  | cons e' rest ih =>
    obtain ⟨k, w⟩ := e'
    simp only [sparseErase] at h
    split at h
    · exact List.mem_cons_of_mem _ (ih h)
    · simp only [List.mem_cons] at h ⊢
      rcases h with h | h
      · exact .inl h
      · exact .inr (ih h)

theorem sparseGet_mem {m : List (Nat × α)} {a : Nat} {v : α} (h : sparseGet m a = some v) : (a, v) ∈ m := by
  induction m with
  | nil => simp [sparseGet] at h
  | cons e rest ih =>
    obtain ⟨k, w⟩ := e
    simp only [sparseGet] at h
    split at h
    · simp_all
    · exact List.mem_cons_of_mem _ (ih h)

/-! ## The ring -/

@[simp] theorem Memory.read_write_same (m : Memory) (a : Nat) (b : Byte) : (m.write a b).read a = some b :=
  sparseGet_sparseSet_same m a b

theorem Memory.read_write_other (m : Memory) {a a' : Nat} (b : Byte) (h : a' ≠ a) :
    (m.write a b).read a' = m.read a' :=
  sparseGet_sparseSet_other m b h

theorem Memory.wf_write (a : Nat) (b : Byte) {m : Memory} (h : m.wf = true) : (m.write a b).wf = true :=
  sparseSorted_sparseSet a b h

theorem ringWriteAll_wf (len : Nat) (bs : List Byte) {m : Memory} {p : Nat} (h : m.wf = true) :
    (ringWriteAll len m p bs).wf = true := by
  induction bs generalizing m p with
  | nil => exact h
  | cons b bs ih => exact ih (Memory.wf_write _ b h)

/-- A cell that no written position falls in reads as before. -/
theorem ringWriteAll_read_other (len : Nat) (bs : List Byte) (m : Memory) (p cell : Nat)
    (h : ∀ i < bs.length, (p + i) % len ≠ cell) : (ringWriteAll len m p bs).read cell = m.read cell := by
  induction bs generalizing m p with
  | nil => rfl
  | cons b bs ih =>
    rw [ringWriteAll, ih]
    · exact Memory.read_write_other _ _ (fun e => h 0 (by simp) (by simpa using e.symm))
    · intro i hi
      have := h (i + 1) (by simpa using hi)
      rwa [show p + (i + 1) = p + 1 + i by omega] at this

theorem reset_ring_wf : State.reset.ring.wf = true := rfl

/-! ## The probability bank -/

@[simp] theorem Bank.read_write_same (m : Bank) (a : Nat) (p : Prob) : (m.write a p).read a = p := by
  unfold Bank.write Bank.read
  split <;> simp_all

theorem Bank.read_write_other (m : Bank) {a b : Nat} (p : Prob) (h : b ≠ a) :
    (m.write a p).read b = m.read b := by
  unfold Bank.write Bank.read
  split
  · rw [sparseGet_sparseErase_other _ h]
  · rw [sparseGet_sparseSet_other _ _ h]

theorem Bank.wf_write (a : Nat) (p : Prob) {m : Bank} (h : m.wf = true) : (m.write a p).wf = true := by
  unfold Bank.wf at h ⊢
  simp only [Bool.and_eq_true, List.all_eq_true] at h ⊢
  unfold Bank.write
  split
  · exact ⟨sparseSorted_sparseErase _ h.1, fun e he => h.2 e (mem_sparseErase he)⟩
  · refine ⟨sparseSorted_sparseSet _ _ h.1, fun e he => ?_⟩
    rcases mem_sparseSet he with rfl | he
    · simpa using ‹¬p = Config.probInit›
    · exact h.2 e he

theorem reset_probs_wf : State.reset.coder.probs.wf = true := rfl

end Sys2Proof.Machine
end

