-- ==== Sys2Proof/Laws/State.lean ====
section
/-! SUPPORT. One lemma per field per update of the state and of the coder, so that no later proof unfolds a record
update. -/

namespace Sys2Proof.Machine

variable (s : State) (c : Coder)

/-! ## Advance (40_dictionary.md R84) -/

@[simp] theorem advance_cfgPending (m : Nat) : (advance m s).cfgPending = s.cfgPending := rfl
@[simp] theorem advance_cfg (m : Nat) : (advance m s).cfg = s.cfg := rfl
@[simp] theorem advance_initDone (m : Nat) : (advance m s).initDone = s.initDone := rfl
@[simp] theorem advance_faulted (m : Nat) : (advance m s).faulted = s.faulted := rfl
@[simp] theorem advance_faultCode (m : Nat) : (advance m s).faultCode = s.faultCode := rfl
@[simp] theorem advance_faultOpc (m : Nat) : (advance m s).faultOpc = s.faultOpc := rfl
@[simp] theorem advance_lastStatus (m : Nat) : (advance m s).lastStatus = s.lastStatus := rfl
@[simp] theorem advance_ring (m : Nat) : (advance m s).ring = s.ring := rfl
@[simp] theorem advance_H (m : Nat) : (advance m s).H = s.H + m := rfl
@[simp] theorem advance_B (m : Nat) : (advance m s).B = s.B - m := rfl
@[simp] theorem advance_ahead (m : Nat) : (advance m s).ahead = s.ahead - m := rfl
@[simp] theorem advance_pend (m : Nat) : (advance m s).pend = s.pend - m := rfl
@[simp] theorem advance_index (m : Nat) : (advance m s).index = s.index := rfl
@[simp] theorem advance_idxBase (m : Nat) : (advance m s).idxBase = s.idxBase := rfl
@[simp] theorem advance_lzState (m : Nat) : (advance m s).lzState = s.lzState := rfl
@[simp] theorem advance_rep (m : Nat) : (advance m s).rep = s.rep := rfl
@[simp] theorem advance_coder (m : Nat) : (advance m s).coder = s.coder := rfl
@[simp] theorem advance_inbox (m : Nat) : (advance m s).inbox = s.inbox := rfl
@[simp] theorem advance_responses (m : Nat) : (advance m s).responses = s.responses := rfl

/-! ## A response that leaves LAST -/

@[simp] theorem respondQuietly_cfgPending (st : Status) (n : Nat) (v : Word64) (it : List Word64) : (respondQuietly st n v it s).cfgPending = s.cfgPending :=
  rfl
@[simp] theorem respondQuietly_cfg (st : Status) (n : Nat) (v : Word64) (it : List Word64) : (respondQuietly st n v it s).cfg = s.cfg :=
  rfl
@[simp] theorem respondQuietly_initDone (st : Status) (n : Nat) (v : Word64) (it : List Word64) : (respondQuietly st n v it s).initDone = s.initDone :=
  rfl
@[simp] theorem respondQuietly_faulted (st : Status) (n : Nat) (v : Word64) (it : List Word64) : (respondQuietly st n v it s).faulted = s.faulted :=
  rfl
@[simp] theorem respondQuietly_faultCode (st : Status) (n : Nat) (v : Word64) (it : List Word64) : (respondQuietly st n v it s).faultCode = s.faultCode :=
  rfl
@[simp] theorem respondQuietly_faultOpc (st : Status) (n : Nat) (v : Word64) (it : List Word64) : (respondQuietly st n v it s).faultOpc = s.faultOpc :=
  rfl
@[simp] theorem respondQuietly_lastStatus (st : Status) (n : Nat) (v : Word64) (it : List Word64) : (respondQuietly st n v it s).lastStatus = s.lastStatus :=
  rfl
@[simp] theorem respondQuietly_ring (st : Status) (n : Nat) (v : Word64) (it : List Word64) : (respondQuietly st n v it s).ring = s.ring :=
  rfl
@[simp] theorem respondQuietly_H (st : Status) (n : Nat) (v : Word64) (it : List Word64) : (respondQuietly st n v it s).H = s.H :=
  rfl
@[simp] theorem respondQuietly_B (st : Status) (n : Nat) (v : Word64) (it : List Word64) : (respondQuietly st n v it s).B = s.B :=
  rfl
@[simp] theorem respondQuietly_ahead (st : Status) (n : Nat) (v : Word64) (it : List Word64) : (respondQuietly st n v it s).ahead = s.ahead :=
  rfl
@[simp] theorem respondQuietly_pend (st : Status) (n : Nat) (v : Word64) (it : List Word64) : (respondQuietly st n v it s).pend = s.pend :=
  rfl
@[simp] theorem respondQuietly_index (st : Status) (n : Nat) (v : Word64) (it : List Word64) : (respondQuietly st n v it s).index = s.index :=
  rfl
@[simp] theorem respondQuietly_idxBase (st : Status) (n : Nat) (v : Word64) (it : List Word64) : (respondQuietly st n v it s).idxBase = s.idxBase :=
  rfl
@[simp] theorem respondQuietly_lzState (st : Status) (n : Nat) (v : Word64) (it : List Word64) : (respondQuietly st n v it s).lzState = s.lzState :=
  rfl
@[simp] theorem respondQuietly_rep (st : Status) (n : Nat) (v : Word64) (it : List Word64) : (respondQuietly st n v it s).rep = s.rep :=
  rfl
@[simp] theorem respondQuietly_coder (st : Status) (n : Nat) (v : Word64) (it : List Word64) : (respondQuietly st n v it s).coder = s.coder :=
  rfl
@[simp] theorem respondQuietly_inbox (st : Status) (n : Nat) (v : Word64) (it : List Word64) : (respondQuietly st n v it s).inbox = s.inbox :=
  rfl
@[simp] theorem respondQuietly_responses (st : Status) (n : Nat) (v : Word64) (it : List Word64) : (respondQuietly st n v it s).responses = s.responses ++ [⟨st, BitVec.ofNat 64 n, v, it⟩] :=
  rfl

/-! ## A response (30_encoding.md R72) -/

@[simp] theorem respond_cfgPending (st : Status) (n : Nat) (v : Word64) (it : List Word64) : (respond st n v it s).cfgPending = s.cfgPending :=
  rfl
@[simp] theorem respond_cfg (st : Status) (n : Nat) (v : Word64) (it : List Word64) : (respond st n v it s).cfg = s.cfg :=
  rfl
@[simp] theorem respond_initDone (st : Status) (n : Nat) (v : Word64) (it : List Word64) : (respond st n v it s).initDone = s.initDone :=
  rfl
@[simp] theorem respond_faulted (st : Status) (n : Nat) (v : Word64) (it : List Word64) : (respond st n v it s).faulted = s.faulted :=
  rfl
@[simp] theorem respond_faultCode (st : Status) (n : Nat) (v : Word64) (it : List Word64) : (respond st n v it s).faultCode = s.faultCode :=
  rfl
@[simp] theorem respond_faultOpc (st : Status) (n : Nat) (v : Word64) (it : List Word64) : (respond st n v it s).faultOpc = s.faultOpc :=
  rfl
@[simp] theorem respond_lastStatus (st : Status) (n : Nat) (v : Word64) (it : List Word64) : (respond st n v it s).lastStatus = st :=
  rfl
@[simp] theorem respond_ring (st : Status) (n : Nat) (v : Word64) (it : List Word64) : (respond st n v it s).ring = s.ring :=
  rfl
@[simp] theorem respond_H (st : Status) (n : Nat) (v : Word64) (it : List Word64) : (respond st n v it s).H = s.H :=
  rfl
@[simp] theorem respond_B (st : Status) (n : Nat) (v : Word64) (it : List Word64) : (respond st n v it s).B = s.B :=
  rfl
@[simp] theorem respond_ahead (st : Status) (n : Nat) (v : Word64) (it : List Word64) : (respond st n v it s).ahead = s.ahead :=
  rfl
@[simp] theorem respond_pend (st : Status) (n : Nat) (v : Word64) (it : List Word64) : (respond st n v it s).pend = s.pend :=
  rfl
@[simp] theorem respond_index (st : Status) (n : Nat) (v : Word64) (it : List Word64) : (respond st n v it s).index = s.index :=
  rfl
@[simp] theorem respond_idxBase (st : Status) (n : Nat) (v : Word64) (it : List Word64) : (respond st n v it s).idxBase = s.idxBase :=
  rfl
@[simp] theorem respond_lzState (st : Status) (n : Nat) (v : Word64) (it : List Word64) : (respond st n v it s).lzState = s.lzState :=
  rfl
@[simp] theorem respond_rep (st : Status) (n : Nat) (v : Word64) (it : List Word64) : (respond st n v it s).rep = s.rep :=
  rfl
@[simp] theorem respond_coder (st : Status) (n : Nat) (v : Word64) (it : List Word64) : (respond st n v it s).coder = s.coder :=
  rfl
@[simp] theorem respond_inbox (st : Status) (n : Nat) (v : Word64) (it : List Word64) : (respond st n v it s).inbox = s.inbox :=
  rfl
@[simp] theorem respond_responses (st : Status) (n : Nat) (v : Word64) (it : List Word64) : (respond st n v it s).responses = s.responses ++ [⟨st, BitVec.ofNat 64 n, v, it⟩] :=
  rfl

/-! ## Coding a packet (44_lzma_model.md R133) -/

@[simp] theorem codePacket_cfgPending (p : Packet) : (codePacket p s).cfgPending = s.cfgPending := rfl
@[simp] theorem codePacket_cfg (p : Packet) : (codePacket p s).cfg = s.cfg := rfl
@[simp] theorem codePacket_initDone (p : Packet) : (codePacket p s).initDone = s.initDone := rfl
@[simp] theorem codePacket_faulted (p : Packet) : (codePacket p s).faulted = s.faulted := rfl
@[simp] theorem codePacket_faultCode (p : Packet) : (codePacket p s).faultCode = s.faultCode := rfl
@[simp] theorem codePacket_faultOpc (p : Packet) : (codePacket p s).faultOpc = s.faultOpc := rfl
@[simp] theorem codePacket_lastStatus (p : Packet) : (codePacket p s).lastStatus = s.lastStatus := rfl
@[simp] theorem codePacket_ring (p : Packet) : (codePacket p s).ring = s.ring := rfl
@[simp] theorem codePacket_H (p : Packet) : (codePacket p s).H = s.H := rfl
@[simp] theorem codePacket_B (p : Packet) : (codePacket p s).B = s.B := rfl
@[simp] theorem codePacket_ahead (p : Packet) : (codePacket p s).ahead = s.ahead := rfl
@[simp] theorem codePacket_pend (p : Packet) : (codePacket p s).pend = s.pend := rfl
@[simp] theorem codePacket_index (p : Packet) : (codePacket p s).index = s.index := rfl
@[simp] theorem codePacket_idxBase (p : Packet) : (codePacket p s).idxBase = s.idxBase := rfl
@[simp] theorem codePacket_lzState (p : Packet) : (codePacket p s).lzState = BitVec.ofNat 8 (lzAfter p s.lzState.toNat) :=
  rfl
@[simp] theorem codePacket_rep (p : Packet) : (codePacket p s).rep = repAfter p s.rep := rfl
@[simp] theorem codePacket_coder (p : Packet) : (codePacket p s).coder = codeAll (packetDecisions (contextOf s) p) s.coder :=
  rfl
@[simp] theorem codePacket_inbox (p : Packet) : (codePacket p s).inbox = s.inbox := rfl
@[simp] theorem codePacket_responses (p : Packet) : (codePacket p s).responses = s.responses := rfl

/-! ## A new session (45_control.md R140) -/

@[simp] theorem startSession_cfgPending : (startSession s).cfgPending = s.cfgPending := rfl
@[simp] theorem startSession_cfg : (startSession s).cfg = s.cfgPending := rfl
@[simp] theorem startSession_initDone : (startSession s).initDone = true := rfl
@[simp] theorem startSession_faulted : (startSession s).faulted = s.faulted := rfl
@[simp] theorem startSession_faultCode : (startSession s).faultCode = s.faultCode := rfl
@[simp] theorem startSession_faultOpc : (startSession s).faultOpc = s.faultOpc := rfl
@[simp] theorem startSession_lastStatus : (startSession s).lastStatus = s.lastStatus := rfl
@[simp] theorem startSession_ring : (startSession s).ring = [] := rfl
@[simp] theorem startSession_H : (startSession s).H = 0 := rfl
@[simp] theorem startSession_B : (startSession s).B = 0 := rfl
@[simp] theorem startSession_ahead : (startSession s).ahead = 0 := rfl
@[simp] theorem startSession_pend : (startSession s).pend = 0 := rfl
@[simp] theorem startSession_index : (startSession s).index = Index.empty := rfl
@[simp] theorem startSession_idxBase : (startSession s).idxBase = -1 := rfl
@[simp] theorem startSession_lzState : (startSession s).lzState = 0 := rfl
@[simp] theorem startSession_rep : (startSession s).rep = Reps.zero := rfl
@[simp] theorem startSession_coder : (startSession s).coder = sessionCoder s.coder := rfl
@[simp] theorem startSession_inbox : (startSession s).inbox = s.inbox := rfl
@[simp] theorem startSession_responses : (startSession s).responses = s.responses := rfl

/-! ## Insert (41_hash_index.md R91) -/

@[simp] theorem insertPos_cfgPending (T : HashTable) (p : Nat) : (insertPos T p s).cfgPending = s.cfgPending := rfl
@[simp] theorem insertPos_cfg (T : HashTable) (p : Nat) : (insertPos T p s).cfg = s.cfg := rfl
@[simp] theorem insertPos_initDone (T : HashTable) (p : Nat) : (insertPos T p s).initDone = s.initDone := rfl
@[simp] theorem insertPos_faulted (T : HashTable) (p : Nat) : (insertPos T p s).faulted = s.faulted := rfl
@[simp] theorem insertPos_faultCode (T : HashTable) (p : Nat) : (insertPos T p s).faultCode = s.faultCode := rfl
@[simp] theorem insertPos_faultOpc (T : HashTable) (p : Nat) : (insertPos T p s).faultOpc = s.faultOpc := rfl
@[simp] theorem insertPos_lastStatus (T : HashTable) (p : Nat) : (insertPos T p s).lastStatus = s.lastStatus := rfl
@[simp] theorem insertPos_ring (T : HashTable) (p : Nat) : (insertPos T p s).ring = s.ring := rfl
@[simp] theorem insertPos_H (T : HashTable) (p : Nat) : (insertPos T p s).H = s.H := rfl
@[simp] theorem insertPos_B (T : HashTable) (p : Nat) : (insertPos T p s).B = s.B := rfl
@[simp] theorem insertPos_ahead (T : HashTable) (p : Nat) : (insertPos T p s).ahead = s.ahead := rfl
@[simp] theorem insertPos_pend (T : HashTable) (p : Nat) : (insertPos T p s).pend = s.pend := rfl
@[simp] theorem insertPos_index (T : HashTable) (p : Nat) : (insertPos T p s).index = (wordLengths s).foldl (insertWord T s p) s.index :=
  rfl
@[simp] theorem insertPos_idxBase (T : HashTable) (p : Nat) : (insertPos T p s).idxBase = rebased s p := rfl
@[simp] theorem insertPos_lzState (T : HashTable) (p : Nat) : (insertPos T p s).lzState = s.lzState := rfl
@[simp] theorem insertPos_rep (T : HashTable) (p : Nat) : (insertPos T p s).rep = s.rep := rfl
@[simp] theorem insertPos_coder (T : HashTable) (p : Nat) : (insertPos T p s).coder = s.coder := rfl
@[simp] theorem insertPos_inbox (T : HashTable) (p : Nat) : (insertPos T p s).inbox = s.inbox := rfl
@[simp] theorem insertPos_responses (T : HashTable) (p : Nat) : (insertPos T p s).responses = s.responses := rfl

/-! ## Hardware reset (70_reset_and_hazards.md R168) -/

@[simp] theorem hardReset_cfgPending : (hardReset s).cfgPending = State.reset.cfgPending := rfl
@[simp] theorem hardReset_cfg : (hardReset s).cfg = State.reset.cfg := rfl
@[simp] theorem hardReset_initDone : (hardReset s).initDone = State.reset.initDone := rfl
@[simp] theorem hardReset_faulted : (hardReset s).faulted = State.reset.faulted := rfl
@[simp] theorem hardReset_faultCode : (hardReset s).faultCode = State.reset.faultCode := rfl
@[simp] theorem hardReset_faultOpc : (hardReset s).faultOpc = State.reset.faultOpc := rfl
@[simp] theorem hardReset_lastStatus : (hardReset s).lastStatus = State.reset.lastStatus := rfl
@[simp] theorem hardReset_ring : (hardReset s).ring = State.reset.ring := rfl
@[simp] theorem hardReset_H : (hardReset s).H = State.reset.H := rfl
@[simp] theorem hardReset_B : (hardReset s).B = State.reset.B := rfl
@[simp] theorem hardReset_ahead : (hardReset s).ahead = State.reset.ahead := rfl
@[simp] theorem hardReset_pend : (hardReset s).pend = State.reset.pend := rfl
@[simp] theorem hardReset_index : (hardReset s).index = State.reset.index := rfl
@[simp] theorem hardReset_idxBase : (hardReset s).idxBase = State.reset.idxBase := rfl
@[simp] theorem hardReset_lzState : (hardReset s).lzState = State.reset.lzState := rfl
@[simp] theorem hardReset_rep : (hardReset s).rep = State.reset.rep := rfl
@[simp] theorem hardReset_coder : (hardReset s).coder = State.reset.coder := rfl
@[simp] theorem hardReset_inbox : (hardReset s).inbox = s.inbox := rfl
@[simp] theorem hardReset_responses : (hardReset s).responses = State.reset.responses := rfl

/-! ## The fault latch (60_exceptions.md R149) -/

@[simp] theorem latchFault_cfgPending (st : Status) (o : Byte) : (latchFault st o s).cfgPending = s.cfgPending :=
  by
  unfold latchFault; split <;> rfl
@[simp] theorem latchFault_cfg (st : Status) (o : Byte) : (latchFault st o s).cfg = s.cfg :=
  by
  unfold latchFault; split <;> rfl
@[simp] theorem latchFault_initDone (st : Status) (o : Byte) : (latchFault st o s).initDone = s.initDone :=
  by
  unfold latchFault; split <;> rfl
@[simp] theorem latchFault_faulted (st : Status) (o : Byte) : (latchFault st o s).faulted = true :=
  by
  unfold latchFault; split <;> simp_all
@[simp] theorem latchFault_faultCode (st : Status) (o : Byte) : (latchFault st o s).faultCode = if s.faulted then s.faultCode else st.code :=
  by
  unfold latchFault; split <;> simp_all
@[simp] theorem latchFault_faultOpc (st : Status) (o : Byte) : (latchFault st o s).faultOpc = if s.faulted then s.faultOpc else o :=
  by
  unfold latchFault; split <;> simp_all
@[simp] theorem latchFault_lastStatus (st : Status) (o : Byte) : (latchFault st o s).lastStatus = s.lastStatus :=
  by
  unfold latchFault; split <;> rfl
@[simp] theorem latchFault_ring (st : Status) (o : Byte) : (latchFault st o s).ring = s.ring :=
  by
  unfold latchFault; split <;> rfl
@[simp] theorem latchFault_H (st : Status) (o : Byte) : (latchFault st o s).H = s.H :=
  by
  unfold latchFault; split <;> rfl
@[simp] theorem latchFault_B (st : Status) (o : Byte) : (latchFault st o s).B = s.B :=
  by
  unfold latchFault; split <;> rfl
@[simp] theorem latchFault_ahead (st : Status) (o : Byte) : (latchFault st o s).ahead = s.ahead :=
  by
  unfold latchFault; split <;> rfl
@[simp] theorem latchFault_pend (st : Status) (o : Byte) : (latchFault st o s).pend = s.pend :=
  by
  unfold latchFault; split <;> rfl
@[simp] theorem latchFault_index (st : Status) (o : Byte) : (latchFault st o s).index = s.index :=
  by
  unfold latchFault; split <;> rfl
@[simp] theorem latchFault_idxBase (st : Status) (o : Byte) : (latchFault st o s).idxBase = s.idxBase :=
  by
  unfold latchFault; split <;> rfl
@[simp] theorem latchFault_lzState (st : Status) (o : Byte) : (latchFault st o s).lzState = s.lzState :=
  by
  unfold latchFault; split <;> rfl
@[simp] theorem latchFault_rep (st : Status) (o : Byte) : (latchFault st o s).rep = s.rep :=
  by
  unfold latchFault; split <;> rfl
@[simp] theorem latchFault_coder (st : Status) (o : Byte) : (latchFault st o s).coder = s.coder :=
  by
  unfold latchFault; split <;> rfl
@[simp] theorem latchFault_inbox (st : Status) (o : Byte) : (latchFault st o s).inbox = s.inbox :=
  by
  unfold latchFault; split <;> rfl
@[simp] theorem latchFault_responses (st : Status) (o : Byte) : (latchFault st o s).responses = s.responses :=
  by
  unfold latchFault; split <;> rfl

/-! ## A fatal status (60_exceptions.md R149) -/

@[simp] theorem raiseFatal_cfgPending (st : Status) (o : Byte) : (raiseFatal st o s).cfgPending = s.cfgPending :=
  by
  unfold raiseFatal; split <;> simp
@[simp] theorem raiseFatal_cfg (st : Status) (o : Byte) : (raiseFatal st o s).cfg = s.cfg :=
  by
  unfold raiseFatal; split <;> simp
@[simp] theorem raiseFatal_initDone (st : Status) (o : Byte) : (raiseFatal st o s).initDone = s.initDone :=
  by
  unfold raiseFatal; split <;> simp
@[simp] theorem raiseFatal_faulted (st : Status) (o : Byte) : (raiseFatal st o s).faulted = true :=
  by
  unfold raiseFatal; split <;> simp_all
@[simp] theorem raiseFatal_faultCode (st : Status) (o : Byte) : (raiseFatal st o s).faultCode = if s.faulted then s.faultCode else st.code :=
  by
  unfold raiseFatal; split <;> simp_all
@[simp] theorem raiseFatal_faultOpc (st : Status) (o : Byte) : (raiseFatal st o s).faultOpc = if s.faulted then s.faultOpc else o :=
  by
  unfold raiseFatal; split <;> simp_all
@[simp] theorem raiseFatal_lastStatus (st : Status) (o : Byte) : (raiseFatal st o s).lastStatus = if o = 0x02#8 then s.lastStatus else st :=
  by
  unfold raiseFatal; split <;> simp_all
@[simp] theorem raiseFatal_ring (st : Status) (o : Byte) : (raiseFatal st o s).ring = s.ring :=
  by
  unfold raiseFatal; split <;> simp
@[simp] theorem raiseFatal_H (st : Status) (o : Byte) : (raiseFatal st o s).H = s.H :=
  by
  unfold raiseFatal; split <;> simp
@[simp] theorem raiseFatal_B (st : Status) (o : Byte) : (raiseFatal st o s).B = s.B :=
  by
  unfold raiseFatal; split <;> simp
@[simp] theorem raiseFatal_ahead (st : Status) (o : Byte) : (raiseFatal st o s).ahead = s.ahead :=
  by
  unfold raiseFatal; split <;> simp
@[simp] theorem raiseFatal_pend (st : Status) (o : Byte) : (raiseFatal st o s).pend = s.pend :=
  by
  unfold raiseFatal; split <;> simp
@[simp] theorem raiseFatal_index (st : Status) (o : Byte) : (raiseFatal st o s).index = s.index :=
  by
  unfold raiseFatal; split <;> simp
@[simp] theorem raiseFatal_idxBase (st : Status) (o : Byte) : (raiseFatal st o s).idxBase = s.idxBase :=
  by
  unfold raiseFatal; split <;> simp
@[simp] theorem raiseFatal_lzState (st : Status) (o : Byte) : (raiseFatal st o s).lzState = s.lzState :=
  by
  unfold raiseFatal; split <;> simp
@[simp] theorem raiseFatal_rep (st : Status) (o : Byte) : (raiseFatal st o s).rep = s.rep :=
  by
  unfold raiseFatal; split <;> simp
@[simp] theorem raiseFatal_coder (st : Status) (o : Byte) : (raiseFatal st o s).coder = s.coder :=
  by
  unfold raiseFatal; split <;> simp
@[simp] theorem raiseFatal_inbox (st : Status) (o : Byte) : (raiseFatal st o s).inbox = s.inbox :=
  by
  unfold raiseFatal; split <;> simp
@[simp] theorem raiseFatal_responses (st : Status) (o : Byte) : (raiseFatal st o s).responses = s.responses ++ [⟨st, 0, 0, []⟩] :=
  by
  unfold raiseFatal; split <;> simp_all

/-! ## Indexing the head (42_match_finder.md R104) -/

@[simp] theorem indexHead_cfgPending (T : HashTable) : (indexHead T s).cfgPending = s.cfgPending :=
  by
  unfold indexHead; split <;> rfl
@[simp] theorem indexHead_cfg (T : HashTable) : (indexHead T s).cfg = s.cfg :=
  by
  unfold indexHead; split <;> rfl
@[simp] theorem indexHead_initDone (T : HashTable) : (indexHead T s).initDone = s.initDone :=
  by
  unfold indexHead; split <;> rfl
@[simp] theorem indexHead_faulted (T : HashTable) : (indexHead T s).faulted = s.faulted :=
  by
  unfold indexHead; split <;> rfl
@[simp] theorem indexHead_faultCode (T : HashTable) : (indexHead T s).faultCode = s.faultCode :=
  by
  unfold indexHead; split <;> rfl
@[simp] theorem indexHead_faultOpc (T : HashTable) : (indexHead T s).faultOpc = s.faultOpc :=
  by
  unfold indexHead; split <;> rfl
@[simp] theorem indexHead_lastStatus (T : HashTable) : (indexHead T s).lastStatus = s.lastStatus :=
  by
  unfold indexHead; split <;> rfl
@[simp] theorem indexHead_ring (T : HashTable) : (indexHead T s).ring = s.ring :=
  by
  unfold indexHead; split <;> rfl
@[simp] theorem indexHead_H (T : HashTable) : (indexHead T s).H = s.H := by
  unfold indexHead; split <;> rfl
@[simp] theorem indexHead_B (T : HashTable) : (indexHead T s).B = s.B := by
  unfold indexHead; split <;> rfl
@[simp] theorem indexHead_ahead (T : HashTable) : (indexHead T s).ahead = if s.ahead = 0 ∧ 0 < s.B then 1 else s.ahead :=
  by
  unfold indexHead; split <;> simp_all
@[simp] theorem indexHead_pend (T : HashTable) : (indexHead T s).pend = s.pend :=
  by
  unfold indexHead; split <;> rfl
@[simp] theorem indexHead_index (T : HashTable) : (indexHead T s).index = if s.ahead = 0 ∧ 0 < s.B then (insertPos T s.H s).index else s.index :=
  by
  unfold indexHead; split <;> simp_all
@[simp] theorem indexHead_idxBase (T : HashTable) : (indexHead T s).idxBase = if s.ahead = 0 ∧ 0 < s.B then rebased s s.H else s.idxBase :=
  by
  unfold indexHead; split <;> simp_all
@[simp] theorem indexHead_lzState (T : HashTable) : (indexHead T s).lzState = s.lzState :=
  by
  unfold indexHead; split <;> rfl
@[simp] theorem indexHead_rep (T : HashTable) : (indexHead T s).rep = s.rep :=
  by
  unfold indexHead; split <;> rfl
@[simp] theorem indexHead_coder (T : HashTable) : (indexHead T s).coder = s.coder :=
  by
  unfold indexHead; split <;> rfl
@[simp] theorem indexHead_inbox (T : HashTable) : (indexHead T s).inbox = s.inbox :=
  by
  unfold indexHead; split <;> rfl
@[simp] theorem indexHead_responses (T : HashTable) : (indexHead T s).responses = s.responses :=
  by
  unfold indexHead; split <;> rfl

/-! ## States without talk or latch -/

@[simp] theorem withoutTalk_cfgPending : (withoutTalk s).cfgPending = s.cfgPending := rfl
@[simp] theorem withoutTalk_cfg : (withoutTalk s).cfg = s.cfg := rfl
@[simp] theorem withoutTalk_initDone : (withoutTalk s).initDone = s.initDone := rfl
@[simp] theorem withoutTalk_faulted : (withoutTalk s).faulted = s.faulted := rfl
@[simp] theorem withoutTalk_faultCode : (withoutTalk s).faultCode = s.faultCode := rfl
@[simp] theorem withoutTalk_faultOpc : (withoutTalk s).faultOpc = s.faultOpc := rfl
@[simp] theorem withoutTalk_lastStatus : (withoutTalk s).lastStatus = .ok := rfl
@[simp] theorem withoutTalk_ring : (withoutTalk s).ring = s.ring := rfl
@[simp] theorem withoutTalk_H : (withoutTalk s).H = s.H := rfl
@[simp] theorem withoutTalk_B : (withoutTalk s).B = s.B := rfl
@[simp] theorem withoutTalk_ahead : (withoutTalk s).ahead = s.ahead := rfl
@[simp] theorem withoutTalk_pend : (withoutTalk s).pend = s.pend := rfl
@[simp] theorem withoutTalk_index : (withoutTalk s).index = s.index := rfl
@[simp] theorem withoutTalk_idxBase : (withoutTalk s).idxBase = s.idxBase := rfl
@[simp] theorem withoutTalk_lzState : (withoutTalk s).lzState = s.lzState := rfl
@[simp] theorem withoutTalk_rep : (withoutTalk s).rep = s.rep := rfl
@[simp] theorem withoutTalk_coder : (withoutTalk s).coder = s.coder := rfl
@[simp] theorem withoutTalk_inbox : (withoutTalk s).inbox = s.inbox := rfl
@[simp] theorem withoutTalk_responses : (withoutTalk s).responses = [] := rfl

/-! ## States without talk or latch, continued -/

@[simp] theorem withoutLatch_cfgPending : (withoutLatch s).cfgPending = s.cfgPending := rfl
@[simp] theorem withoutLatch_cfg : (withoutLatch s).cfg = s.cfg := rfl
@[simp] theorem withoutLatch_initDone : (withoutLatch s).initDone = s.initDone := rfl
@[simp] theorem withoutLatch_faulted : (withoutLatch s).faulted = false := rfl
@[simp] theorem withoutLatch_faultCode : (withoutLatch s).faultCode = 0 := rfl
@[simp] theorem withoutLatch_faultOpc : (withoutLatch s).faultOpc = 0 := rfl
@[simp] theorem withoutLatch_lastStatus : (withoutLatch s).lastStatus = .ok := rfl
@[simp] theorem withoutLatch_ring : (withoutLatch s).ring = s.ring := rfl
@[simp] theorem withoutLatch_H : (withoutLatch s).H = s.H := rfl
@[simp] theorem withoutLatch_B : (withoutLatch s).B = s.B := rfl
@[simp] theorem withoutLatch_ahead : (withoutLatch s).ahead = s.ahead := rfl
@[simp] theorem withoutLatch_pend : (withoutLatch s).pend = s.pend := rfl
@[simp] theorem withoutLatch_index : (withoutLatch s).index = s.index := rfl
@[simp] theorem withoutLatch_idxBase : (withoutLatch s).idxBase = s.idxBase := rfl
@[simp] theorem withoutLatch_lzState : (withoutLatch s).lzState = s.lzState := rfl
@[simp] theorem withoutLatch_rep : (withoutLatch s).rep = s.rep := rfl
@[simp] theorem withoutLatch_coder : (withoutLatch s).coder = s.coder := rfl
@[simp] theorem withoutLatch_inbox : (withoutLatch s).inbox = s.inbox := rfl
@[simp] theorem withoutLatch_responses : (withoutLatch s).responses = [] := rfl

/-! ## RcInit (43_range_coder.md R112) -/

@[simp] theorem rcInit_probs : (rcInit c).probs = c.probs := rfl
@[simp] theorem rcInit_rcLow : (rcInit c).rcLow = 0 := rfl
@[simp] theorem rcInit_rcRange : (rcInit c).rcRange = 0xFFFFFFFF#32 := rfl
@[simp] theorem rcInit_rcCache : (rcInit c).rcCache = 0 := rfl
@[simp] theorem rcInit_rcCacheSize : (rcInit c).rcCacheSize = 1 := rfl
@[simp] theorem rcInit_rcFresh : (rcInit c).rcFresh = true := rfl
@[simp] theorem rcInit_sinkRem : (rcInit c).sinkRem = c.sinkRem := rfl
@[simp] theorem rcInit_outCount : (rcInit c).outCount = c.outCount := rfl
@[simp] theorem rcInit_sinkBroken : (rcInit c).sinkBroken = c.sinkBroken := rfl
@[simp] theorem rcInit_sinks : (rcInit c).sinks = c.sinks := rfl

/-! ## A fresh sink (43_range_coder.md R123) -/

@[simp] theorem openSink_probs (n : Nat) : (openSink n c).probs = c.probs := rfl
@[simp] theorem openSink_rcLow (n : Nat) : (openSink n c).rcLow = 0 := rfl
@[simp] theorem openSink_rcRange (n : Nat) : (openSink n c).rcRange = 0xFFFFFFFF#32 := rfl
@[simp] theorem openSink_rcCache (n : Nat) : (openSink n c).rcCache = 0 := rfl
@[simp] theorem openSink_rcCacheSize (n : Nat) : (openSink n c).rcCacheSize = 1 := rfl
@[simp] theorem openSink_rcFresh (n : Nat) : (openSink n c).rcFresh = true := rfl
@[simp] theorem openSink_sinkRem (n : Nat) : (openSink n c).sinkRem = n := rfl
@[simp] theorem openSink_outCount (n : Nat) : (openSink n c).outCount = 0 := rfl
@[simp] theorem openSink_sinkBroken (n : Nat) : (openSink n c).sinkBroken = false := rfl
@[simp] theorem openSink_sinks (n : Nat) : (openSink n c).sinks = [] :: c.sinks := rfl

/-! ## A session's coder (45_control.md R140) -/

@[simp] theorem sessionCoder_probs : (sessionCoder c).probs = [] := rfl
@[simp] theorem sessionCoder_rcLow : (sessionCoder c).rcLow = 0 := rfl
@[simp] theorem sessionCoder_rcRange : (sessionCoder c).rcRange = 0xFFFFFFFF#32 := rfl
@[simp] theorem sessionCoder_rcCache : (sessionCoder c).rcCache = 0 := rfl
@[simp] theorem sessionCoder_rcCacheSize : (sessionCoder c).rcCacheSize = 1 := rfl
@[simp] theorem sessionCoder_rcFresh : (sessionCoder c).rcFresh = true := rfl
@[simp] theorem sessionCoder_sinkRem : (sessionCoder c).sinkRem = 0 := rfl
@[simp] theorem sessionCoder_outCount : (sessionCoder c).outCount = 0 := rfl
@[simp] theorem sessionCoder_sinkBroken : (sessionCoder c).sinkBroken = false := rfl
@[simp] theorem sessionCoder_sinks : (sessionCoder c).sinks = c.sinks := rfl

/-! ## Emit (43_range_coder.md R118) -/

@[simp] theorem emit_probs (b : Byte) : (emit b c).probs = c.probs := by
  unfold emit; split <;> rfl
@[simp] theorem emit_rcLow (b : Byte) : (emit b c).rcLow = c.rcLow := by
  unfold emit; split <;> rfl
@[simp] theorem emit_rcRange (b : Byte) : (emit b c).rcRange = c.rcRange := by
  unfold emit; split <;> rfl
@[simp] theorem emit_rcCache (b : Byte) : (emit b c).rcCache = c.rcCache := by
  unfold emit; split <;> rfl
@[simp] theorem emit_rcCacheSize (b : Byte) : (emit b c).rcCacheSize = c.rcCacheSize :=
  by
  unfold emit; split <;> rfl
@[simp] theorem emit_rcFresh (b : Byte) : (emit b c).rcFresh = c.rcFresh := by
  unfold emit; split <;> rfl
@[simp] theorem emit_sinkRem (b : Byte) : (emit b c).sinkRem = c.sinkRem - 1 := by
  unfold emit; split <;> simp_all
@[simp] theorem emit_outCount (b : Byte) : (emit b c).outCount = if c.sinkRem = 0 then c.outCount else c.outCount + 1 :=
  by
  unfold emit; split <;> simp_all
@[simp] theorem emit_sinkBroken (b : Byte) : (emit b c).sinkBroken = (c.sinkBroken || decide (c.sinkRem = 0)) :=
  by
  unfold emit; split <;> simp_all
@[simp] theorem emit_sinks (b : Byte) : (emit b c).sinks = if c.sinkRem = 0 then c.sinks else acceptByte b c.sinks :=
  by
  unfold emit; split <;> simp_all

end Sys2Proof.Machine
end

