-- ==== Sys2Proof/Laws/Ops.lean ====
section
/-! SUPPORT. What each shared operation of Machine/Ops.lean and Machine/Operands.lean can do, said once. -/

namespace Sys2Proof.Machine

/-! ## The common checks (60_exceptions.md R151) -/

/-- The common checks let a command through exactly when no latch, no missing session, and none of the conditions
its class asks about stands in the way. -/
theorem commonCheck_eq_none_iff (c : Checks) (s : State) :
    commonCheck c s = none ↔
      s.faulted = false ∧ s.initDone = true ∧ (c.sink = true → s.coder.sinkBroken = false) ∧
        (c.idle = true → s.pend = 0) ∧ (c.fresh = true → s.coder.rcFresh = true) := by
  unfold commonCheck
  rcases hf : s.faulted <;> rcases hi : s.initDone <;> rcases hb : s.coder.sinkBroken <;>
    rcases hr : s.coder.rcFresh <;> rcases c with ⟨a, b, d⟩ <;> rcases a <;> rcases b <;> rcases d <;> simp

/-- A command of R151 step 7 always answers: its refusal, or its own rule. -/
theorem runCommon_cases (c : Checks) (body : State → State) (s : State) :
    (∃ st, commonCheck c s = some st ∧ runCommon c body s = .next (respond st 0 0 [] s)) ∨
      (commonCheck c s = none ∧ runCommon c body s = .next (body s)) := by
  unfold runCommon
  cases commonCheck c s with
  | none => exact .inr ⟨rfl, rfl⟩
  | some st => exact .inl ⟨st, rfl, rfl⟩

theorem runCommon_of_none {c : Checks} {s : State} (body : State → State) (h : commonCheck c s = none) :
    runCommon c body s = .next (body s) := by
  unfold runCommon; rw [h]

theorem runCommon_of_some {c : Checks} {s : State} {st : Status} (body : State → State)
    (h : commonCheck c s = some st) : runCommon c body s = .next (respond st 0 0 [] s) := by
  unfold runCommon; rw [h]

theorem runCommon_faulted {s : State} (c : Checks) (body : State → State) (h : s.faulted = true) :
    runCommon c body s = .next (respond .faulted 0 0 [] s) := by
  simp [runCommon, commonCheck, h]

theorem runEarly_of_not_faulted {s : State} (body : State → State) (h : s.faulted = false) :
    runEarly body s = .next (body s) := by
  simp [runEarly, h]

theorem runEarly_faulted {s : State} (body : State → State) (h : s.faulted = true) :
    runEarly body s = .next (respond .faulted 0 0 [] s) := by
  simp [runEarly, h]

/-- A ready command without sink, pend or fresh checks runs its own rule. -/
theorem runCommon_ready {s : State} (body : State → State) (h : ready s) :
    runCommon ⟨false, false, false⟩ body s = .next (body s) :=
  runCommon_of_none body ((commonCheck_eq_none_iff _ s).2 ⟨h.1, h.2, by simp, by simp, by simp⟩)

/-- An encode-ready encode command runs its own rule. -/
theorem runCommon_encodeReady {s : State} (body : State → State) (h : encodeReady s) :
    runCommon ⟨true, true, false⟩ body s = .next (body s) :=
  runCommon_of_none body ((commonCheck_eq_none_iff _ s).2
    ⟨h.1.1.1, h.1.1.2, fun _ => h.1.2, fun _ => h.2, by simp⟩)

/-! ## The fault latch -/

/-- A fatal status touches nothing but the latch, LAST and the response record. -/
@[simp] theorem withoutLatch_raiseFatal (st : Status) (o : Byte) (s : State) :
    withoutLatch (raiseFatal st o s) = withoutLatch s := by
  unfold raiseFatal latchFault withoutLatch withoutTalk respond respondQuietly
  split <;> split <;> rfl

@[simp] theorem withoutTalk_respond (st : Status) (n : Nat) (v : Word64) (it : List Word64) (s : State) :
    withoutTalk (respond st n v it s) = withoutTalk s := rfl

@[simp] theorem withoutTalk_respondQuietly (st : Status) (n : Nat) (v : Word64) (it : List Word64) (s : State) :
    withoutTalk (respondQuietly st n v it s) = withoutTalk s := rfl

/-! ## Emission (43_range_coder.md R118) -/

section
variable (bs : List Byte) (c : Coder)

@[simp] theorem emitAll_probs : (emitAll bs c).probs = c.probs := by
  induction bs generalizing c with
  | nil => rfl
  | cons b bs ih => simp [emitAll, ih]

@[simp] theorem emitAll_rcLow : (emitAll bs c).rcLow = c.rcLow := by
  induction bs generalizing c with
  | nil => rfl
  | cons b bs ih => simp [emitAll, ih]

@[simp] theorem emitAll_rcRange : (emitAll bs c).rcRange = c.rcRange := by
  induction bs generalizing c with
  | nil => rfl
  | cons b bs ih => simp [emitAll, ih]

@[simp] theorem emitAll_rcCache : (emitAll bs c).rcCache = c.rcCache := by
  induction bs generalizing c with
  | nil => rfl
  | cons b bs ih => simp [emitAll, ih]

@[simp] theorem emitAll_rcCacheSize : (emitAll bs c).rcCacheSize = c.rcCacheSize := by
  induction bs generalizing c with
  | nil => rfl
  | cons b bs ih => simp [emitAll, ih]

@[simp] theorem emitAll_rcFresh : (emitAll bs c).rcFresh = c.rcFresh := by
  induction bs generalizing c with
  | nil => rfl
  | cons b bs ih => simp [emitAll, ih]

@[simp] theorem emitAll_sinkRem : (emitAll bs c).sinkRem = c.sinkRem - bs.length := by
  induction bs generalizing c with
  | nil => rfl
  | cons b bs ih => simp only [emitAll, ih, emit_sinkRem, List.length_cons]; omega

theorem emitAll_sinkBroken : (emitAll bs c).sinkBroken = (c.sinkBroken || decide (c.sinkRem < bs.length)) := by
  induction bs generalizing c with
  | nil => simp [emitAll]
  | cons b bs ih =>
    simp only [emitAll, ih, emit_sinkBroken, emit_sinkRem, List.length_cons, Bool.or_assoc]
    congr 1
    by_cases h0 : c.sinkRem = 0 <;> by_cases h1 : c.sinkRem - 1 < bs.length <;> simp [h0, h1] <;> omega

theorem emitAll_outCount : (emitAll bs c).outCount = c.outCount + min c.sinkRem bs.length := by
  induction bs generalizing c with
  | nil => simp [emitAll]
  | cons b bs ih =>
    simp only [emitAll, ih, emit_sinkRem, emit_outCount, List.length_cons]
    split <;> omega

/-- The newest sink's bytes, the others' unchanged, when every byte fits and a sink is open. -/
theorem emitAll_sinks {t : List Byte} {ts : List (List Byte)} (h : bs.length ≤ c.sinkRem)
    (hs : c.sinks = t :: ts) : (emitAll bs c).sinks = (t ++ bs) :: ts := by
  induction bs generalizing c t with
  | nil => simp [emitAll, hs]
  | cons b bs ih =>
    simp only [List.length_cons] at h
    rw [emitAll, ih (emit b c) (t := t ++ [b])]
    · simp
    · rw [emit_sinkRem]; omega
    · rw [emit_sinks, if_neg (by omega), hs]; rfl

end

/-! ## The ring -/

@[simp] theorem ringSeg_length (s : State) (p n : Nat) : (ringSeg s p n).length = n := by
  induction n generalizing p with
  | zero => rfl
  | succ n ih => simp [ringSeg, ih]

theorem ringSeg_getElem (s : State) (p n i : Nat) (h : i < (ringSeg s p n).length) :
    (ringSeg s p n)[i] = ringAt s (p + i) := by
  induction n generalizing p i with
  | zero => simp [ringSeg] at h
  | succ n ih =>
    cases i with
    | zero => rfl
    | succ i =>
      simp only [ringSeg, List.getElem_cons_succ]
      rw [ih]
      congr 1; omega

theorem ringSeg_eq_map (s : State) (p n : Nat) : ringSeg s p n = (List.range n).map (fun i => ringAt s (p + i)) := by
  refine List.ext_getElem (by simp) fun i h1 h2 => ?_
  rw [ringSeg_getElem]; simp

theorem ringSeg_take (s : State) (p n m : Nat) : (ringSeg s p n).take m = ringSeg s p (min m n) := by
  induction n generalizing p m with
  | zero => simp [ringSeg]
  | succ n ih =>
    cases m with
    | zero => simp [ringSeg]
    | succ m => rw [Nat.succ_min_succ, ringSeg, ringSeg, List.take_succ_cons, ih]

theorem ringSeg_append (s : State) (p m n : Nat) : ringSeg s p (m + n) = ringSeg s p m ++ ringSeg s (p + m) n := by
  induction m generalizing p with
  | zero => simp [ringSeg]
  | succ m ih =>
    rw [show m + 1 + n = m + n + 1 by omega]
    simp only [ringSeg, List.cons_append, ih]
    rw [show p + 1 + m = p + (m + 1) by omega]

/-- Ring reads look at the ring and the active sizes alone. -/
theorem ringAt_congr {s t : State} (hr : t.ring = s.ring) (hc : t.cfg = s.cfg) (p : Nat) :
    ringAt t p = ringAt s p := by
  simp [ringAt, ringCell, ringLen, hr, hc]

theorem ringSeg_congr {s t : State} (hr : t.ring = s.ring) (hc : t.cfg = s.cfg) (p n : Nat) :
    ringSeg t p n = ringSeg s p n := by
  induction n generalizing p with
  | zero => rfl
  | succ n ih => simp [ringSeg, ih, ringAt_congr hr hc]

/-! ## Common lengths (40_dictionary.md R83) -/

theorem prefixLen_le_left (a b : List Byte) : prefixLen a b ≤ a.length := by
  fun_induction prefixLen a b <;> simp_all

theorem prefixLen_le_right (a b : List Byte) : prefixLen a b ≤ b.length := by
  fun_induction prefixLen a b <;> simp_all

theorem matchLenAt_le_needle (s : State) (d : Int) (needle : List Byte) : matchLenAt s d needle ≤ needle.length :=
  prefixLen_le_left _ _

/-- Only as many bytes as the first list has are looked at. -/
theorem prefixLen_take (a b : List Byte) (n : Nat) (h : a.length ≤ n) : prefixLen a (b.take n) = prefixLen a b := by
  induction a generalizing b n with
  | nil => simp [prefixLen]
  | cons x xs ih =>
    cases n with
    | zero => simp at h
    | succ n =>
      cases b with
      | nil => rfl
      | cons y ys => simp only [List.take_succ_cons, prefixLen, ih ys n (by simpa using h)]

/-- MatchLenAt(d, needle) against all of DictFrom(d) (R83). -/
theorem matchLenAt_eq (s : State) (d : Nat) (w : List Byte) :
    matchLenAt s d w = prefixLen w (ringSeg s (s.H - d) (d + s.B)) := by
  have h1 : distPos s d = s.H - d := by simp only [distPos]; omega
  have h2 : segmentCount s d w.length = min w.length (d + s.B) := by simp only [segmentCount]; omega
  rw [matchLenAt, h1, h2, ← ringSeg_take, prefixLen_take _ _ _ (Nat.le_refl _)]

/-- A byte before the common length agrees. -/
theorem getElem_of_lt_prefixLen (a b : List Byte) (i : Nat) (h : i < prefixLen a b) :
    a[i]'(Nat.lt_of_lt_of_le h (prefixLen_le_left a b)) = b[i]'(Nat.lt_of_lt_of_le h (prefixLen_le_right a b)) := by
  induction a generalizing b i with
  | nil => simp [prefixLen] at h
  | cons x xs ih =>
    cases b with
    | nil => simp [prefixLen] at h
    | cons y ys =>
      simp only [prefixLen] at h
      split at h
      · cases i with
        | zero => simpa
        | succ i => simpa using ih ys i (by omega)
      · omega

end Sys2Proof.Machine
end

