-- ==== Sys2Proof/Laws/Coder.lean ====
section
/-! SUPPORT. What ShiftLow, Normalize, EncBit and EncDirect can do to the range coder (43_range_coder.md R113 to R116),
field by field. -/

namespace Sys2Proof.Machine

/-! ## ShiftLow (R115) -/

section
variable (c : Coder)

@[simp] theorem shiftLow_probs : (shiftLow c).probs = c.probs := by
  unfold shiftLow; split <;> simp

@[simp] theorem shiftLow_rcRange : (shiftLow c).rcRange = c.rcRange := by
  unfold shiftLow; split <;> simp

@[simp] theorem shiftLow_rcFresh : (shiftLow c).rcFresh = c.rcFresh := by
  unfold shiftLow; split <;> simp

@[simp] theorem shiftLow_rcLow : (shiftLow c).rcLow = lowShifted c.rcLow := by
  unfold shiftLow; split <;> rfl

@[simp] theorem lowShifted_toNat (l : Word64) : (lowShifted l).toNat = l.toNat % 16777216 * 256 := by
  have h : l.toNat % 16777216 < 16777216 := Nat.mod_lt _ (by norm_num)
  rw [lowShifted, BitVec.toNat_ofNat, Nat.mod_eq_of_lt]
  norm_num; omega

theorem lowShifted_lt (l : Word64) : (lowShifted l).toNat < 4294967296 := by
  have h : l.toNat % 16777216 < 16777216 := Nat.mod_lt _ (by norm_num)
  rw [lowShifted_toNat]; omega

@[simp] theorem settledBytes_length : (settledBytes c).length = c.rcCacheSize - 1 + 1 := by
  simp [settledBytes]

theorem shiftLow_rcCacheSize : (shiftLow c).rcCacheSize = if topSettled c then 1 else c.rcCacheSize + 1 := by
  unfold shiftLow; split <;> simp [*]

theorem shiftLow_rcCache : (shiftLow c).rcCache =
    if topSettled c then BitVec.ofNat 8 (c.rcLow.toNat / 16777216) else c.rcCache := by
  unfold shiftLow; split <;> simp [*]

theorem shiftLow_sinkRem : (shiftLow c).sinkRem =
    if topSettled c then c.sinkRem - (c.rcCacheSize - 1 + 1) else c.sinkRem := by
  unfold shiftLow; split <;> simp [*]

theorem shiftLow_sinkBroken : (shiftLow c).sinkBroken =
    (c.sinkBroken || (topSettled c && decide (c.sinkRem < c.rcCacheSize - 1 + 1))) := by
  unfold shiftLow; split <;> simp [*, emitAll_sinkBroken]

theorem shiftLow_outCount : (shiftLow c).outCount =
    c.outCount + if topSettled c then min c.sinkRem (c.rcCacheSize - 1 + 1) else 0 := by
  unfold shiftLow; split <;> simp [*, emitAll_outCount]

/-- What a settling ShiftLow hands to the open sink, when it fits. -/
theorem shiftLow_sinks {u : List Byte} {us : List (List Byte)} (hs : c.sinks = u :: us)
    (hf : c.rcCacheSize - 1 + 1 ≤ c.sinkRem) :
    (shiftLow c).sinks = (u ++ if topSettled c then settledBytes c else []) :: us := by
  unfold shiftLow; split
  · simpa [*] using emitAll_sinks (settledBytes c) c (by simpa using hf) hs
  · simp [*]

/-- ShiftLow lowers HEADROOM by exactly 1 (44_lzma_model.md R138), as long as the sink can take what is held back. -/
theorem headroom_shiftLow (h1 : 1 ≤ c.rcCacheSize) (h2 : c.rcCacheSize ≤ c.sinkRem) :
    headroom (shiftLow c) = headroom c - 1 := by
  simp only [headroom, shiftLow_sinkRem, shiftLow_rcCacheSize]
  split <;> omega

end

/-! ## Normalize (R116) -/

theorem rangeShifted_toNat {r : Word32} (h : r.toNat < 16777216) : (rangeShifted r).toNat = r.toNat * 256 := by
  rw [rangeShifted, BitVec.toNat_ofNat, Nat.mod_eq_of_lt]
  norm_num; omega

/-- With the range at 2^24 or above, Normalize does nothing. -/
theorem normalize_of_top_le {c : Coder} (fuel : Nat) (h : Config.top ≤ c.rcRange.toNat) : normalize fuel c = c := by
  cases fuel with
  | zero => rfl
  | succ n => rw [normalize, if_neg (by omega)]

/-- With the range in [2^16, 2^24), Normalize is one ShiftLow. -/
theorem normalize_one {c : Coder} (fuel : Nat) (h1 : 65536 ≤ c.rcRange.toNat) (h2 : c.rcRange.toNat < Config.top) :
    normalize (fuel + 1) c = shiftLow { c with rcRange := rangeShifted c.rcRange } := by
  rw [normalize, if_pos h2, normalize_of_top_le]
  rw [shiftLow_rcRange, rangeShifted_toNat h2]
  simp only [Config.top]; omega

/-! ## Coding decisions -/

/-- A tree walk codes bit i in the node that the bits before it lead to (R120, R121). -/
theorem treeDecisions_map (A : Nat → ProbCell) (f : Nat → Bool) (m n : Nat) :
    treeDecisions A m ((List.range n).map f) = (List.range n).map (fun i => .adaptive
      (A ((List.range i).foldl (fun m j => 2 * m + (f j).toNat) m)) (f i)) := by
  induction n generalizing f m with
  | zero => rfl
  | succ n ih =>
    rw [List.range_succ_eq_map, List.map_cons, List.map_map, List.map_cons, List.map_map, treeDecisions, ih]
    congr 1
    refine List.map_congr_left fun i _ => ?_
    simp only [Function.comp, List.range_succ_eq_map, List.foldl_cons, List.foldl_map]

theorem codeAll_append (ds es : List Decision) (c : Coder) : codeAll (ds ++ es) c = codeAll es (codeAll ds c) := by
  induction ds generalizing c with
  | nil => rfl
  | cons d ds ih => exact ih _

/-- A property that every decision keeps is kept by any list of them. -/
theorem codeAll_induction {P : Coder → Prop} {ds : List Decision} (h : ∀ d ∈ ds, ∀ c, P c → P (codeOne c d))
    {c : Coder} (hc : P c) : P (codeAll ds c) := by
  induction ds generalizing c with
  | nil => exact hc
  | cons d ds ih => exact ih (fun d' hd => h d' (List.mem_cons_of_mem _ hd)) (h d List.mem_cons_self c hc)

end Sys2Proof.Machine
end

