-- ==== Sys2Proof/Laws/Decode.lean ====
section
/-! SUPPORT. A command word's fields: what each reads of a word made from fields, and that the fields are the word. -/

namespace Sys2Proof

/-- The fields of a number made of fields. -/
theorem fields_of_sum {o s l d : Nat} (ho : o < 256) (hs : s < 256) (hl : l < 4294967296)
    (hd : d < 18446744073709551616) :
    (o + s * 256 + l * 4294967296 + d * 18446744073709551616) % 256 = o
      ∧ (o + s * 256 + l * 4294967296 + d * 18446744073709551616) / 256 % 256 = s
      ∧ (o + s * 256 + l * 4294967296 + d * 18446744073709551616) / 65536 % 65536 = 0
      ∧ (o + s * 256 + l * 4294967296 + d * 18446744073709551616) / 4294967296 % 4294967296 = l
      ∧ (o + s * 256 + l * 4294967296 + d * 18446744073709551616) / 18446744073709551616 % 18446744073709551616 = d := by
  refine ⟨?_, ?_, ?_, ?_, ?_⟩ <;> omega

/-- The number a made word is; it fits its 128 bits. -/
theorem mkWord_toNat (d : Word64) (l : Word32) (s o : Byte) :
    (mkWord d l s o).toNat = o.toNat + s.toNat * 256 + l.toNat * 4294967296 + d.toNat * 18446744073709551616 := by
  have h1 : d.toNat < 18446744073709551616 := d.isLt
  have h2 : l.toNat < 4294967296 := l.isLt
  have h3 : s.toNat < 256 := s.isLt
  have h4 : o.toNat < 256 := o.isLt
  rw [mkWord, BitVec.toNat_ofNat, show (2 ^ 128 : Nat) = 340282366920938463463374607431768211456 by norm_num,
    Nat.mod_eq_of_lt (by omega)]

theorem lenOf_toNat (w : CommandWord) : (lenOf w).toNat = w.toNat / 4294967296 % 4294967296 := by
  simp only [lenOf, BitVec.extractLsb'_toNat, Nat.shiftRight_eq_div_pow]
theorem distOf_toNat (w : CommandWord) : (distOf w).toNat = w.toNat / 18446744073709551616 % 18446744073709551616 := by
  simp only [distOf, BitVec.extractLsb'_toNat, Nat.shiftRight_eq_div_pow]
theorem opcOf_toNat (w : CommandWord) : (opcOf w).toNat = w.toNat % 256 := by
  simp [opcOf]
theorem subOf_toNat (w : CommandWord) : (subOf w).toNat = w.toNat / 256 % 256 := by
  simp [subOf, Nat.shiftRight_eq_div_pow]
theorem rsvdOf_toNat (w : CommandWord) : (rsvdOf w).toNat = w.toNat / 65536 % 65536 := by
  simp [rsvdOf, Nat.shiftRight_eq_div_pow]

section
variable (d : Word64) (l : Word32) (s o : Byte)

@[simp] theorem opcOf_mkWord : opcOf (mkWord d l s o) = o :=
  BitVec.eq_of_toNat_eq (by rw [opcOf_toNat, mkWord_toNat, (fields_of_sum o.isLt s.isLt l.isLt d.isLt).1])
@[simp] theorem subOf_mkWord : subOf (mkWord d l s o) = s :=
  BitVec.eq_of_toNat_eq (by rw [subOf_toNat, mkWord_toNat, (fields_of_sum o.isLt s.isLt l.isLt d.isLt).2.1])
@[simp] theorem rsvdOf_mkWord : rsvdOf (mkWord d l s o) = 0 :=
  BitVec.eq_of_toNat_eq (by rw [rsvdOf_toNat, mkWord_toNat, (fields_of_sum o.isLt s.isLt l.isLt d.isLt).2.2.1]; rfl)
@[simp] theorem lenOf_mkWord : lenOf (mkWord d l s o) = l :=
  BitVec.eq_of_toNat_eq (by rw [lenOf_toNat, mkWord_toNat, (fields_of_sum o.isLt s.isLt l.isLt d.isLt).2.2.2.1])
@[simp] theorem distOf_mkWord : distOf (mkWord d l s o) = d :=
  BitVec.eq_of_toNat_eq (by rw [distOf_toNat, mkWord_toNat, (fields_of_sum o.isLt s.isLt l.isLt d.isLt).2.2.2.2])
end

/-- A 128-bit number is the sum of its fields when its bits 16 to 31 are 0. -/
theorem sum_of_fields {w : Nat} (hw : w < 340282366920938463463374607431768211456) (h : w / 65536 % 65536 = 0) :
    w % 256 + w / 256 % 256 * 256 + w / 4294967296 % 4294967296 * 4294967296
      + w / 18446744073709551616 % 18446744073709551616 * 18446744073709551616 = w := by
  omega

/-- A word whose RSVD is 0 is made of its own fields. -/
theorem mkWord_fields (w : CommandWord) (h : rsvdOf w = 0) : mkWord (distOf w) (lenOf w) (subOf w) (opcOf w) = w := by
  refine BitVec.eq_of_toNat_eq ?_
  rw [mkWord_toNat, opcOf_toNat, subOf_toNat, lenOf_toNat, distOf_toNat]
  exact sum_of_fields (by have := w.isLt; norm_num at this ⊢; exact this) (by rw [← rsvdOf_toNat, h]; rfl)

/-- A payload that fits has its length in LEN. -/
theorem payloadLen_toNat {p : List Byte} (h : payloadFits p = true) : (payloadLen p).toNat = p.length := by
  simp only [payloadFits, decide_eq_true_eq] at h
  rw [payloadLen, BitVec.toNat_ofNat, Nat.mod_eq_of_lt (by omega)]

@[simp] theorem bitsMsb_length (v n : Nat) : (bitsMsb v n).length = n := by
  induction n with
  | zero => rfl
  | succ n ih => simp [bitsMsb, ih]

@[simp] theorem bitsLsb_length (v n : Nat) : (bitsLsb v n).length = n := by
  induction n generalizing v with
  | zero => rfl
  | succ n ih => simp [bitsLsb, ih]

/-- Bit i of `bitsMsb`, counted from the front. -/
theorem bitsMsb_eq_map (v n : Nat) : bitsMsb v n = (List.range n).map (fun i => v.testBit (n - 1 - i)) := by
  induction n with
  | zero => rfl
  | succ n ih =>
    rw [bitsMsb, ih, List.range_succ_eq_map, List.map_cons, List.map_map]
    congr 1
    refine List.map_congr_left fun i _ => ?_
    simp only [Function.comp]; congr 1; omega

/-- Bit i of `bitsLsb`, counted from the front. -/
theorem bitsLsb_eq_map (v n : Nat) : bitsLsb v n = (List.range n).map (fun i => v.testBit i) := by
  induction n generalizing v with
  | zero => rfl
  | succ n ih =>
    rw [bitsLsb, ih, List.range_succ_eq_map, List.map_cons, List.map_map]
    congr 1
    refine List.map_congr_left fun i _ => ?_
    simp [Function.comp, Nat.testBit_succ]

@[simp] theorem natToBytes_length (v n : Nat) : (natToBytes v n).length = n := by
  induction n generalizing v with
  | zero => rfl
  | succ n ih => simp [natToBytes, ih]

/-- Bytes read back as the number they were taken from, as far as they go. -/
theorem bytesToNat_natToBytes (v n : Nat) : bytesToNat (natToBytes v n) = v % 256 ^ n := by
  induction n generalizing v with
  | zero => simp [natToBytes, bytesToNat, Nat.mod_one]
  | succ n ih =>
    simp only [natToBytes, bytesToNat, ih, BitVec.toNat_ofNat]
    rw [show 256 ^ (n + 1) = 256 * 256 ^ n by ring, Nat.mod_mul]

/-- Reading back the bits that `bitsMsb` lists. -/
theorem readMsb_bitsMsb (n v acc : Nat) (rest : List Bool) :
    readMsb n acc (bitsMsb v n ++ rest) = some (acc * 2 ^ n + v % 2 ^ n, rest) := by
  induction n generalizing acc with
  | zero => simp [readMsb, bitsMsb, Nat.mod_one]
  | succ n ih =>
    simp only [bitsMsb, List.cons_append, readMsb, ih]
    congr 2
    have h : v % 2 ^ (n + 1) = v % 2 ^ n + 2 ^ n * (v.testBit n).toNat := by
      rw [pow_succ, Nat.mod_mul, Nat.toNat_testBit]
    rw [h]; ring

/-- Reading back the bits that `bitsLsb` lists. -/
theorem readLsb_bitsLsb (n v : Nat) (rest : List Bool) :
    readLsb n (bitsLsb v n ++ rest) = some (v % 2 ^ n, rest) := by
  induction n generalizing v with
  | zero => simp [readLsb, bitsLsb, Nat.mod_one]
  | succ n ih =>
    simp only [bitsLsb, List.cons_append, readLsb, ih]
    congr 2
    rw [pow_succ, mul_comm (2 ^ n) 2, Nat.mod_mul, Nat.toNat_testBit]; simp

end Sys2Proof
end

