-- ==== Sys2Proof/Laws/HashIndex.lean ====
section
/-! SUPPORT. The growth of the index tables (41_hash_index.md R100), and what a choice of operation can be
(45_control.md R143). -/

namespace Sys2Proof.Machine

/-! ## Buckets (R100) -/

/-- A table never has fewer buckets than it starts with. -/
theorem floor_le_bucketsFor (floor n : Nat) : floor ≤ bucketsFor floor n := by
  induction n with
  | zero => exact Nat.le_refl _
  | succ n ih => simp only [bucketsFor]; split <;> omega

/-- Its load never passes 0.75. -/
theorem bucketsFor_load {floor : Nat} (h : 1 ≤ floor) (n : Nat) : 4 * n ≤ 3 * bucketsFor floor n := by
  induction n with
  | zero => omega
  | succ n ih =>
    have := floor_le_bucketsFor floor n
    simp only [bucketsFor]; split <;> omega

/-- One more entry doubles the buckets or leaves them. -/
theorem bucketsFor_succ (floor n : Nat) :
    bucketsFor floor (n + 1) = bucketsFor floor n ∨ bucketsFor floor (n + 1) = 2 * bucketsFor floor n := by
  simp only [bucketsFor]; split <;> simp

theorem tableBuckets_load {floor : Nat} (h : 1 ≤ floor) (s : State) (k : Nat) :
    floor ≤ tableBuckets floor s k ∧ 4 * tableEntries s k ≤ 3 * tableBuckets floor s k :=
  ⟨floor_le_bucketsFor _ _, bucketsFor_load h _⟩

/-! ## The operation a policy chooses (R143) -/

/-- A literal where the policy answers one, its match where that passes R135's checks, and otherwise the default's. -/
theorem chooseOp_eq (P : Policy) (res : List (Nat × Nat)) (s : State) :
    (P res = none → chooseOp P res s = none)
      ∧ ∀ m, P res = some m →
        (matchOk s (m.1 : Int) m.2 = true → chooseOp P res s = some m)
          ∧ (matchOk s (m.1 : Int) m.2 = false → chooseOp P res s = res.getLast?) := by
  refine ⟨fun h => by simp [chooseOp, h], fun m h => ⟨fun hm => by simp [chooseOp, h, hm], fun hm => ?_⟩⟩
  simp [chooseOp, h, hm, greedy]

theorem matchLenAt_congr {s t : State} (hr : t.ring = s.ring) (hc : t.cfg = s.cfg) (hH : t.H = s.H) (hB : t.B = s.B)
    (d : Int) (w : List Byte) : matchLenAt t d w = matchLenAt s d w := by
  rw [matchLenAt, matchLenAt, ringSeg_congr hr hc, distPos, distPos, segmentCount, segmentCount, hH, hB]

/-- R135's checks read the ring, the active sizes, H, B and the repeat cache alone. -/
theorem matchOk_congr {s t : State} (hr : t.ring = s.ring) (hc : t.cfg = s.cfg) (hH : t.H = s.H) (hB : t.B = s.B)
    (hp : t.rep = s.rep) (d : Int) (len : Nat) : matchOk t d len = matchOk s d len := by
  rw [matchOk, matchOk, bytesRepeat, bytesRepeat, matchLenAt_congr hr hc hH hB, ringSeg_congr hr hc, dictLen, dictLen,
    hc, hH, hB, hp]

/-- So does the choice of an operation: no configuration write, response, sink byte or IDX_BASE can change it
(10_state.md R15, R18, R37). -/
theorem chooseOp_congr {s t : State} (hr : t.ring = s.ring) (hc : t.cfg = s.cfg) (hH : t.H = s.H) (hB : t.B = s.B)
    (hp : t.rep = s.rep) (P : Policy) (res : List (Nat × Nat)) : chooseOp P res t = chooseOp P res s := by
  simp only [chooseOp, matchOk_congr hr hc hH hB hp]

end Sys2Proof.Machine
end

