-- ==== Sys2Proof/Laws/MatchFinder.lean ====
section
/-! SUPPORT. The search of FIND (42_match_finder.md R104) as one pass over its candidates. -/

namespace Sys2Proof.Machine

/-- One candidate, unless the search is done (R104, R105). -/
def considerOpen (s : State) (r : Search) (d : Nat) : Search := if r.done s then r else consider s r d

/-- A search that is done stays as it is. -/
theorem foldl_considerOpen_done (s : State) (ds : List Nat) {r : Search} (h : r.done s = true) :
    ds.foldl (considerOpen s) r = r := by
  induction ds with
  | nil => rfl
  | cons d ds ih => simpa [considerOpen, h] using ih

theorem searchChain_eq_foldl (s : State) (qs : List Nat) (r : Search) :
    searchChain s qs r = (qs.map (fun q => s.H - q)).foldl (considerOpen s) r := by
  induction qs generalizing r with
  | nil => rfl
  | cons q qs ih =>
    rw [searchChain, List.map_cons]
    split
    · next h => rw [foldl_considerOpen_done s _ h]
    · next h => rw [ih, List.foldl_cons, considerOpen, if_neg h]

theorem searchSingles_eq_foldl (T : HashTable) (s : State) (ks : List Nat) (r : Search) :
    searchSingles T s ks r = (ks.filterMap (singleCandidate T s)).foldl (considerOpen s) r := by
  induction ks generalizing r with
  | nil => rfl
  | cons k ks ih =>
    rw [searchSingles]
    split
    · next h => rw [foldl_considerOpen_done s _ h]
    · next h =>
      cases hc : singleCandidate T s k with
      | none => rw [List.filterMap_cons_none hc]; exact ih r
      | some d => rw [List.filterMap_cons_some hc, List.foldl_cons, considerOpen, if_neg h]; exact ih _

/-- The whole search: the single-entry candidates, then the chain's, in one pass (R104). -/
theorem search_eq_foldl (T : HashTable) (s : State) :
    search T s = ((singleLengths s).filterMap (singleCandidate T s)
      ++ (chainCandidates T s).map (fun q => s.H - q)).foldl (considerOpen s) Search.start := by
  rw [search, searchChain_eq_foldl, searchSingles_eq_foldl, List.foldl_append]

end Sys2Proof.Machine
end

