-- ==== Sys2Proof/Laws/PerInstr.lean ====
section
/-! SUPPORT. What holds of the code of every instruction, constructor by constructor. -/

namespace Sys2Proof.Laws.Coded

/-- A command's code is a word with RSVD 0 whose opcode carries a payload wherever there is one; a packet's code is its
packet's decision bits, and that packet is the instruction (30_encoding.md R63, R64, R75). -/
def Statement (i : Instr) : Prop :=
  match encode i with
  | .command w p => i.isCommand = true ∧ opcOf w = i.opcode ∧ rsvdOf w = 0 ∧ (carriesPayload (opcOf w) = true ∨ p = [])
  | .packet bits => ∃ p, i.packet? = some p ∧ p.instr = i ∧ bits = packetBits p

theorem init : Statement .init := ⟨rfl, rfl, rsvdOf_mkWord _ _ _ _, .inr rfl⟩
theorem regRead (r : Byte) : Statement (.regRead r) := ⟨rfl, rfl, rsvdOf_mkWord _ _ _ _, .inr rfl⟩
theorem regWrite (r : Byte) (v : Word64) : Statement (.regWrite r v) := ⟨rfl, rfl, rsvdOf_mkWord _ _ _ _, .inr rfl⟩
theorem sinkOpen (limit : Word64) : Statement (.sinkOpen limit) := ⟨rfl, rfl, rsvdOf_mkWord _ _ _ _, .inr rfl⟩
theorem write (payload : List Byte) : Statement (.write payload) :=
  ⟨rfl, rfl, rsvdOf_mkWord _ _ _ _, .inl (by rw [opcOf_mkWord]; rfl)⟩
theorem byteAt (d : Word64) : Statement (.byteAt d) := ⟨rfl, rfl, rsvdOf_mkWord _ _ _ _, .inr rfl⟩
theorem segment (d : Word64) (n : Word32) : Statement (.segment d n) := ⟨rfl, rfl, rsvdOf_mkWord _ _ _ _, .inr rfl⟩
theorem matchLen (d : Word64) (needle : List Byte) : Statement (.matchLen d needle) :=
  ⟨rfl, rfl, rsvdOf_mkWord _ _ _ _, .inl (by rw [opcOf_mkWord]; rfl)⟩
theorem discard (n : Word32) : Statement (.discard n) := ⟨rfl, rfl, rsvdOf_mkWord _ _ _ _, .inr rfl⟩
theorem copyN (n : Word32) : Statement (.copyN n) := ⟨rfl, rfl, rsvdOf_mkWord _ _ _ _, .inr rfl⟩
theorem hash (k : Byte) (payload : List Byte) : Statement (.hash k payload) :=
  ⟨rfl, rfl, rsvdOf_mkWord _ _ _ _, .inl (by rw [opcOf_mkWord]; rfl)⟩
theorem find : Statement .find := ⟨rfl, rfl, rsvdOf_mkWord _ _ _ _, .inr rfl⟩
theorem skip (n : Word32) : Statement (.skip n) := ⟨rfl, rfl, rsvdOf_mkWord _ _ _ _, .inr rfl⟩
theorem encLit : Statement .encLit := ⟨rfl, rfl, rsvdOf_mkWord _ _ _ _, .inr rfl⟩
theorem encMatch (d : Word64) (len : Word32) : Statement (.encMatch d len) :=
  ⟨rfl, rfl, rsvdOf_mkWord _ _ _ _, .inr rfl⟩
theorem encEos : Statement .encEos := ⟨rfl, rfl, rsvdOf_mkWord _ _ _ _, .inr rfl⟩
theorem rcFlush : Statement .rcFlush := ⟨rfl, rfl, rsvdOf_mkWord _ _ _ _, .inr rfl⟩
theorem compress (all : Bool) (n : Word32) : Statement (.compress all n) :=
  ⟨rfl, rfl, rsvdOf_mkWord _ _ _ _, .inr rfl⟩
theorem close : Statement .close := ⟨rfl, rfl, rsvdOf_mkWord _ _ _ _, .inr rfl⟩
theorem pktLit (x : Byte) : Statement (.pktLit x) := ⟨_, rfl, rfl, rfl⟩
theorem pktMatch (d0 : Word32) (len : Nat) : Statement (.pktMatch d0 len) := ⟨_, rfl, rfl, rfl⟩
theorem pktShortRep : Statement .pktShortRep := ⟨_, rfl, rfl, rfl⟩
theorem pktLongRep0 (len : Nat) : Statement (.pktLongRep0 len) := ⟨_, rfl, rfl, rfl⟩
theorem pktLongRep1 (len : Nat) : Statement (.pktLongRep1 len) := ⟨_, rfl, rfl, rfl⟩
theorem pktLongRep2 (len : Nat) : Statement (.pktLongRep2 len) := ⟨_, rfl, rfl, rfl⟩
theorem pktLongRep3 (len : Nat) : Statement (.pktLongRep3 len) := ⟨_, rfl, rfl, rfl⟩
theorem pktEos : Statement .pktEos := ⟨_, rfl, rfl, rfl⟩

end Sys2Proof.Laws.Coded
end

