-- ==== Sys2Proof/Tests/Slice0.lean ====
section
/-! SUPPORT. The model's own tests: ill-formed terms, words written out from 30_encoding.md R62 and R67, single steps
whose results 95_test_vectors.md gives, and a witness for the hypotheses of every obligation. -/

namespace Sys2Proof.Tests

open Sys2Proof Sys2Proof.Machine

/-! ## Well-formedness: each check refuses its ill-formed term -/

theorem test_wf_regRead_gap : (Instr.regRead 0x0C).wf = false := by decide
theorem test_wf_regRead_top : (Instr.regRead 0x3C).wf = false := by decide
theorem test_wf_regWrite_readOnly : (Instr.regWrite 0x10 0).wf = false := by decide
theorem test_wf_write_long (n : Nat) (h : 4294967296 ≤ n) : (Instr.write (List.replicate n 0)).wf = false := by
  simp [Instr.wf, payloadFits, h]
theorem test_wf_matchLen_long (n : Nat) (h : 4294967296 ≤ n) : (Instr.matchLen 1 (List.replicate n 0)).wf = false := by
  simp [Instr.wf, payloadFits, h]
theorem test_wf_hash_long (n : Nat) (h : 4294967296 ≤ n) : (Instr.hash 4 (List.replicate n 0)).wf = false := by
  simp [Instr.wf, payloadFits, h]
theorem test_wf_pktMatch_sentinel : (Instr.pktMatch 0xFFFFFFFF 2).wf = false := by decide
theorem test_wf_pktMatch_short : (Instr.pktMatch 5 1).wf = false := by decide
theorem test_wf_pktLongRep0_long : (Instr.pktLongRep0 274).wf = false := by decide
theorem test_wf_pktLongRep1_short : (Instr.pktLongRep1 1).wf = false := by decide
theorem test_wf_pktLongRep2_long : (Instr.pktLongRep2 274).wf = false := by decide
theorem test_wf_pktLongRep3_zero : (Instr.pktLongRep3 0).wf = false := by decide

/-! ## Decoding: DIST_LEN_RSVD_SUB_OPC words of 30_encoding.md R71, payload bytes above bit 128 -/

theorem test_decode_init : decodeTableWord 128 0x0000000000000000_00000000_0000_00_01 = some .init := by decide
theorem test_decode_regRead :
    decodeTableWord 128 0x0000000000000000_00000000_0000_24_02 = some (.regRead 0x24) := by decide
theorem test_decode_regWrite :
    decodeTableWord 128 0xFEDCBA9876543210_00000000_0000_0B_03 = some (.regWrite 0x0B 0xFEDCBA9876543210) := by decide
theorem test_decode_sinkOpen :
    decodeTableWord 128 0x00000000000003E8_00000000_0000_00_04 = some (.sinkOpen 1000) := by decide
theorem test_decode_write :
    decodeTableWord 168 0x616C6C6162_0000000000000000_00000005_0000_00_10
      = some (.write [0x62, 0x61, 0x6C, 0x6C, 0x61]) := by decide
theorem test_decode_byteAt :
    decodeTableWord 128 0xFFFFFFFFFFFFFFFF_00000000_0000_00_11 = some (.byteAt 0xFFFFFFFFFFFFFFFF) := by decide
theorem test_decode_segment :
    decodeTableWord 128 0x0000000000000004_0000000A_0000_00_12 = some (.segment 4 10) := by decide
theorem test_decode_matchLen :
    decodeTableWord 136 0x61_0000000000000005_00000001_0000_00_13 = some (.matchLen 5 [0x61]) := by decide
theorem test_decode_discard :
    decodeTableWord 128 0x0000000000000000_80000001_0000_00_14 = some (.discard 0x80000001) := by decide
theorem test_decode_copyN :
    decodeTableWord 128 0x0000000000000000_0000000A_0000_00_15 = some (.copyN 10) := by decide
theorem test_decode_hash :
    decodeTableWord 144 0x6261_0000000000000000_00000002_0000_05_20 = some (.hash 5 [0x61, 0x62]) := by decide
theorem test_decode_find : decodeTableWord 128 0x0000000000000000_00000000_0000_00_21 = some .find := by decide
theorem test_decode_skip :
    decodeTableWord 128 0x0000000000000000_0000000D_0000_00_22 = some (.skip 13) := by decide
theorem test_decode_encLit : decodeTableWord 128 0x0000000000000000_00000000_0000_00_30 = some .encLit := by decide
theorem test_decode_encMatch :
    decodeTableWord 128 0x000000000000000A_00000002_0000_00_31 = some (.encMatch 10 2) := by decide
theorem test_decode_encEos : decodeTableWord 128 0x0000000000000000_00000000_0000_00_32 = some .encEos := by decide
theorem test_decode_rcFlush : decodeTableWord 128 0x0000000000000000_00000000_0000_00_33 = some .rcFlush := by decide
theorem test_decode_compress :
    decodeTableWord 128 0x0000000000000000_00000003_0000_01_40 = some (.compress true 3) := by decide
theorem test_decode_close : decodeTableWord 128 0x0000000000000000_00000000_0000_00_41 = some .close := by decide

/-- PKT_LIT, prefix 0, then 0x62 = 01100010 most significant first (R76). -/
theorem test_decode_pktLit :
    decodePacket [false, false, true, true, false, false, false, true, false] = some (.lit 0x62, []) := by decide
/-- PKT_MATCH, prefix 10; length 5: n = 3, CHOICE 0, 011; distance 7: slot 5 = 000101, footer 1. -/
theorem test_decode_pktMatch :
    decodePacket [true, false, false, false, true, true, false, false, false, true, false, true, true]
      = some (.simpleMatch 7 5, []) := by decide
/-- PKT_SHORTREP, 1100, with a decision of the next packet left. -/
theorem test_decode_pktShortRep : decodePacket [true, true, false, false, true] = some (.shortRep, [true]) := by decide
/-- PKT_LONGREP0, 1101; length 10: n = 8, CHOICE 1, CHOICE2 0, 000. -/
theorem test_decode_pktLongRep0 :
    decodePacket [true, true, false, true, true, false, false, false, false] = some (.longRep 0 10, []) := by decide
/-- PKT_LONGREP1, 1110; length 273: n = 271, CHOICE 1, CHOICE2 1, 255. -/
theorem test_decode_pktLongRep1 :
    decodePacket [true, true, true, false, true, true, true, true, true, true, true, true, true, true]
      = some (.longRep 1 273, []) := by decide
/-- PKT_LONGREP2, 11110; length 2: CHOICE 0, 000. -/
theorem test_decode_pktLongRep2 :
    decodePacket [true, true, true, true, false, false, false, false, false] = some (.longRep 2 2, []) := by decide
/-- PKT_LONGREP3, 11111; length 9: CHOICE 0, 111. -/
theorem test_decode_pktLongRep3 :
    decodePacket [true, true, true, true, true, false, true, true, true] = some (.longRep 3 9, []) := by decide
/-- PKT_EOS: a PKT_MATCH of length 2 whose slot, direct and align bits are all 1 (95_test_vectors.md M2). -/
theorem test_decode_pktEos :
    decodePacket ([true, false, false, false, false, false] ++ List.replicate 6 true ++ List.replicate 26 true
      ++ List.replicate 4 true) = some (.eos, []) := by decide

/-- A distance of slot 14, 0x87: 2 direct bits 00, then the align bits of 7 = 0111, least significant first (M2). -/
theorem test_decode_align :
    decodePacket ([true, false, false, false, false, false] ++ [false, false, true, true, true, false]
      ++ [false, false] ++ [true, true, true, false]) = some (.simpleMatch 0x87 2, []) := by decide

/-- Opcode 0, RSVD, and a bit above ALL do not decode (R63, R68; P7). -/
theorem test_decode_refuses :
    decodeTableWord 128 0x00 = none ∧ decodeTableWord 128 0x0001_00_01 = none
      ∧ decodeTableWord 128 0x0000_02_40 = none ∧ decodeTableWord 128 0x0000_0C_02 = none := by decide

/-- A response's bytes (R65): status, 7 zeros, count, value, items. -/
theorem test_serialise_response :
    serialiseResponse ⟨.range, 0x0102, 3, [0x0A]⟩ =
      [3, 0, 0, 0, 0, 0, 0, 0, 2, 1, 0, 0, 0, 0, 0, 0, 3, 0, 0, 0, 0, 0, 0, 0, 0x0A, 0, 0, 0, 0, 0, 0, 0] := by decide

/-! ## Single steps -/

/-- The configuration of the vectors: the reset registers with CFG_DICT_CAP = 64 (95_test_vectors.md). -/
def cap64 : Cfg := { Cfg.pendingReset with dictCap := 64 }

/-- A session on a configuration. -/
def session (c : Cfg) : State := startSession { State.reset with cfgPending := c }

/-- A session that has written bytes and moved `h` of them into history. -/
def holding (c : Cfg) (bytes : List Byte) (h : Nat) : State :=
  { session c with
    ring := ringWriteAll (c.dictCap.toNat + c.laCap.toNat) [] 0 bytes, H := h, B := bytes.length - h }

/-- The same with an open sink. -/
def sinking (limit : Nat) (s : State) : State := { s with coder := openSink limit s.coder }

/-- The state after an outcome. -/
def after (o : Host.Outcome State Fault Refusal) : State :=
  match o with
  | .next t => t
  | .fault _ => State.reset
  | .refused _ => State.reset

/-- The last response of an outcome. -/
def answer (o : Host.Outcome State Fault Refusal) : Option Response := (after o).responses.getLast?

/-- 'abcdefgh' written and 6 bytes discarded, DICT_CAP 4 and LA_CAP 273: the state after D2. -/
def afterD2 : State := holding { Cfg.pendingReset with dictCap := 4, laCap := 273 }
  [0x61, 0x62, 0x63, 0x64, 0x65, 0x66, 0x67, 0x68] 6

/-- The test hash table's generator (95_test_vectors.md section 2). -/
def tableSeed : Nat → Nat
  | 0 => 0x12345678
  | n + 1 => (tableSeed n * 1103515245 + 12345) % 4294967296

/-- The test hash table (95_test_vectors.md section 2). -/
def testTable (b : Byte) : Word32 :=
  BitVec.ofNat 32 (tableSeed (b.toNat + 1)) ^^^ BitVec.ofNat 32 (tableSeed (b.toNat + 1) / 65536)
    ^^^ BitVec.ofNat 32 (b.toNat * 0x9E3779B9)

/-- The bytes of the newest sink. -/
def sinkBytes (s : State) : List Byte := s.coder.sinks.headD []

theorem test_table_entry : testTable 0x61 = 0x037BEEB1#32 := by decide +kernel

/-- Boot without step 2: CONFIG (P6 step 2). -/
theorem test_init_config : answer (exec .init State.reset) = some ⟨.config, 0, 0, []⟩ := by decide
/-- After INIT, AVAILABLE reads 4160 and STATUS 0x900 (45_control.md R140). -/
theorem test_init_session :
    (after (exec .init { State.reset with cfgPending := cap64 })).cfg = cap64
      ∧ regValue (after (exec .init { State.reset with cfgPending := cap64 })) 0x15 = 4160
      ∧ regValue (after (exec .init { State.reset with cfgPending := cap64 })) 0x11 = 0x900 := by decide
theorem test_regRead_id :
    answer (exec (.regRead 0x10) State.reset) = some ⟨.ok, 0, 0x000000014C5A4D41, []⟩ := by decide
/-- HEADROOM is -5 and IDX_BASE -1 at reset (10_state.md R17). -/
theorem test_regRead_reset :
    answer (exec (.regRead 0x24) State.reset) = some ⟨.ok, 0, 0xFFFFFFFFFFFFFFFB, []⟩
      ∧ answer (exec (.regRead 0x23) State.reset) = some ⟨.ok, 0, 0xFFFFFFFFFFFFFFFF, []⟩ := by decide
/-- `REG_WRITE CFG_DEPTH, 4` is pending only (45_control.md R142). -/
theorem test_regWrite_pending :
    regValue (after (exec (.regWrite 0x08 4) (session cap64))) 0x08 = 4
      ∧ regValue (after (exec (.regWrite 0x08 4) (session cap64))) 0x38 = 16 := by decide
/-- `SINK_OPEN 1000` leaves SINK_REM 1000 and HEADROOM 995 (43_range_coder.md R123). -/
theorem test_sinkOpen_1000 :
    regValue (after (exec (.sinkOpen 1000) (session cap64))) 0x21 = 1000
      ∧ regValue (after (exec (.sinkOpen 1000) (session cap64))) 0x24 = 995 := by decide
theorem test_sinkOpen_negative :
    answer (exec (.sinkOpen 0xFFFFFFFFFFFFFFFF) (session cap64)) = some ⟨.range, 0, 0, []⟩ := by decide
/-- WRITE 'balla' gives count 5, B = 5 and AVAILABLE 4155 (40_dictionary.md R79). -/
theorem test_write_balla :
    answer (exec (.write [0x62, 0x61, 0x6C, 0x6C, 0x61]) (session cap64)) = some ⟨.ok, 5, 0, []⟩
      ∧ regValue (after (exec (.write [0x62, 0x61, 0x6C, 0x6C, 0x61]) (session cap64))) 0x15 = 4155 := by decide
/-- On a ring of 5 cells, the window of 2 stays and only 2 bytes fit: NO_SPACE (D14's shape). -/
theorem test_write_noSpace :
    answer (exec (.write [1, 2, 3])
      (holding { Cfg.pendingReset with dictCap := 2, laCap := 3 } [7, 8, 9, 10] 3)) = some ⟨.noSpace, 2, 0, []⟩ := by
  decide
theorem test_byteAt_oldest : answer (exec (.byteAt 4) afterD2) = some ⟨.ok, 0, 0x63, []⟩ := by decide
theorem test_byteAt_outside : answer (exec (.byteAt 5) afterD2) = some ⟨.ok, 0, 0, []⟩ := by decide
theorem test_segment_clipped :
    answer (exec (.segment 4 10) afterD2) = some ⟨.ok, 6, 0, [0x63, 0x64, 0x65, 0x66, 0x67, 0x68]⟩ := by decide
/-- D18: SEGMENT 5,1 faults, and STATUS reads 0x12030B03. -/
theorem test_segment_range : statusWord (after (exec (.segment 5 1) afterD2)) = 0x12030B03 := by decide
theorem test_matchLen_across_head :
    answer (exec (.matchLen 4 [0x63, 0x64, 0x65, 0x66, 0x67, 0x68, 0x21]) afterD2) = some ⟨.ok, 0, 6, []⟩ := by decide
theorem test_matchLen_range : statusWord (after (exec (.matchLen 0 [0x61]) afterD2)) = 0x13030B03 := by decide
theorem test_discard_clipped :
    answer (exec (.discard 10) afterD2) = some ⟨.ok, 2, 0, []⟩ ∧ (after (exec (.discard 10) afterD2)).H = 8 := by decide
/-- COPYN 10 of a window of 4: NO_SPACE, 4 bytes, oldest first (D16). -/
theorem test_copyN_shortfall :
    answer (exec (.copyN 10) (sinking 100 afterD2)) = some ⟨.noSpace, 4, 0, []⟩
      ∧ sinkBytes (after (exec (.copyN 10) (sinking 100 afterD2))) = [0x63, 0x64, 0x65, 0x66] := by decide
theorem test_copyN_limit : answer (exec (.copyN 3) (sinking 2 afterD2)) = some ⟨.limit, 0, 0, []⟩ := by decide
/-- HASH 3,'abcabc' (I4). -/
theorem test_hash_windows :
    (hashBody testTable 3 [0x61, 0x62, 0x63, 0x61, 0x62, 0x63] (session cap64)).responses
      = [⟨.ok, 4, 0, [0x8D86DF64, 0x03A925F0, 0xC9E58D27, 0x8D86DF64]⟩] := by decide +kernel
/-- HASH 5,'abcde' (I6). -/
theorem test_hash_range :
    statusWord (after (exec (.hash 5 [0x61, 0x62, 0x63, 0x64, 0x65]) (session cap64))) = 0x20030B03 := by decide
/-- FIND of R104's example: "aaaa" with position 0 indexed and consumed. -/
theorem test_find_aaaa :
    (findBody testTable (skipBody testTable 1 (holding cap64 [0x61, 0x61, 0x61, 0x61] 0))).responses
      = [⟨.ok, 1, 0, [0x0000000300000001]⟩] := by decide +kernel
/-- SKIP 1 after FIND inserts nothing (42_match_finder.md R108). -/
theorem test_skip_after_find :
    (skipBody testTable 1 (indexHead testTable (holding cap64 [0x61, 0x61, 0x61, 0x61] 0))).index
        = (indexHead testTable (holding cap64 [0x61, 0x61, 0x61, 0x61] 0)).index
      ∧ (skipBody testTable 1 (indexHead testTable (holding cap64 [0x61, 0x61, 0x61, 0x61] 0))).ahead = 0 := by decide +kernel
/-- The first rebase (I7): inserting 2^32 - 1 with H = 2^32 - 3 moves IDX_BASE to 0xFFFFFFF4. -/
theorem test_rebase_I7 :
    rebased { session { cap64 with dictCap := 8, laCap := 273 } with H := 4294967293, B := 8 } 4294967295
        = 0xFFFFFFF4
      ∧ rebased { session { cap64 with dictCap := 8, laCap := 273 } with H := 4294967293, B := 8 } 4294967294
        = -1 := by decide
/-- ENC_LIT of P1: OK, count 1, PEND 1, LZ_STATE 0. -/
theorem test_encLit_first :
    answer (exec .encLit (sinking 1000 (holding cap64 [0x62, 0x61] 0))) = some ⟨.ok, 1, 0, []⟩
      ∧ (after (exec .encLit (sinking 1000 (holding cap64 [0x62, 0x61] 0)))).pend = 1
      ∧ (after (exec .encLit (sinking 1000 (holding cap64 [0x62, 0x61] 0)))).lzState = 0 := by decide
/-- HEADROOM 19 is below 20: nothing is coded (P5). -/
theorem test_encLit_limit :
    answer (exec .encLit (sinking 24 (holding cap64 [0x62, 0x61] 0))) = some ⟨.limit, 0, 0, []⟩ := by decide
/-- ENC_MATCH 1,3 of P2 is a LONGREP0: LZ_STATE 8, rep unchanged, PEND 3. -/
theorem test_encMatch_longRep0 :
    (after (exec (.encMatch 1 3) (sinking 100 (holding cap64 [0x61, 0x61, 0x61, 0x61] 1)))).lzState = 8
      ∧ (after (exec (.encMatch 1 3) (sinking 100 (holding cap64 [0x61, 0x61, 0x61, 0x61] 1)))).rep = Reps.zero
      ∧ (after (exec (.encMatch 1 3) (sinking 100 (holding cap64 [0x61, 0x61, 0x61, 0x61] 1)))).pend = 3 := by decide
/-- d = dictLen + 1 is RANGE (44_lzma_model.md R135). -/
theorem test_encMatch_range :
    answer (exec (.encMatch 2 2) (sinking 100 (holding cap64 [0x61, 0x61, 0x61, 0x61] 1)))
      = some ⟨.range, 0, 0, []⟩ := by decide
/-- ENC_EOS then the flush emit the stream of P4. -/
theorem test_encEos_stream :
    (rcFlushBody (after (exec .encEos (sinking 100 (session cap64)))).coder).sinks
      = [[0x00, 0x83, 0xFF, 0xFB, 0xFF, 0xFF, 0xC0, 0x00, 0x00, 0x00]] := by decide +kernel
/-- The empty stream (R12). -/
theorem test_rcFlush_empty :
    answer (exec .rcFlush (sinking 5 (session cap64))) = some ⟨.ok, 5, 0, []⟩
      ∧ sinkBytes (after (exec .rcFlush (sinking 5 (session cap64)))) = [0, 0, 0, 0, 0] := by decide
theorem test_rcFlush_limit : answer (exec .rcFlush (sinking 4 (session cap64))) = some ⟨.limit, 0, 0, []⟩ := by decide
/-- COMPRESS of P3: four operations, nine bytes. -/
theorem test_compress_P3 :
    (compressBody testTable greedy true 0
      (sinking 100 (holding { cap64 with wordLen := 3 }
        [0x61, 0x62, 0x63, 0x61, 0x62, 0x63, 0x61, 0x62, 0x63] 0))).responses = [⟨.ok, 4, 9, []⟩] := by decide +kernel
/-- Without ALL, fewer than 273 bytes are left alone (45_control.md R144). -/
theorem test_compress_threshold :
    answer (exec (.compress false 0) (sinking 100 (holding cap64 [0x62, 0x61] 0))) = some ⟨.ok, 0, 0, []⟩ := by decide
/-- CLOSE of P1: the "balla" stream. -/
theorem test_close_balla :
    sinkBytes (closeBody testTable greedy
        (sinking 1000 (holding { cap64 with depth := 4 } [0x62, 0x61, 0x6C, 0x6C, 0x61] 0)))
      = [0x00, 0x31, 0x18, 0x49, 0xDB, 0x84, 0x61, 0xED, 0x3E, 0x40] := by decide +kernel
/-- CLOSE with a sink of 4: LIMIT, nothing emitted (P5). -/
theorem test_close_limit :
    answer (exec .close (sinking 4 (session cap64))) = some ⟨.limit, 0, 0, []⟩ := by decide

/-- A state in the middle of P8: lzState 10 and rep [4, 9, 0, 1]. -/
def midP8 : State := { sinking 100 (session cap64) with lzState := 10, rep := ⟨4, 9, 0, 1⟩ }

theorem test_pktLit_state : (after (exec (.pktLit 0x61) midP8)).lzState = 4 := by decide
theorem test_pktMatch_push : (after (exec (.pktMatch 7 2) midP8)).rep = ⟨7, 4, 9, 0⟩ := by decide
theorem test_pktShortRep_state :
    (after (exec .pktShortRep midP8)).lzState = 11 ∧ (after (exec .pktShortRep midP8)).rep = ⟨4, 9, 0, 1⟩ := by decide
theorem test_pktLongRep0_state :
    (after (exec (.pktLongRep0 2) midP8)).lzState = 11 ∧ (after (exec (.pktLongRep0 2) midP8)).rep = ⟨4, 9, 0, 1⟩ := by
  decide
theorem test_pktLongRep1_promotes : (after (exec (.pktLongRep1 2) midP8)).rep = ⟨9, 4, 0, 1⟩ := by decide
theorem test_pktLongRep2_promotes : (after (exec (.pktLongRep2 2) midP8)).rep = ⟨0, 4, 9, 1⟩ := by decide
/-- Step 9 of P8. -/
theorem test_pktLongRep3_promotes : (after (exec (.pktLongRep3 2) midP8)).rep = ⟨1, 4, 9, 0⟩ := by decide
theorem test_pktEos_state :
    (after (exec .pktEos midP8)).lzState = 10 ∧ (after (exec .pktEos midP8)).rep = ⟨0xFFFFFFFF, 4, 9, 0⟩ := by decide

/-! ## The range coder's vectors (95_test_vectors.md R1 to R14) and the step -/

/-- R1 and R2. -/
theorem test_encBit_half :
    (encBit 0 false Coder.reset).rcRange = 0x7FFFFC00 ∧ (encBit 0 false Coder.reset).probs.read 0 = 1056
      ∧ (encBit 0 true Coder.reset).rcLow = 0x7FFFFC00 ∧ (encBit 0 true Coder.reset).rcRange = 0x800003FF
      ∧ (encBit 0 true Coder.reset).probs.read 0 = 992 := by decide
/-- R3 and R5: the ends of a cell's range. -/
theorem test_encBit_ends :
    (encBit 0 true { Coder.reset with probs := [(0, 31)] }).rcRange = 0xFC20001E
      ∧ (encBit 0 true { Coder.reset with probs := [(0, 31)] }).probs.read 0 = 31
      ∧ (encBit 0 false { Coder.reset with probs := [(0, 2017)] }).rcRange = 0xFC1FF81F
      ∧ (encBit 0 false { Coder.reset with probs := [(0, 2017)] }).probs.read 0 = 2017 := by decide
/-- R7. -/
theorem test_encDirect_1011 :
    (codeAll (directMsb 4 0b1011) Coder.reset).rcRange = 0x0FFFFFFF
      ∧ (codeAll (directMsb 4 0b1011) Coder.reset).rcLow = 0xAFFFFFFD := by decide
/-- R10: a carry turns AB FF into AC 00. -/
theorem test_shiftLow_carry :
    (shiftLow { Coder.reset with
        rcLow := 0x100123456, rcCache := 0xAB, rcCacheSize := 2, sinkRem := 9, sinks := [[]] }).sinks = [[0xAC, 0x00]]
      ∧ (shiftLow { Coder.reset with
        rcLow := 0x100123456, rcCache := 0xAB, rcCacheSize := 2, sinkRem := 9, sinks := [[]] }).rcLow = 0x12345600 := by
  decide
/-- R9: a byte that a carry could still change is held back. -/
theorem test_shiftLow_holds :
    (shiftLow { Coder.reset with rcLow := 0xFF123456, rcCache := 0xAB, sinkRem := 9, sinks := [[]] }).sinks = [[]]
      ∧ (shiftLow { Coder.reset with rcLow := 0xFF123456, rcCache := 0xAB, sinkRem := 9 }).rcCacheSize = 2 := by decide
/-- R14, in the ALIGN tree. -/
theorem test_treeLsb_5 :
    (codeAll (treeLsb ProbCell.align 4 5) Coder.reset).rcLow = 0x9FFFFC00
      ∧ (codeAll (treeLsb ProbCell.align 4 5) Coder.reset).rcRange = 0x10000000 := by decide
/-- M2: the slot of the sentinel and of the first direct distance. -/
theorem test_distSlot_ends : distSlot 0xFFFFFFFF = 63 ∧ distSlot 0x80 = 14 ∧ distSlot 6 = 5 := by decide
/-- M3: LC 3, LP 0, after 'b'. -/
theorem test_litState_b : litStateOf (holding cap64 [0x62, 0x61] 1) = 3 := by decide
/-- P7: opcode 0 and INIT with RSVD = 1, from hardware reset. -/
theorem test_step_illegal :
    statusWord (after (step { State.reset with inbox := [.command 0x00 []] })) = 0x00050205
      ∧ statusWord (after (step { State.reset with inbox := [.command 0x00010001 []] })) = 0x01050205 := by decide
/-- A step takes hardware reset and idles with nothing waiting. -/
theorem test_step_reset :
    after (step { afterD2 with inbox := [.reset] }) = State.reset ∧ after (step afterD2) = afterD2 := by decide
/-- A table word placed as the next command is the one the step runs: NOT_INIT for FIND at reset (P6 step 1). -/
theorem test_step_fetchWord : answer (step (State.reset.withFetchWord 128 0x21)) = some ⟨.notInit, 0, 0, []⟩ := by
  decide
/-- FIND's response gives STEP its match (30_encoding.md R74). -/
theorem test_pseudo_step :
    pseudoStepAfterFind [0x0000000200000002, 0x0000000400000007] = [.encMatch 7 4, .skip 4]
      ∧ pseudoStepAfterFind [] = [.encLit, .skip 1] := by decide

/-! ## Witnesses: states and operands that meet each obligation's hypotheses, clause by clause -/

/-- "aaaa" with position 0 indexed and consumed, DICT_CAP 4, WORDLEN 3, an open sink of 100; every key is 0. -/
def demo : State :=
  { sinking 100 (holding { cap64 with dictCap := 4, laCap := 273, wordLen := 3 } [0x61, 0x61, 0x61, 0x61] 1) with
    index := ⟨[(0, 0)], [], [(0, [0])]⟩ }

/-- A head past the ring's end: H = 300 with L = 277, a full window and one look-ahead byte. -/
def demoWrapped : State :=
  { session { cap64 with dictCap := 4, laCap := 273 } with
    ring := ringWriteAll 277 [] 296 [1, 2, 3, 4, 5], H := 300, B := 1 }

/-- The state of I7: H = 2^32 - 3, where an insertion rebases. -/
def demoRebase : State :=
  { session { cap64 with dictCap := 8, laCap := 273 } with
    ring := ringWriteAll 281 [] 4294967285 [0, 1, 2, 3, 4, 5, 6, 7, 8, 9, 10, 11, 12, 13, 14, 15]
    H := 4294967293, B := 8 }

/-- A session with a fault latched. -/
def demoFaulted : State := { demo with faulted := true, faultCode := 3, faultOpc := 0x12 }

theorem coderInv_reset : CoderInv Coder.reset :=
  ⟨by decide, by decide, by decide, by decide, by decide, by decide, by decide, by decide⟩

theorem coderInv_demo : CoderInv demo.coder :=
  ⟨by decide, by decide, by decide, by decide, by decide, by decide, by decide, by decide⟩

theorem inv_demo : Inv demo := by
  constructor <;> first | exact coderInv_demo | decide

theorem inv_demoWrapped : Inv demoWrapped := by
  constructor <;> first | exact coderInv_reset | decide

theorem inv_demoRebase : Inv demoRebase := by
  constructor <;> first | exact coderInv_reset | decide

theorem ready_demo : ready demo := by decide
theorem encodeReady_demo : encodeReady demo := by decide

theorem witness_DecodeEncodeRoundTrip : (Instr.pktMatch 0xFFFFFFFE 273).wf = true ∧ (Instr.pktMatch 0 2).wf = true := by
  decide
theorem witness_DecodeDropsNoBit : decode 0x000000000000000A0000000200000031#128 [] = .ok (.encMatch 10 2) := rfl
/-- Each list of R152 has an illegal word, and FIND's word none of them. -/
theorem witness_IllegalWords :
    decode 0x10000#128 [] = .error .opcode ∧ decode 0x21#128 [] = .ok .find
      ∧ decode 0x10021#128 [] = .error .reserved ∧ decode 0x0C02#128 [] = .error .register
      ∧ decode 0x0C03#128 [] = .error .register ∧ decode 0x0240#128 [] = .error .unusedField
      ∧ decode 0x0121#128 [] = .error .unusedField ∧ decode 0x100000021#128 [] = .error .unusedField
      ∧ decode 0x100000010#128 [] = .error .payload ∧ decode 0x21#128 [1] = .error .payload :=
  ⟨rfl, rfl, rfl, rfl, rfl, rfl, rfl, rfl, rfl, rfl⟩
theorem witness_SerialisedStreamSplits :
    [0x61#8, 0x62].length = (if (opcOf 0x200000010#128).toNat ∈ [0x10, 0x13, 0x20]
        then (lenOf 0x200000010#128).toNat else 0)
      ∧ ([] : List Byte).length = (if (opcOf 0x21#128).toNat ∈ [0x10, 0x13, 0x20]
        then (lenOf 0x21#128).toNat else 0) := by decide
theorem witness_PacketsSelfDelimit :
    Packet.wf (.longRep 3 273) = true ∧ Packet.wf (.simpleMatch 0xFFFFFFFE 2) = true ∧ Packet.wf .eos = true := by decide
/-- Lengths 2, 10 and 18, distances 3, 4 and 128 (slots 3, 4 and 14), and the two functions of the prefix clause. -/
theorem witness_DecisionsSpellThePacket :
    0 = 2 - 2 ∧ 8 = 10 - 2 ∧ 16 = 18 - 2 ∧ 3 = distSlot 3 ∧ 4 = distSlot 4 ∧ 14 = distSlot 128
      ∧ ∀ k : Context, ∃ (isM : Bool → Decision) (rep : List Bool → List Decision),
        (∀ b, isM b = .adaptive (.isMatch k.st k.ps) b)
          ∧ ∀ g0 g, rep (g0 :: g) = isM true :: .adaptive (.isRep k.st) true :: .adaptive (.isRepG0 k.st) g0 ::
            (if g0 then (List.zipWith Decision.adaptive [.isRepG1 k.st, .isRepG2 k.st] g)
              else (List.zipWith Decision.adaptive [.isRep0Long k.st k.ps] g)) :=
  ⟨by decide, by decide, by decide, by decide, by decide, by decide, fun k =>
    ⟨fun b => .adaptive (.isMatch k.st k.ps) b, fun g => .adaptive (.isMatch k.st k.ps) true
        :: .adaptive (.isRep k.st) true :: .adaptive (.isRepG0 k.st) g.head!
        :: (if g.head! then (List.zipWith Decision.adaptive [.isRepG1 k.st, .isRepG2 k.st] g.tail)
          else (List.zipWith Decision.adaptive [.isRep0Long k.st k.ps] g.tail)), fun _ => rfl, fun _ _ => rfl⟩⟩
theorem witness_StepRunsTheDecodedCommand :
    ({ demo with inbox := [.command 0x21 []] } : State).inbox = .command 0x21 [] :: []
      ∧ decode 0x21 [] = .ok .find := ⟨rfl, rfl⟩
/-- No move, a reset, and a word that does not decode, with and without the latch, with REG_READ's opcode and not. -/
theorem witness_StepWithoutACommand :
    demo.inbox = [] ∧ ({ demo with inbox := [.reset] } : State).inbox = .reset :: []
      ∧ decode 0x00 [] = .error .opcode ∧ (opcOf 0x00).toNat ≠ 0x02
      ∧ decode 0x0C02 [] = .error .register ∧ (opcOf 0x0C02).toNat = 0x02
      ∧ demo.faulted = false ∧ demoFaulted.faulted = true :=
  ⟨rfl, rfl, rfl, by decide, rfl, by decide, rfl, rfl⟩
theorem witness_OneResponsePerCommand :
    Instr.isCommand .find = true ∧ Instr.isCommand (.regRead 0x11) = true ∧ Instr.isCommand (.segment 1 1) = true := by
  decide
/-- SEGMENT past the window, and an ILLEGAL REG_READ while faulted. -/
theorem witness_FatalIsPrecise :
    exec (.segment 2 1) demo = .next (raiseFatal .range 0x12 demo)
      ∧ (raiseFatal .range 0x12 demo).responses = demo.responses ++ [⟨.range, 0, 0, []⟩]
      ∧ exec (.regRead 0x0C) demoFaulted = .next (raiseFatal .illegal 0x02 demoFaulted)
      ∧ (raiseFatal .illegal 0x02 demoFaulted).responses = demoFaulted.responses ++ [⟨.illegal, 0, 0, []⟩] :=
  ⟨rfl, rfl, rfl, rfl⟩
/-- A refusal, CONFIG, LIMIT and a SINK_OVERFLOW refusal. -/
theorem witness_RefusalsWriteNothing :
    exec .find State.reset = .next (respond .notInit 0 0 [] State.reset)
      ∧ exec .init State.reset = .next (respond .config 0 0 [] State.reset)
      ∧ exec .encLit (sinking 24 demo) = .next (respond .limit 0 0 [] (sinking 24 demo))
      ∧ exec .close { demo with coder := { demo.coder with sinkBroken := true } }
        = .next (respond .sinkOverflow 0 0 [] { demo with coder := { demo.coder with sinkBroken := true } }) :=
  ⟨rfl, rfl, rfl, rfl⟩
theorem witness_FaultLatchHolds :
    demoFaulted.faulted = true ∧ ({ demoFaulted with inbox := [.command 0x01 []] } : State).faulted = true
      ∧ ({ demoFaulted with inbox := [.command 0x01 []] } : State).inbox = .command 0x01 [] :: []
      ∧ (opcOf 0x01).toNat ≠ 0x02 ∧ regAssigned 0x11 = true := by decide
/-- Each of the four refusals, for a command in its class. -/
theorem witness_CommonChecksInOrder :
    Instr.isCommand .encLit = true ∧ Instr.runsEarly .encLit = false ∧ State.reset.faulted = false
      ∧ State.reset.initDone = false ∧ demo.initDone = true ∧ Instr.needsSink .encLit = true
      ∧ Instr.needsIdle .encLit = true ∧ (Instr.needsSink .encLit && demo.coder.sinkBroken) = false
      ∧ ({ demo with pend := 1 } : State).pend ≠ 0
      ∧ Instr.isCommand (.copyN 1) = true ∧ Instr.runsEarly (.copyN 1) = false
      ∧ ({ demo with coder := { demo.coder with rcFresh := false } } : State).coder.rcFresh = false := by decide
theorem witness_InitStartsASession :
    ({ State.reset with cfgPending := cap64 } : State).faulted = false ∧ cap64.legal = true
      ∧ State.reset.faulted = false ∧ State.reset.cfgPending.legal = false := by decide
theorem witness_RegReadAnswersTheRegister :
    ∀ r ∈ [0x0C#8, 0x0F#8, 0x25#8, 0x2F#8, 0x3C#8, 0xFF#8],
      ¬ (r.toNat ≤ 0x0B ∨ (0x10 ≤ r.toNat ∧ r.toNat ≤ 0x24) ∨ (0x30 ≤ r.toNat ∧ r.toNat ≤ 0x3B)) := by decide
theorem witness_RegWriteStores : demo.faulted = false ∧ (0x0B#8).toNat ≤ 0x0B ∧ 0x0B < (0x0C#8).toNat := by decide
theorem witness_WriteAppends :
    ready demo ∧ 2 = min [0x62#8, 0x63].length
      (min (ringLen demo - demo.B - dictLen demo) (2 ^ 64 - 1 - (demo.H + demo.B))) := by decide
/-- The oldest and the newest defined position. -/
theorem witness_WriteKeepsTheWindow :
    exec (.write [0x62]) demo = .next (writeBody [0x62] demo) ∧ demo.H - dictLen demo ≤ 0 ∧ 3 < demo.H + demo.B :=
  ⟨rfl, by decide, by decide⟩
/-- Distances 1 = dictLen, 0, 2 and -1. -/
theorem witness_ByteAtReadsHistory :
    ready demo ∧ 1 ≤ (1#64).toInt ∧ (1#64).toInt ≤ (dictLen demo : Int)
      ∧ ¬ (1 ≤ (0#64).toInt ∧ (0#64).toInt ≤ (dictLen demo : Int))
      ∧ ¬ (1 ≤ (2#64).toInt ∧ (2#64).toInt ≤ (dictLen demo : Int))
      ∧ ¬ (1 ≤ (0xFFFFFFFFFFFFFFFF#64).toInt ∧ (0xFFFFFFFFFFFFFFFF#64).toInt ≤ (dictLen demo : Int)) := by decide
/-- Distances -B, dictLen, and one past either end. -/
theorem witness_SegmentReadsTheData :
    ready demo ∧ (-(demo.B : Int) ≤ (0xFFFFFFFFFFFFFFFD#64).toInt ∧ (0xFFFFFFFFFFFFFFFD#64).toInt ≤ (dictLen demo : Int))
      ∧ (-(demo.B : Int) ≤ (1#64).toInt ∧ (1#64).toInt ≤ (dictLen demo : Int))
      ∧ ¬ (-(demo.B : Int) ≤ (0xFFFFFFFFFFFFFFFC#64).toInt ∧ (0xFFFFFFFFFFFFFFFC#64).toInt ≤ (dictLen demo : Int))
      ∧ ¬ (-(demo.B : Int) ≤ (2#64).toInt ∧ (2#64).toInt ≤ (dictLen demo : Int)) := by decide
/-- A segment that wraps, and one that ends at the ring's end. -/
theorem witness_SegmentWrapsInTwoParts :
    0 < ringLen demo ∧ 5 ≤ ringLen demo ∧ 3 = min 5 (ringLen demo - 274 % ringLen demo)
      ∧ 3 = min 3 (ringLen demo - 274 % ringLen demo) := by decide
theorem witness_MatchLenComparesTheData :
    ready demo ∧ 1 ≤ (1#64).toInt ∧ (1#64).toInt ≤ (dictLen demo : Int)
      ∧ ¬ (1 ≤ (2#64).toInt ∧ (2#64).toInt ≤ (dictLen demo : Int)) := by decide
theorem witness_DiscardAdvances : ready demo ∧ 3 = min (7#32).toNat demo.B := by decide
/-- LIMIT, nothing asked, and a copy into an open sink, with and without a shortfall. -/
theorem witness_CopyNCopiesHistory :
    sinkReady demo ∧ demo.coder.rcFresh = true ∧ 1 = min (1#32).toNat (dictLen demo)
      ∧ 1 = min (2#32).toNat (dictLen demo) ∧ 0 = min (0#32).toNat (dictLen demo)
      ∧ 1 ≤ demo.coder.sinkRem ∧ demo.coder.sinks = [] :: []
      ∧ sinkReady (sinking 0 demo) ∧ (sinking 0 demo).coder.sinkRem < 1 := by decide
theorem witness_DefinedPositionsHaveTheirOwnCells :
    demoWrapped.H - dictLen demoWrapped ≤ 296 ∧ 300 < demoWrapped.H + demoWrapped.B
      ∧ ringLen demoWrapped ≤ 296 := by decide
theorem witness_HashFingerprintsEveryWindow :
    ready demo ∧ (2#8).toNat ∈ [2, 3, 4] ∧ (4#8).toNat ∈ [2, 3, 4] ∧ (1#8).toNat ∉ [2, 3, 4]
      ∧ (5#8).toNat ∉ [2, 3, 4] := by decide
theorem witness_FingerprintsRoll : 2 ≤ (1#8 :: [2]).length ∧ (1#8 :: [2, 3, 4]).length ≤ 4 := by decide
theorem witness_InsertListsThePosition :
    3 = demo.cfg.wordLen.toNat ∧ 3 ∈ [2, 3, 4] ∧ 4 = demoRebase.cfg.wordLen.toNat ∧ 4 ∈ [2, 3, 4] := by decide
/-- The demo's chain lists the live position 0, and its single table too. -/
theorem witness_LookupsAnswerLivePositions :
    Inv demo ∧ getChain demo 0 = [0] ∧ lookupSingle demo 2 0 = some 0 := ⟨inv_demo, by decide, by decide⟩
/-- An insertion that rebases, and one that does not. -/
theorem witness_RebaseKeepsOffsetsInRange :
    Inv demoRebase ∧ demoRebase.H ≤ 4294967295 ∧ 4294967295 < demoRebase.H + demoRebase.B
      ∧ rebased demoRebase 4294967295 ≠ demoRebase.idxBase
      ∧ rebased demoRebase demoRebase.H = demoRebase.idxBase := ⟨inv_demoRebase, by decide, by decide, by decide, by decide⟩
theorem witness_FindAnswersTheSearch :
    ready demo ∧ (demo.ahead = 0 ∧ 0 < demo.B) ∧ ready { demo with ahead := 1 }
      ∧ ¬ (({ demo with ahead := 1 } : State).ahead = 0 ∧ 0 < demo.B)
      ∧ ∃ (N : Nat) (w : List Byte) (len : Nat → Nat) (singles chain : List Nat)
          (consider1 : List (Nat × Nat) × Nat → Nat → List (Nat × Nat) × Nat),
        N = demo.cfg.wordLen.toNat ∧ w = (List.range (min demo.B 273)).map (fun i => ringAt demo (demo.H + i))
          ∧ (∀ d, len d = prefixLen w (ringSeg demo (demo.H - d) (d + demo.B)))
          ∧ (∀ r d, consider1 r d =
            if demo.cfg.niceLen.toNat ≤ r.2 ∨ w.length ≤ r.2 then r
            else if r.2 < len d then (r.1 ++ [(d, len d)], len d) else r)
          ∧ singles = ((List.range (N - 2)).map (· + 2)).filterMap (fun k => if k ≤ w.length then
              (lookupSingle demo k (fingerprint (fun _ => 0) (w.take k)).toNat).map (fun q => demo.H - q) else none)
          ∧ chain = (if N ≤ w.length then
            (getChain demo (fingerprint (fun _ => 0) (w.take N)).toNat).map (fun q => demo.H - q) else []) :=
  ⟨by decide, by decide, by decide, by decide, _, _, fun _ => _, _, _, fun _ _ => _, rfl, rfl, fun _ => rfl,
    fun _ _ => rfl, rfl, rfl⟩
theorem witness_FindResultsAreMatches : demo.initDone = true ∧ Inv demo := ⟨rfl, inv_demo⟩
/-- A single-table candidate and a chain candidate, with every fingerprint 0. -/
theorem witness_FindMissesNoLongerMatch :
    (∃ k, 2 ≤ k ∧ k < demo.cfg.wordLen.toNat ∧ k ≤ demo.B ∧
        (lookupSingle demo k (fingerprint (fun _ => 0) ((needle demo).take k)).toNat).map (fun q => demo.H - q)
          = some 1)
      ∧ demo.cfg.wordLen.toNat ≤ (needle demo).length
      ∧ ∃ q ∈ getChain demo (fingerprint (fun _ => 0) ((needle demo).take demo.cfg.wordLen.toNat)).toNat,
          1 = demo.H - q :=
  ⟨⟨2, by decide, by decide, by decide, by decide⟩, by decide, 0, by decide, by decide⟩
/-- What R103 to R105 say of the needle, the lengths and one candidate, of `demo`. -/
theorem witness_RepeatedFindSearchesTheChainAlone : ready demo ∧ demo.ahead = 0 ∧ 0 < demo.B
    ∧ ∃ (N : Nat) (w : List Byte) (len : Nat → Nat) (chain : List Nat)
        (consider1 : List (Nat × Nat) × Nat → Nat → List (Nat × Nat) × Nat),
      N = demo.cfg.wordLen.toNat ∧ w = (List.range (min demo.B 273)).map (fun i => ringAt demo (demo.H + i))
        ∧ (∀ d, len d = prefixLen w (ringSeg demo (demo.H - d) (d + demo.B)))
        ∧ (∀ r d, consider1 r d =
          if demo.cfg.niceLen.toNat ≤ r.2 ∨ w.length ≤ r.2 then r
          else if r.2 < len d then (r.1 ++ [(d, len d)], len d) else r)
        ∧ chain = (if N ≤ w.length then
          (getChain demo (fingerprint Config.hashTable (w.take N)).toNat).map (fun q => demo.H - q) else []) :=
  ⟨by decide, by decide, by decide, _, _, fun _ => _, _, fun _ _ => _, rfl, rfl, fun _ => rfl, fun _ _ => rfl, rfl⟩
/-- Ties go to the first candidate, NICE_LEN and the needle's length end the search (42_match_finder.md R104, R105). -/
theorem test_search_order :
    findList (fun _ => 0) demo = [(1, 3)]
      ∧ (searchChain { demo with cfg := { demo.cfg with niceLen := 2 } } [0, 0] ⟨[(4, 2)], 2⟩).res = [(4, 2)]
      ∧ (searchChain demo [0, 0] ⟨[(4, 2)], 2⟩).res = [(4, 2), (1, 3)] := by decide
theorem witness_SkipIndexesAndAdvances : ready demo ∧ 2 = min (2#32).toNat demo.B ∧ 3 = min (9#32).toNat demo.B := by
  decide
theorem witness_OneDecisionNarrowsExactly : CoderInv Coder.reset := coderInv_reset
/-- Ranges 1, 2^16 and 2^24. -/
theorem witness_NormalizeReachesTop :
    0 < ({ Coder.reset with rcRange := 1 } : Coder).rcRange.toNat
      ∧ 2 ^ 16 ≤ ({ Coder.reset with rcRange := 65536 } : Coder).rcRange.toNat
      ∧ 2 ^ 24 ≤ ({ Coder.reset with rcRange := 16777216 } : Coder).rcRange.toNat := by decide
/-- R10 and R9 of the vectors: a carry, and a byte held back. -/
theorem witness_ShiftLowConservesTheNumber :
    ∀ c ∈ [({ Coder.reset with
        rcLow := 0x100123456, rcCache := 0xAB, rcCacheSize := 2, sinkRem := 9, sinks := [[1]] } : Coder),
        { Coder.reset with rcLow := 0xFF123456, rcCache := 0xAB, sinkRem := 9, sinks := [[1]] }],
      1 ≤ c.rcCacheSize ∧ c.rcLow.toNat < 2 ^ 33 ∧ heldValue c < 256 ^ c.rcCacheSize * 2 ^ 32
        ∧ c.rcCacheSize ≤ c.sinkRem ∧ c.sinks = [1] :: [] := by decide
theorem witness_CodingKeepsTheCoderInvariant : CoderInv Coder.reset := coderInv_reset
theorem witness_RcFlushEmitsTheHeldNumber :
    sinkReady demo ∧ 5 = demo.coder.rcCacheSize + 4 ∧ CoderInv demo.coder ∧ 5 ≤ demo.coder.sinkRem
      ∧ demo.coder.sinks = [] :: [] ∧ sinkReady (sinking 4 demo) ∧ (sinking 4 demo).coder.sinkRem < 5 :=
  ⟨by decide, by decide, coderInv_demo, by decide, by decide, by decide, by decide⟩
theorem witness_SinkOpenStartsASink :
    ready demo ∧ (0xFFFFFFFFFFFFFFFF#64).toInt < 0 ∧ 0 ≤ (0#64).toInt ∧ 0 ≤ (0x7FFFFFFFFFFFFFFF#64).toInt := by decide
theorem witness_SinkBytesOnlyGrow :
    exec .rcFlush demo = .next (rcFlushRule demo) ∧ demo.coder.sinks = [] :: []
      ∧ exec (.sinkOpen 9) demo = .next (sinkOpenBody 9 demo) ∧ exec .init demo = .next (initBody demo) :=
  ⟨rfl, by decide, rfl, rfl⟩
theorem witness_DistanceSlots : 3 < 4 ∧ 4 ≤ 4 ∧ 0xFFFFFFFF < 2 ^ 32 := by decide
theorem witness_PacketCellsLieInTheBank :
    Inv demo ∧ demo.initDone = true ∧ Packet.wf (.lit 0x61) = true
      ∧ .adaptive (.isMatch 0 1) false ∈ packetDecisions (contextOf demo) (.lit 0x61)
      ∧ (ProbCell.isMatch 0 1).inShape 8 = true := ⟨inv_demo, rfl, rfl, by decide, rfl⟩
/-- RANGE, LIMIT at HEADROOM 19, and coding at HEADROOM 20. -/
theorem witness_EncLitCodesTheHead :
    encodeReady demo ∧ ({ demo with B := 0 } : State).B < 1 ∧ 1 ≤ demo.B
      ∧ (20 : Int) = demo.cfg.opMargin.toNat + (if demo.cfg.eos.toNat = 1 then (demo.cfg.eosMargin.toNat : Int) else 0)
      ∧ headroom (sinking 24 demo).coder < 20 ∧ 20 ≤ headroom (sinking 25 demo).coder := by decide
/-- A long rep of distance 1, a short rep, a distance past the window, and a length past the look-ahead. -/
theorem witness_EncMatchCodesTheMatch :
    encodeReady demo ∧ ((0#32).toNat : Int) = ((1#64).toInt - 1) % 2 ^ 32
      ∧ ((1 ≤ (1#64).toInt ∧ (1#64).toInt ≤ 2 ^ 32 - 1 ∧ 2 ≤ (3#32).toNat ∧ (3#32).toNat ≤ 273)
        ∧ (1#64).toInt ≤ (dictLen demo : Int) ∧ (3#32).toNat ≤ demo.B)
      ∧ (∀ i < 3, ringAt demo (demo.H + i) = ringAt demo (demo.H - (1#64).toInt.toNat + i))
      ∧ ((1#32).toNat = 1 ∧ (1#64).toInt - 1 = demo.rep.r0.toNat)
      ∧ ¬ (2#64).toInt ≤ (dictLen demo : Int) ∧ ¬ (4#32).toNat ≤ demo.B
      ∧ headroom (sinking 24 demo).coder < 20 ∧ 20 ≤ headroom demo.coder := by decide
theorem witness_EncEosCodesTheMarker :
    encodeReady demo ∧ headroom (sinking 20 demo).coder < demo.cfg.eosMargin.toNat
      ∧ (demo.cfg.eosMargin.toNat : Int) ≤ headroom (sinking 21 demo).coder := by decide
theorem witness_PacketRowsCodeOnePacket :
    Instr.packet? (.pktLit 0x61) = some (.lit 0x61) ∧ Instr.packet? (.pktMatch 5 2) = some (.simpleMatch 5 2)
      ∧ Instr.packet? .pktShortRep = some .shortRep ∧ Instr.packet? (.pktLongRep0 2) = some (.longRep 0 2)
      ∧ Instr.packet? (.pktLongRep1 2) = some (.longRep 1 2) ∧ Instr.packet? (.pktLongRep2 2) = some (.longRep 2 2)
      ∧ Instr.packet? (.pktLongRep3 2) = some (.longRep 3 2) ∧ Instr.packet? .pktEos = some .eos
      ∧ 1 ≤ dictLen demo ∧ ¬ 1 ≤ dictLen State.reset := by decide
theorem witness_SafeMarginsNeverOverflow :
    Inv demo ∧ Instr.isCommand .encLit = true ∧ 20 ≤ demo.cfg.opMargin.toNat ∧ 16 ≤ demo.cfg.eosMargin.toNat
      ∧ demo.coder.sinkBroken = false ∧ exec .encLit demo = .next (encLitBody demo)
      ∧ (encLitBody demo).lastStatus = .ok :=
  ⟨inv_demo, by decide, by decide, by decide, by decide, rfl, by decide⟩
theorem witness_CompressRunsTurns :
    encodeReady demo
      ∧ (∀ v, loopTurn Config.hashTable Config.policy v =
        (chooseOp Config.policy (findList Config.hashTable v) (indexHead Config.hashTable v)).elim
          (skipBody Config.hashTable 1 (encLitCore (indexHead Config.hashTable v)))
          (fun m => skipBody Config.hashTable m.2 (encMatchCore m.1 m.2 (indexHead Config.hashTable v))))
      ∧ ∀ n v, (n < 2 ∧ 1 ≤ v) ↔ (if true then 1 else 273) ≤ v ∧ ((2#32).toNat = 0 ∨ n < (2#32).toNat) :=
  ⟨encodeReady_demo, fun v => by rw [loopTurn, codeOp.eq_def]; split <;> simp [*], by simp; omega⟩
theorem witness_CompressTurnIsHostStep : Inv demo ∧ encodeReady demo ∧ 1 ≤ demo.B ∧ marginOk demo = true
    ∧ ∃ (res : List (Nat × Nat)) (choice : Option (Nat × Nat)) (valid : Nat × Nat → Prop),
      res = findList Config.hashTable demo
        ∧ choice = chooseOp Config.policy res (indexHead Config.hashTable demo)
        ∧ ∀ m, valid m ↔
          ((1 ≤ m.1 ∧ m.1 ≤ 2 ^ 32 - 1 ∧ 2 ≤ m.2 ∧ m.2 ≤ 273) ∨ (m.2 = 1 ∧ m.1 = demo.rep.r0.toNat + 1))
          ∧ m.1 ≤ dictLen demo ∧ m.2 ≤ demo.B
          ∧ ∀ i < m.2, ringAt demo (demo.H + i) = ringAt demo (demo.H - m.1 + i) :=
  ⟨inv_demo, by decide, by decide, by decide, _, _, _, rfl, rfl, fun _ => Iff.rfl⟩
/-- Policies that answer a literal, a match that ENC_MATCH accepts, and one that it refuses (R143). -/
theorem witness_CompressTurnIsHostStep_policies :
    chooseOp (fun _ => none) [(1, 3)] demo = none ∧ chooseOp (fun _ => some (1, 2)) [(1, 3)] demo = some (1, 2)
      ∧ chooseOp (fun _ => some (9, 2)) [(1, 3)] demo = some (1, 3)
      ∧ chooseOp (fun _ => some (9, 2)) [] demo = none := by decide
theorem witness_CloseIsHostSequence : encodeReady demo ∧ encodeReady (sinking 4 demo) := by decide
theorem witness_InvariantKeptByEveryStep :
    Inv demo ∧ step demo = .next demo ∧ exec (.discard 2) demo = .next (discardBody 2 demo) := ⟨inv_demo, rfl, rfl⟩
theorem witness_EachStateHasItsWriters :
    exec (.discard 2) demo = .next (discardBody 2 demo) ∧ (Instr.discard 2).opcode = 0x14
      ∧ exec (.pktLit 0x61) demo = .next (codePacket (.lit 0x61) demo) ∧ (Instr.pktLit 0x61).opcode = 0 :=
  ⟨rfl, by decide, rfl, by decide⟩

end Sys2Proof.Tests
end

/-! # The range coder's invariant (10_state.md R42, 43_range_coder.md R112 to R118)

`CoderInv` is three independent invariants: one of the number the coder holds back, one of the probability bank, one of
the sink. Each is kept by its own operations; `RangeInv` takes the least range as an argument, since a decision may
narrow the range below 2^24 before Normalize raises it again. -/

namespace Sys2Proof.Machine

/-- The clauses of `CoderInv` about `low`, the range and the held-back bytes, with the range at least `least`. -/
structure RangeInv (least : Nat) (c : Coder) : Prop where
  cacheSize : 1 ≤ c.rcCacheSize
  range     : least ≤ c.rcRange.toNat
  low       : c.rcLow.toNat + c.rcRange.toNat < 8589934592
  carryRoom : heldValue c + c.rcRange.toNat ≤ 256 ^ c.rcCacheSize * 4294967296

/-- The clauses of `CoderInv` about the probability bank. -/
structure BankInv (m : Bank) : Prop where
  form  : m.wf = true
  range : ∀ cell ∈ m, probInRange cell.2 = true

/-- The clauses of `CoderInv` about the sink. -/
structure SinkInv (c : Coder) : Prop where
  bounds : c.sinkRem + c.outCount ≤ 9223372036854775807
  opened : 0 < c.sinkRem → c.sinks ≠ []

theorem coderInv_iff (c : Coder) : CoderInv c ↔ RangeInv Config.top c ∧ BankInv c.probs ∧ SinkInv c :=
  ⟨fun h => ⟨⟨h.cacheSize, h.range, h.low, h.carryRoom⟩, ⟨h.bankForm, h.bankRange⟩, ⟨h.sinkBounds, h.sinkOpen⟩⟩,
    fun ⟨hr, hb, hs⟩ => ⟨hr.cacheSize, hr.range, hr.low, hr.carryRoom, hb.form, hb.range, hs.bounds, hs.opened⟩⟩

/-! ## The sink (R118) -/

theorem SinkInv.emit {c : Coder} (b : Byte) (h : SinkInv c) : SinkInv (emit b c) := by
  obtain ⟨hb, ho⟩ := h
  refine ⟨?_, fun hpos => ?_⟩
  · rw [emit_sinkRem, emit_outCount]; split <;> omega
  · rw [emit_sinkRem] at hpos
    rw [emit_sinks, if_neg (by omega)]
    cases c.sinks <;> simp [acceptByte]

theorem SinkInv.emitAll {c : Coder} (bs : List Byte) (h : SinkInv c) : SinkInv (emitAll bs c) := by
  induction bs generalizing c with
  | nil => exact h
  | cons b bs ih => exact ih (h.emit b)

theorem SinkInv.shiftLow {c : Coder} (h : SinkInv c) : SinkInv (shiftLow c) := by
  unfold Machine.shiftLow
  split
  · exact ⟨(h.emitAll _).bounds, (h.emitAll _).opened⟩
  · exact ⟨h.bounds, h.opened⟩

theorem SinkInv.rcInit {c : Coder} (h : SinkInv c) : SinkInv (rcInit c) := ⟨h.bounds, h.opened⟩

theorem SinkInv.normalize {c : Coder} (fuel : Nat) (h : SinkInv c) : SinkInv (normalize fuel c) := by
  induction fuel generalizing c with
  | zero => exact h
  | succ n ih =>
    unfold Machine.normalize
    split
    · exact ih (SinkInv.shiftLow ⟨h.bounds, h.opened⟩)
    · exact h

/-! ## The probability bank (R113) -/

theorem probMove_inRange {p : Prob} (b : Bool) (h : probInRange p = true) : probInRange (probMove p b) = true := by
  simp only [probInRange, Bool.and_eq_true, decide_eq_true_eq] at h ⊢
  cases b
  · simp only [probMove, Bool.false_eq_true, if_false, BitVec.toNat_ofNat]
    rw [Nat.mod_eq_of_lt (by omega)]; omega
  · simp only [probMove, if_true, BitVec.toNat_ofNat]
    rw [Nat.mod_eq_of_lt (by omega)]; omega

theorem BankInv.read_inRange {m : Bank} (h : BankInv m) (a : Nat) : probInRange (m.read a) = true := by
  unfold Bank.read
  cases hg : sparseGet m a with
  | none => rfl
  | some p => exact h.range _ (sparseGet_mem hg)

theorem BankInv.write {m : Bank} (h : BankInv m) (a : Nat) {p : Prob} (hp : probInRange p = true) :
    BankInv (m.write a p) := by
  refine ⟨Bank.wf_write a p h.form, fun cell hc => ?_⟩
  unfold Bank.write at hc
  split at hc
  · exact h.range cell (mem_sparseErase hc)
  · rcases mem_sparseSet hc with rfl | hc
    · exact hp
    · exact h.range cell hc

theorem bankInv_nil : BankInv [] := ⟨rfl, by simp⟩

@[simp] theorem normalize_probs (fuel : Nat) (c : Coder) : (normalize fuel c).probs = c.probs := by
  induction fuel generalizing c with
  | zero => rfl
  | succ n ih =>
    unfold normalize
    split
    · simp [ih]
    · rfl

/-! ## The held-back number (R112, R113, R115, R116) -/

theorem rcInit_rcInit (c : Coder) : rcInit (rcInit c) = rcInit c := rfl

/-- A coder whose number stands at the values of RcInit, with any bank and sink that keep their own invariants. -/
theorem coderInv_of_fresh {c : Coder} (hfresh : rcInit c = c) (hb : BankInv c.probs) (hs : SinkInv c) :
    CoderInv c := by
  refine (coderInv_iff _).2 ⟨?_, hb, hs⟩
  rw [← hfresh]
  exact ⟨by simp, by simp [Config.top], by simp, by simp [heldValue]⟩

/-- Narrowing: the new interval [low, low + range) lies in the old one, with the held-back bytes as they were. -/
theorem RangeInv.narrowed {n m : Nat} {c c' : Coder} (h : RangeInv n c) (hcache : c'.rcCache = c.rcCache)
    (hsize : c'.rcCacheSize = c.rcCacheSize) (hrange : m ≤ c'.rcRange.toNat)
    (hhigh : c'.rcLow.toNat + c'.rcRange.toNat ≤ c.rcLow.toNat + c.rcRange.toNat) : RangeInv m c' := by
  obtain ⟨hs, -, hl, hroom⟩ := h
  refine ⟨by omega, hrange, by omega, ?_⟩
  unfold heldValue at hroom ⊢
  rw [hcache, hsize]
  omega

/-- The held-back bytes with `low`, all moved up a byte, when a byte more is held back (R115). -/
theorem heldValue_shiftLow_of_not_settled {c : Coder} (hs : 1 ≤ c.rcCacheSize) (ht : topSettled c = false) :
    heldValue (shiftLow c) = 256 * heldValue c := by
  obtain ⟨n, hn⟩ := Nat.exists_eq_add_of_le' hs
  simp only [topSettled, Bool.or_eq_false_iff, decide_eq_false_iff_not] at ht
  have hpos : 0 < 256 ^ n := by positivity
  have hx : 1 ≤ (c.rcCache.toNat + 1) * 256 ^ n := Nat.mul_pos (Nat.succ_pos _) hpos
  simp only [heldValue, shiftLow_rcCache, shiftLow_rcCacheSize, shiftLow_rcLow, lowShifted_toNat, topSettled, ht,
    decide_false, Bool.or_self, Bool.false_eq_true, if_false, hn, Nat.add_sub_cancel, pow_succ, ← mul_assoc]
  generalize (c.rcCache.toNat + 1) * 256 ^ n = x at *
  omega

/-- The byte newly held back with the shifted `low` is the low 32 bits, moved up a byte, when the top byte settles. -/
theorem heldValue_shiftLow_of_settled {c : Coder} (ht : topSettled c = true) :
    heldValue (shiftLow c) = 256 * (c.rcLow.toNat % 4294967296) := by
  simp only [heldValue, shiftLow_rcCache, shiftLow_rcCacheSize, shiftLow_rcLow, lowShifted_toNat, ht, if_true,
    BitVec.toNat_ofNat]
  omega

/-- One turn of Normalize: with the range below 2^24, ShiftLow makes room for the range moved up a byte. -/
theorem RangeInv.shiftLow {n : Nat} {c : Coder} (h : RangeInv n c) (htop : c.rcRange.toNat < Config.top) :
    RangeInv (n * 256) (shiftLow { c with rcRange := rangeShifted c.rcRange }) := by
  obtain ⟨hsize, hrange, hlow, hroom⟩ := h
  have hR := rangeShifted_toNat htop
  have hshift := lowShifted_toNat c.rcLow
  simp only [Config.top] at htop
  cases ht : topSettled { c with rcRange := rangeShifted c.rcRange }
  case false =>
    have hheld := heldValue_shiftLow_of_not_settled (c := { c with rcRange := rangeShifted c.rcRange }) hsize ht
    refine ⟨?_, ?_, ?_, ?_⟩
    · simp [shiftLow_rcCacheSize, ht]
    · simp only [shiftLow_rcRange, hR]; omega
    · simp only [shiftLow_rcRange, shiftLow_rcLow, hR, hshift]; omega
    · rw [hheld, shiftLow_rcRange, shiftLow_rcCacheSize, ht, hR]
      change 256 * heldValue c + _ ≤ 256 ^ (c.rcCacheSize + 1) * _
      rw [pow_succ]
      omega
  case true =>
    have hheld := heldValue_shiftLow_of_settled ht
    simp only [topSettled, Bool.or_eq_true, decide_eq_true_eq] at ht
    refine ⟨?_, ?_, ?_, ?_⟩
    · simp [shiftLow_rcCacheSize, ht, topSettled]
    · simp only [shiftLow_rcRange, hR]; omega
    · simp only [shiftLow_rcRange, shiftLow_rcLow, hR, hshift]; omega
    · rw [hheld, shiftLow_rcRange, hR, shiftLow_rcCacheSize, if_pos (by simpa [topSettled] using ht)]
      simp only
      omega

/-- Normalize after a decision, which leaves a range of at least 2^16: at most one turn. -/
theorem RangeInv.normalize {c : Coder} (fuel : Nat) (h : RangeInv 65536 c) :
    RangeInv Config.top (normalize (fuel + 1) c) := by
  by_cases htop : c.rcRange.toNat < Config.top
  · rw [normalize_one fuel h.range htop]
    exact h.shiftLow htop
  · rw [normalize_of_top_le _ (by omega)]
    exact ⟨h.cacheSize, by omega, h.low, h.carryRoom⟩

/-! ## Decisions -/

/-- Both halves of an adaptive decision's interval are at least 2^16 wide, and together they are the interval (R113). -/
theorem probBound_bounds {c : Coder} {p : Prob} (hr : Config.top ≤ c.rcRange.toNat) (hp : probInRange p = true) :
    65536 ≤ probBound c p ∧ probBound c p + 65536 ≤ c.rcRange.toNat := by
  simp only [probInRange, Bool.and_eq_true, decide_eq_true_eq] at hp
  have hlo : c.rcRange.toNat / 2048 * 31 ≤ probBound c p := Nat.mul_le_mul_left _ hp.1
  have hhi : probBound c p ≤ c.rcRange.toNat / 2048 * 2017 := Nat.mul_le_mul_left _ hp.2
  simp only [Config.top] at hr
  omega

theorem CoderInv.encBit {c : Coder} (a : Nat) (b : Bool) (h : CoderInv c) : CoderInv (encBit a b c) := by
  obtain ⟨hr, hb, hs⟩ := (coderInv_iff c).1 h
  have hp := hb.read_inRange a
  obtain ⟨hlo, hhi⟩ := probBound_bounds hr.range hp
  have hlow := hr.low
  refine (coderInv_iff _).2 ⟨.normalize 3 ?_, ?_, ?_⟩
  · refine hr.narrowed ?_ ?_ ?_ ?_ <;> cases b <;>
      simp only [narrow, if_true, Bool.false_eq_true, if_false, BitVec.toNat_ofNat] <;> omega
  · unfold Machine.encBit
    rw [normalize_probs]
    exact hb.write a (probMove_inRange b hp)
  · refine .normalize 4 ?_
    cases b <;> exact ⟨hs.bounds, hs.opened⟩

theorem CoderInv.encDirectBit {c : Coder} (b : Bool) (h : CoderInv c) : CoderInv (encDirectBit b c) := by
  obtain ⟨hr, hb, hs⟩ := (coderInv_iff c).1 h
  have hrange : 16777216 ≤ c.rcRange.toNat := hr.range
  have hlow := hr.low
  refine (coderInv_iff _).2 ⟨.normalize 3 ?_, ?_, .normalize 4 ⟨hs.bounds, hs.opened⟩⟩
  · refine hr.narrowed rfl rfl ?_ ?_ <;> cases b <;>
      simp only [if_true, Bool.false_eq_true, if_false, BitVec.toNat_ofNat] <;> omega
  · unfold Machine.encDirectBit
    rw [normalize_probs]
    exact hb

theorem CoderInv.codeOne {c : Coder} (d : Decision) (h : CoderInv c) : CoderInv (codeOne c d) := by
  cases d with
  | adaptive cell b => exact h.encBit cell.addr b
  | direct b => exact h.encDirectBit b

theorem CoderInv.codeAll {c : Coder} (ds : List Decision) (h : CoderInv c) : CoderInv (codeAll ds c) :=
  codeAll_induction (fun d _ _ hc => hc.codeOne d) h

/-- Settles O43: the held-back number, the bank and the sink each keep their invariant through every decision. -/
theorem codingKeepsTheCoderInvariant : Obligations.CodingKeepsTheCoderInvariant :=
  fun ds _ h => h.codeAll ds

/-! ## The other writers of the coder -/

theorem CoderInv.emitAll {c : Coder} (bs : List Byte) (h : CoderInv c) : CoderInv (emitAll bs c) := by
  obtain ⟨hr, hb, hs⟩ := (coderInv_iff c).1 h
  refine (coderInv_iff _).2 ⟨hr.narrowed ?_ ?_ ?_ ?_, by simpa using hb, hs.emitAll bs⟩ <;> simp [hr.range]

@[simp] theorem rcFlushBody_probs (c : Coder) : (rcFlushBody c).probs = c.probs := by simp [rcFlushBody]

theorem CoderInv.rcFlushBody {c : Coder} (h : CoderInv c) : CoderInv (rcFlushBody c) := by
  obtain ⟨-, hb, hs⟩ := (coderInv_iff c).1 h
  exact coderInv_of_fresh (rcInit_rcInit _) (by rwa [rcFlushBody_probs])
    hs.shiftLow.shiftLow.shiftLow.shiftLow.shiftLow.rcInit

theorem CoderInv.openSink {c : Coder} {limit : Nat} (hl : limit ≤ 9223372036854775807) (h : CoderInv c) :
    CoderInv (openSink limit c) :=
  coderInv_of_fresh rfl ((coderInv_iff c).1 h).2.1 ⟨by simpa using hl, by simp⟩

theorem CoderInv.sessionCoder (c : Coder) : CoderInv (sessionCoder c) :=
  coderInv_of_fresh rfl bankInv_nil ⟨by simp, by simp⟩

theorem coderInv_reset : CoderInv Coder.reset :=
  coderInv_of_fresh rfl bankInv_nil ⟨by decide, by decide⟩

end Sys2Proof.Machine

/-! # The index and the window (20_memory.md R45, R46, 41_hash_index.md R91 to R97, 42_match_finder.md R104 to R109) -/

namespace Sys2Proof.Machine

/-! ## Positions in the index (R91, R93, R109) -/

/-- The single-entry tables list positions below `n` only. -/
structure SinglesBelow (n : Nat) (ix : Index) : Prop where
  single2 : ∀ e ∈ ix.single2, e.2 < n
  single3 : ∀ e ∈ ix.single3, e.2 < n

/-- The chains list positions below `n` only, most recent first and each at most once (R93). -/
structure ChainBelow (n : Nat) (ix : Index) : Prop where
  below : ∀ e ∈ ix.chain, ∀ p ∈ e.2, p < n
  order : ∀ e ∈ ix.chain, e.2.Pairwise (fun p q => q < p)

/-- The clauses of `Inv` about the index's positions: all lie below `n`. -/
structure IndexBelow (n : Nat) (ix : Index) : Prop where
  singles : SinglesBelow n ix
  chains  : ChainBelow n ix

theorem SinglesBelow.mono {n m : Nat} {ix : Index} (h : SinglesBelow n ix) (hnm : n ≤ m) : SinglesBelow m ix :=
  ⟨fun e he => (h.single2 e he).trans_le hnm, fun e he => (h.single3 e he).trans_le hnm⟩

theorem ChainBelow.mono {n m : Nat} {ix : Index} (h : ChainBelow n ix) (hnm : n ≤ m) : ChainBelow m ix :=
  ⟨fun e he p hp => (h.below e he p hp).trans_le hnm, h.order⟩

theorem IndexBelow.mono {n m : Nat} {ix : Index} (h : IndexBelow n ix) (hnm : n ≤ m) : IndexBelow m ix :=
  ⟨h.singles.mono hnm, h.chains.mono hnm⟩

theorem indexBelow_empty (n : Nat) : IndexBelow n Index.empty :=
  ⟨⟨by simp [Index.empty], by simp [Index.empty]⟩, ⟨by simp [Index.empty], by simp [Index.empty]⟩⟩

theorem forall_mem_sparseSet {α : Type} {P : Nat × α → Prop} {m : List (Nat × α)} {a : Nat} {v : α}
    (hv : P (a, v)) (hm : ∀ e ∈ m, P e) : ∀ e ∈ sparseSet m a v, P e := by
  intro e he
  rcases mem_sparseSet he with rfl | he
  · exact hv
  · exact hm e he

theorem SinglesBelow.setSingle {n p : Nat} {ix : Index} (h : SinglesBelow n ix) (hp : p < n) (k key : Nat) :
    SinglesBelow n (ix.setSingle k key p) := by
  unfold Index.setSingle
  split
  · exact ⟨forall_mem_sparseSet hp h.single2, h.single3⟩
  · split
    · exact ⟨h.single2, forall_mem_sparseSet hp h.single3⟩
    · exact h

@[simp] theorem setSingle_chain (ix : Index) (k key p : Nat) : (ix.setSingle k key p).chain = ix.chain := by
  unfold Index.setSingle
  split
  · rfl
  · split <;> rfl

/-- A position above all those listed may head its chain (R91). -/
theorem ChainBelow.pushChain {p : Nat} {ix : Index} (h : ChainBelow p ix) (key : Nat) :
    ChainBelow (p + 1) (ix.pushChain key p) := by
  have hat : (∀ q ∈ ix.chainAt key, q < p) ∧ (ix.chainAt key).Pairwise (fun p q => q < p) := by
    unfold Index.chainAt
    cases hg : sparseGet ix.chain key with
    | none => simp
    | some l => exact ⟨h.below _ (sparseGet_mem hg), h.order _ (sparseGet_mem hg)⟩
  obtain ⟨hlt, hord⟩ := hat
  refine ⟨forall_mem_sparseSet (fun q hq => ?_) (h.mono (Nat.le_succ p)).below,
    forall_mem_sparseSet (List.pairwise_cons.2 ⟨hlt, hord⟩) h.order⟩
  rcases List.mem_cons.1 hq with rfl | hq
  · exact Nat.lt_succ_self q
  · exact (hlt q hq).trans (Nat.lt_succ_self p)

/-! ## Insert (R91, R97) -/

section
variable (T : HashTable) (s : State) (p : Nat)

theorem SinglesBelow.insertWord {ix : Index} (h : SinglesBelow (p + 1) ix) (k : Nat) :
    SinglesBelow (p + 1) (insertWord T s p ix k) := by
  unfold Machine.insertWord
  split
  · split
    · exact h.setSingle (Nat.lt_succ_self p) k _
    · exact ⟨h.single2, h.single3⟩
  · exact h

/-- Only the longest word length reaches the chains. -/
theorem insertWord_chain_of_lt {k : Nat} (ix : Index) (hk : k < s.cfg.wordLen.toNat) :
    (insertWord T s p ix k).chain = ix.chain := by
  simp only [insertWord, hk, if_true]
  split
  · simp
  · rfl

theorem ChainBelow.insertWord {ix : Index} (h : ChainBelow p ix) (k : Nat) :
    ChainBelow (p + 1) (insertWord T s p ix k) := by
  unfold Machine.insertWord
  split
  · split
    · have h' := h.mono (Nat.le_succ p)
      exact ⟨by simpa using h'.below, by simpa using h'.order⟩
    · exact h.pushChain _
  · exact h.mono (Nat.le_succ p)

theorem wordLengths_eq (h : 2 ≤ s.cfg.wordLen.toNat) :
    wordLengths s = singleLengths s ++ [s.cfg.wordLen.toNat] := by
  obtain ⟨n, hn⟩ := Nat.exists_eq_add_of_le' h
  simp [wordLengths, singleLengths, hn, List.range_succ]

theorem lt_wordLen_of_mem_singleLengths {k : Nat} (h : k ∈ singleLengths s) : k < s.cfg.wordLen.toNat := by
  simp only [singleLengths, List.mem_map, List.mem_range] at h
  omega

/-- Insert keeps the positions below the one inserted and that one (R91): the chains take it once. -/
theorem IndexBelow.insertPos (h : IndexBelow p s.index) : IndexBelow (p + 1) (insertPos T p s).index := by
  rw [insertPos_index]
  refine ⟨List.foldlRecOn _ _ (h.singles.mono (Nat.le_succ p)) fun ix hix k _ => hix.insertWord T s p k, ?_⟩
  by_cases hN : 2 ≤ s.cfg.wordLen.toNat
  · have hfold : ((singleLengths s).foldl (Machine.insertWord T s p) s.index).chain = s.index.chain :=
      List.foldlRecOn (motive := fun ix : Index => ix.chain = s.index.chain) _ _ rfl fun ix hix k hk => by
        rw [insertWord_chain_of_lt T s p ix (lt_wordLen_of_mem_singleLengths s hk), hix]
    rw [wordLengths_eq s hN, List.foldl_append]
    exact ChainBelow.insertWord T s p ⟨hfold ▸ h.chains.below, hfold ▸ h.chains.order⟩ _
  · have hnil : wordLengths s = [] := by simp [wordLengths]; omega
    rw [hnil]
    exact h.chains.mono (Nat.le_succ p)

/-- IDX_BASE stays below the window, where a rebase puts it (R96, R97). -/
theorem rebased_below_window (h : s.idxBase + 1 ≤ (s.H : Int) - dictLen s) :
    rebased s p + 1 ≤ (s.H : Int) - dictLen s := by
  unfold rebased
  split <;> omega

/-- Inserting consecutive positions writes the index and IDX_BASE alone, and keeps what `Inv` asks of them. -/
theorem insertRange_spec (n : Nat) : ∃ ix b, insertRange T p n s = { s with index := ix, idxBase := b }
    ∧ (IndexBelow p s.index → IndexBelow (p + n) ix)
    ∧ (s.idxBase + 1 ≤ (s.H : Int) - dictLen s → b + 1 ≤ (s.H : Int) - dictLen s) := by
  induction n generalizing s p with
  | zero => exact ⟨s.index, s.idxBase, rfl, id, id⟩
  | succ n ih =>
    obtain ⟨ix, b, heq, hix, hb⟩ := ih (insertPos T p s) (p + 1)
    refine ⟨ix, b, heq, fun h => ?_, fun h => hb (rebased_below_window s p h)⟩
    rw [Nat.add_comm n 1, ← Nat.add_assoc]
    exact hix (h.insertPos T s p)

/-- SkipBody as one move of the head, with the index it leaves (R108). -/
theorem skipBody_spec (n : Nat) : ∃ ix b,
    skipBody T n s = { advance (min n s.B) s with index := ix, idxBase := b }
      ∧ (IndexBelow (s.H + s.ahead) s.index → IndexBelow (s.H + min n s.B + (s.ahead - min n s.B)) ix)
      ∧ (s.idxBase + 1 ≤ (s.H : Int) - dictLen s → b + 1 ≤ (s.H : Int) - dictLen s) := by
  obtain ⟨ix, b, heq, hix, hb⟩ := insertRange_spec T s (s.H + s.ahead) (min n s.B - s.ahead)
  refine ⟨ix, b, by rw [skipBody, heq]; rfl, fun h => (hix h).mono (by omega), hb⟩

/-- FIND's last step inserts the head and counts it in AHEAD (R104), or changes nothing. -/
theorem indexHead_cases :
    indexHead T s = s ∨ s.ahead = 0 ∧ 0 < s.B ∧ indexHead T s =
      { s with index := (insertPos T s.H s).index, idxBase := rebased s s.H, ahead := 1 } := by
  unfold indexHead
  split
  · next h => exact .inr ⟨h.1, h.2, rfl⟩
  · exact .inl rfl

/-! ## The lengths a search answers (R104, R105) -/

theorem considerOpen_res_le {r : Search} (d : Nat) (h : ∀ m ∈ r.res, m.2 ≤ s.B) :
    ∀ m ∈ (considerOpen s r d).res, m.2 ≤ s.B := by
  have hlen : matchLenAt s d (needle s) ≤ s.B :=
    (matchLenAt_le_needle s d (needle s)).trans (by simp [needle])
  unfold considerOpen consider
  split
  · exact h
  · split
    · exact List.forall_mem_append.2 ⟨h, by simpa using hlen⟩
    · exact h

/-- No match of FIND's list is longer than the look-ahead. -/
theorem findList_len_le : ∀ m ∈ findList T s, m.2 ≤ s.B := by
  rw [findList, search_eq_foldl]
  exact List.foldlRecOn (motive := fun r : Search => ∀ m ∈ r.res, m.2 ≤ s.B) _ _ (by simp [Search.start])
    fun r hr d _ => considerOpen_res_le s d hr

/-- R135's checks bound the length by the look-ahead. -/
theorem len_le_of_matchOk {s : State} {d : Int} {len : Nat} (h : matchOk s d len = true) : len ≤ s.B := by
  simp only [matchOk, Bool.and_eq_true, decide_eq_true_eq] at h
  exact h.1.2

/-- A match that a turn of the compress loop codes lies in the look-ahead (R143). -/
theorem chooseOp_len_le (P : Policy) {m : Nat × Nat} (h : chooseOp P (findList T s) (indexHead T s) = some m) :
    m.2 ≤ s.B := by
  unfold chooseOp at h
  split at h
  · cases h
  · next a _ =>
    split at h
    · next hok => cases h; simpa using len_le_of_matchOk hok
    · exact findList_len_le T s m (List.mem_of_getLast? h)

end

/-! ## The ring (20_memory.md R45, R46) -/

/-- A write lists no cell but those of its positions, and takes none off the list. -/
theorem ringWriteAll_read_isSome (len : Nat) (bs : List Byte) (m : Memory) (p cell : Nat)
    (h : (m.read cell).isSome = true ∨ ∃ i < bs.length, (p + i) % len = cell) :
    ((ringWriteAll len m p bs).read cell).isSome = true := by
  induction bs generalizing m p with
  | nil => simpa [ringWriteAll] using h
  | cons b bs ih =>
    refine ih _ _ ?_
    by_cases hc : cell = p % len
    · exact .inl (by simp [hc])
    · rw [Memory.read_write_other _ _ hc]
      refine h.imp_right fun ⟨i, hi, hcell⟩ => ?_
      cases i with
      | zero => exact absurd hcell.symm (by simpa using hc)
      | succ i => exact ⟨i, by simpa using hi, by rwa [Nat.add_right_comm, Nat.add_assoc]⟩

theorem ringWriteAll_cells {len : Nat} (hlen : 0 < len) (bs : List Byte) {m : Memory} (p : Nat)
    (h : ∀ e ∈ m, e.1 < len) : ∀ e ∈ ringWriteAll len m p bs, e.1 < len := by
  induction bs generalizing m p with
  | nil => exact h
  | cons b bs ih => exact ih _ (forall_mem_sparseSet (P := fun e => e.1 < len) (Nat.mod_lt _ hlen) h)

end Sys2Proof.Machine

/-! # What an instruction can do, said once (60_exceptions.md R151)

An instruction answers, and it may have an effect before. `Effect` lists the effects, one constructor for each kind of
instruction that has one, with the checks that it has passed; `Answered` lists the ways to answer. -/

namespace Sys2Proof.Machine

/-- The ways to answer from a state: the packet rows do not, the others leave a response, a fatal status the latch. -/
inductive Answered (u : State) : State → Prop
  | silent : Answered u u
  | quiet (st : Status) (n : Nat) (v : Word64) (it : List Word64) : Answered u (respondQuietly st n v it u)
  | spoken (st : Status) (n : Nat) (v : Word64) (it : List Word64) : Answered u (respond st n v it u)
  | fatal (st : Status) (o : Byte) (h : st = .range ∨ st = .illegal) : Answered u (raiseFatal st o u)

/-- The effect of an instruction on the state, with what its own checks have established. -/
inductive Effect (s : State) : Instr → State → Prop
  | init (h : s.cfgPending.legal = true) : Effect s .init (startSession s)
  | regWrite (r : Byte) (v : Word64) :
    Effect s (.regWrite r v) { s with cfgPending := s.cfgPending.set r.toNat v }
  | sinkOpen (limit : Word64) (h : 0 ≤ limit.toInt) :
    Effect s (.sinkOpen limit) { s with coder := openSink limit.toNat s.coder }
  | write (p : List Byte) : Effect s (.write p)
    { s with
      ring := ringWriteAll (ringLen s) s.ring (s.H + s.B) (p.take (min p.length (available s)))
      B := s.B + min p.length (available s) }
  | discard (n : Word32) : Effect s (.discard n) (advance (min n.toNat s.B) s)
  | copyN (n : Word32) : Effect s (.copyN n) { s with coder := emitAll (copyBytes s n.toNat) s.coder }
  | find : Effect s .find (indexHead Config.hashTable s)
  | skip (n : Word32) : Effect s (.skip n) (skipBody Config.hashTable n.toNat s)
  | encLit (h : 1 ≤ s.B) : Effect s .encLit (encLitCore s)
  | encMatch (d : Word64) (len : Word32) (h : matchOk s d.toInt len.toNat = true) :
    Effect s (.encMatch d len) (encMatchCore d.toInt len.toNat s)
  | encEos : Effect s .encEos (codePacket .eos s)
  | rcFlush : Effect s .rcFlush { s with coder := rcFlushBody s.coder }
  | compress (all : Bool) (n : Word32) :
    Effect s (.compress all n) (runLoop Config.hashTable Config.policy all n.toNat s).state
  | close : Effect s .close (closeTail (runLoop Config.hashTable Config.policy true 0 s)).state
  | packet {i : Instr} {p : Packet} (h : i.packet? = some p) : Effect s i (codePacket p s)

/-- An instruction has led from `s` to `t`: an answer alone, or its effect and an answer. -/
def Runs (i : Instr) (s t : State) : Prop := Answered s t ∨ ∃ u, Effect s i u ∧ Answered u t

theorem Effect.answered {i : Instr} {s u t : State} (h : Effect s i u) (ha : Answered u t) : Runs i s t :=
  .inr ⟨u, h, ha⟩

/-- A command of R151 step 7 is refused by the common checks or runs its own rule. -/
theorem runs_of_runCommon {i : Instr} {c : Checks} {body : State → State} {s t : State} (hb : Runs i s (body s))
    (h : runCommon c body s = .next t) : Runs i s t := by
  rcases runCommon_cases c body s with ⟨st, -, he⟩ | ⟨-, he⟩
  · obtain rfl := Host.Outcome.next.inj (he.symm.trans h)
    exact .inl (.spoken st 0 0 [])
  · obtain rfl := Host.Outcome.next.inj (he.symm.trans h)
    exact hb

/-- A command of R151 step 3 is refused while faulted or runs its own rule. -/
theorem runs_of_runEarly {i : Instr} {body : State → State} {s t : State} (hb : Runs i s (body s))
    (h : runEarly body s = .next t) : Runs i s t := by
  unfold runEarly at h
  split at h <;> obtain rfl := Host.Outcome.next.inj h
  · exact .inl (.spoken .faulted 0 0 [])
  · exact hb

section
variable (s : State)

theorem runs_initBody : Runs .init s (initBody s) := by
  unfold initBody
  split
  · next h => exact (Effect.init h).answered (.spoken ..)
  · exact .inl (.spoken ..)

theorem runs_regReadBody (r : Byte) : Runs (.regRead r) s (regReadBody r s) := by
  unfold regReadBody
  split
  · exact .inl (.quiet ..)
  · exact .inl (.fatal _ _ (.inr rfl))

theorem runs_regWriteBody (r : Byte) (v : Word64) : Runs (.regWrite r v) s (regWriteBody r v s) := by
  unfold regWriteBody
  split
  · exact (Effect.regWrite r v).answered (.spoken ..)
  · exact .inl (.fatal _ _ (.inr rfl))

theorem runs_sinkOpenBody (limit : Word64) : Runs (.sinkOpen limit) s (sinkOpenBody limit s) := by
  unfold sinkOpenBody
  split
  · exact .inl (.fatal _ _ (.inl rfl))
  · next h => exact (Effect.sinkOpen limit (Int.not_lt.1 h)).answered (.spoken ..)

theorem runs_segmentBody (d : Word64) (n : Word32) : Runs (.segment d n) s (segmentBody d n s) := by
  unfold segmentBody
  split
  · exact .inl (.spoken ..)
  · exact .inl (.fatal _ _ (.inl rfl))

theorem runs_matchLenBody (d : Word64) (w : List Byte) : Runs (.matchLen d w) s (matchLenBody d w s) := by
  unfold matchLenBody
  split
  · exact .inl (.spoken ..)
  · exact .inl (.fatal _ _ (.inl rfl))

theorem runs_copyNBody (n : Word32) : Runs (.copyN n) s (copyNBody n s) := by
  unfold copyNBody
  split
  · exact .inl (.spoken ..)
  · exact (Effect.copyN n).answered (.spoken ..)

theorem runs_hashBody (k : Byte) (p : List Byte) : Runs (.hash k p) s (hashBody Config.hashTable k p s) := by
  unfold hashBody
  split
  · exact .inl (.spoken ..)
  · exact .inl (.fatal _ _ (.inl rfl))

theorem runs_encLitBody : Runs .encLit s (encLitBody s) := by
  unfold encLitBody
  split
  · exact .inl (.fatal _ _ (.inl rfl))
  · next h =>
    split
    · exact (Effect.encLit (Nat.not_lt.1 h)).answered (.spoken ..)
    · exact .inl (.spoken ..)

theorem runs_encMatchBody (d : Word64) (len : Word32) : Runs (.encMatch d len) s (encMatchBody d len s) := by
  unfold encMatchBody
  split
  · next h =>
    split
    · exact (Effect.encMatch d len h).answered (.spoken ..)
    · exact .inl (.spoken ..)
  · exact .inl (.fatal _ _ (.inl rfl))

theorem runs_encEosBody : Runs .encEos s (encEosBody s) := by
  unfold encEosBody
  split
  · exact Effect.encEos.answered (.spoken ..)
  · exact .inl (.spoken ..)

theorem runs_rcFlushRule : Runs .rcFlush s (rcFlushRule s) := by
  unfold rcFlushRule
  split
  · exact .inl (.spoken ..)
  · exact Effect.rcFlush.answered (.spoken ..)

end

/-- A packet row codes its packet and does not answer (log 7). -/
theorem exec_packetRow {i : Instr} {p : Packet} (h : i.packet? = some p) (s : State) :
    exec i s = .next (codePacket p s) := by
  cases i <;> cases h <;> rfl

/-- Every instruction is an answer alone, or its effect and an answer. -/
theorem runs_of_exec {i : Instr} {s t : State} (h : exec i s = .next t) : Runs i s t := by
  cases hp : i.packet? with
  | some p =>
    obtain rfl := Host.Outcome.next.inj ((exec_packetRow hp s).symm.trans h)
    exact (Effect.packet hp).answered .silent
  | none =>
    cases i with
    | init => exact runs_of_runEarly (runs_initBody s) h
    | regRead r => exact Host.Outcome.next.inj h ▸ runs_regReadBody s r
    | regWrite r v => exact runs_of_runEarly (runs_regWriteBody s r v) h
    | sinkOpen limit => exact runs_of_runCommon (runs_sinkOpenBody s limit) h
    | write p => exact runs_of_runCommon ((Effect.write p).answered (.spoken ..)) h
    | byteAt d => exact runs_of_runCommon (.inl (.spoken ..)) h
    | segment d n => exact runs_of_runCommon (runs_segmentBody s d n) h
    | matchLen d w => exact runs_of_runCommon (runs_matchLenBody s d w) h
    | discard n => exact runs_of_runCommon ((Effect.discard n).answered (.spoken ..)) h
    | copyN n => exact runs_of_runCommon (runs_copyNBody s n) h
    | hash k p => exact runs_of_runCommon (runs_hashBody s k p) h
    | find => exact runs_of_runCommon (Effect.find.answered (.spoken ..)) h
    | skip n =>
      rw [exec, execSkip] at h
      exact runs_of_runCommon ((Effect.skip n).answered (.spoken ..)) h
    | encLit => exact runs_of_runCommon (runs_encLitBody s) h
    | encMatch d len => exact runs_of_runCommon (runs_encMatchBody s d len) h
    | encEos => exact runs_of_runCommon (runs_encEosBody s) h
    | rcFlush => exact runs_of_runCommon (runs_rcFlushRule s) h
    | compress all n => exact runs_of_runCommon ((Effect.compress all n).answered (.spoken ..)) h
    | close => exact runs_of_runCommon (Effect.close.answered (.spoken ..)) h
    | _ => contradiction

/-- An answer touches STATUS.LAST, the responses and the latch alone. -/
theorem Answered.withoutLatch_eq {u t : State} (h : Answered u t) : withoutLatch t = withoutLatch u := by
  cases h with
  | silent => rfl
  | quiet => rfl
  | spoken => rfl
  | fatal st o => exact withoutLatch_raiseFatal st o u

/-! ## The compress loop (45_control.md R144, R145)

What every turn keeps holds at the loop's end. -/

section
variable {T : HashTable} {P : Policy} {Q : State → Prop}

/-- A property that every turn with look-ahead left keeps holds of the state in which the loop ends. -/
theorem compressLoop_induction (hturn : ∀ s, 1 ≤ s.B → Q s → Q (loopTurn T P s)) (all : Bool) (maxOps fuel ops : Nat)
    {s : State} (hs : Q s) : Q (compressLoop T P all maxOps fuel ops s).state := by
  induction fuel generalizing ops s with
  | zero => exact hs
  | succ n ih =>
    unfold compressLoop
    split
    · next hgo =>
      have hB : 1 ≤ s.B := by
        simp only [loopGoes, Bool.and_eq_true, decide_eq_true_eq] at hgo
        refine le_trans ?_ hgo.1
        cases all <;> decide
      split
      · split
        · exact hturn s hB hs
        · exact ih (ops + 1) (hturn s hB hs)
      · exact hs
    · exact hs

/-- What CLOSE does after its loop: at most the marker, at most a flush. -/
theorem closeTail_induction (heos : ∀ s, Q s → Q (codePacket .eos s))
    (hflush : ∀ s, Q s → Q { s with coder := rcFlushBody s.coder }) {e : LoopEnd} (he : Q e.state) :
    Q (closeTail e).state := by
  have hmark : Q (closeEos e).state := by
    unfold closeEos
    split
    · split
      · exact heos _ he
      · exact he
    · exact he
  unfold closeTail
  split
  · exact he
  · unfold closeFlush
    split
    · exact hflush _ hmark
    · exact hmark

end

end Sys2Proof.Machine

/-! # The invariant of the machine (10_state.md R42)

One lemma for each kind of effect; what an effect does not touch is taken over clause by clause. -/

namespace Sys2Proof.Machine

section
variable {s : State}

theorem Inv.indexBelow (h : Inv s) : IndexBelow (s.H + s.ahead) s.index :=
  ⟨⟨h.single2, h.single3⟩, ⟨h.chain, h.chainOrder⟩⟩

theorem dictLen_le_H (s : State) : dictLen s ≤ s.H := Nat.min_le_left _ _

/-- Every defined position is written (20_memory.md R46). -/
theorem Inv.defined (h : Inv s) {p : Nat} (hlo : s.H - dictLen s ≤ p) (hhi : p < s.H + s.B) :
    (s.ring.read (ringCell s p)).isSome = true := by
  have hd := dictLen_le_H s
  have := h.ringDefined (p - (s.H - dictLen s)) (by omega)
  rwa [Nat.add_sub_cancel' hlo] at this

/-! ## Answers and the host's side -/

/-- The latch holds a fatal status and nothing else (60_exceptions.md R149). -/
structure LatchInv (s : State) : Prop where
  unlatched : s.faulted = false → s.faultCode = 0 ∧ s.faultOpc = 0
  latched   : s.faulted = true → s.faultCode = Status.range.code ∨ s.faultCode = Status.illegal.code

theorem Inv.latch (h : Inv s) : LatchInv s := ⟨h.unlatched, h.latched⟩

/-- `Inv` reads neither STATUS.LAST nor the responses, and of the latch what `LatchInv` says. -/
theorem Inv.of_withoutLatch_eq {t : State} (h : Inv s) (heq : withoutLatch t = withoutLatch s) (hl : LatchInv t) :
    Inv t := by
  have hs : Inv (withoutLatch s) := { h with unlatched := fun _ => ⟨rfl, rfl⟩, latched := by simp }
  rw [← heq] at hs
  exact { hs with unlatched := hl.unlatched, latched := hl.latched }

theorem LatchInv.raiseFatal {st : Status} (h : LatchInv s) (o : Byte) (hst : st = .range ∨ st = .illegal) :
    LatchInv (raiseFatal st o s) := by
  refine ⟨by simp, fun _ => ?_⟩
  rw [raiseFatal_faultCode]
  split
  · next hf => exact h.latched hf
  · rcases hst with rfl | rfl <;> simp

theorem LatchInv.answered {t : State} (h : LatchInv s) (ha : Answered s t) : LatchInv t := by
  cases ha with
  | silent => exact h
  | quiet => exact ⟨h.unlatched, h.latched⟩
  | spoken => exact ⟨h.unlatched, h.latched⟩
  | fatal st o hst => exact h.raiseFatal o hst

theorem Inv.answered {t : State} (h : Inv s) (ha : Answered s t) : Inv t :=
  h.of_withoutLatch_eq ha.withoutLatch_eq (h.latch.answered ha)

theorem Inv.withInbox (h : Inv s) (moves : List HostEvent) : Inv { s with inbox := moves } := { h with }

/-! ## Single pieces of state -/

theorem Inv.withPending (h : Inv s) (c : Cfg) : Inv { s with cfgPending := c } := { h with }

theorem Inv.withCoder {c : Coder} (h : Inv s) (hc : CoderInv c) : Inv { s with coder := c } := { h with coder := hc }

theorem Inv.withPend {n : Nat} (h : Inv s) (hn : n ≤ s.B) : Inv { s with pend := n } := { h with pendLe := hn }

theorem Inv.withHeadIndexed {ix : Index} {b : Int} (h : Inv s) (hB : 1 ≤ s.B) (hix : IndexBelow (s.H + 1) ix)
    (hb : b + 1 ≤ (s.H : Int) - dictLen s) : Inv { s with index := ix, idxBase := b, ahead := 1 } :=
  { h with
    aheadLe := hB
    aheadOne := Nat.le_refl 1
    single2 := hix.singles.single2
    single3 := hix.singles.single3
    chain := hix.chains.below
    chainOrder := hix.chains.order
    base := hb }

/-! ## The ring and the head -/

/-- INIT on a legal configuration (45_control.md R140). -/
theorem Inv.startSession (h : Inv s) (hlegal : s.cfgPending.legal = true) : Inv (startSession s) :=
  have hix := indexBelow_empty (0 + 0)
  { cfgLegal := fun _ => hlegal
    unborn := by simp
    window := by simp [dictLen]
    total := by simp
    aheadLe := by simp
    aheadOne := by simp
    pendLe := by simp
    lzLe := by simp
    ringForm := rfl
    ringCells := by simp
    ringDefined := by simp [dictLen]
    single2 := hix.singles.single2
    single3 := hix.singles.single3
    chain := hix.chains.below
    chainOrder := hix.chains.order
    base := by simp [dictLen]
    coder := CoderInv.sessionCoder s.coder
    unlatched := h.unlatched
    latched := h.latched }

/-- WRITE appends at most the available bytes (40_dictionary.md R79). -/
theorem Inv.write (h : Inv s) (p : List Byte) : Inv { s with
    ring := ringWriteAll (ringLen s) s.ring (s.H + s.B) (p.take (min p.length (available s)))
    B := s.B + min p.length (available s) } := by
  generalize hn : min p.length (available s) = n
  have hlen : (p.take n).length = n := by rw [List.length_take]; omega
  have hroom : n ≤ ringLen s - s.B - dictLen s := by simp only [available] at hn; omega
  have htotal : n ≤ 18446744073709551615 - (s.H + s.B) := by simp only [available] at hn; omega
  have hwindow := h.window
  have hsum := h.total
  refine { h with
    unborn := fun hi => ?_
    window := by change s.B + n + dictLen s ≤ ringLen s; omega
    total := by simp only; omega
    aheadLe := h.aheadLe.trans (Nat.le_add_right _ _)
    pendLe := h.pendLe.trans (Nat.le_add_right _ _)
    ringForm := ringWriteAll_wf _ _ h.ringForm
    ringCells := ?_
    ringDefined := fun i hi => ringWriteAll_read_isSome _ _ _ _ _ ?_ }
  · obtain ⟨hcfg, hH, hB⟩ := h.unborn hi
    have hL : ringLen s = 0 := by simp [ringLen, hcfg, Cfg.zero]
    exact ⟨hcfg, hH, by simp only; omega⟩
  · rcases Nat.eq_zero_or_pos n with rfl | hpos
    · exact h.ringCells
    · exact ringWriteAll_cells (len := ringLen s) (by omega) _ _ h.ringCells
  · change i < dictLen s + (s.B + n) at hi
    have hd := dictLen_le_H s
    by_cases hold : s.H - dictLen s + i < s.H + s.B
    · exact .inl (h.defined (Nat.le_add_right _ _) hold)
    · refine .inr ⟨s.H - dictLen s + i - (s.H + s.B), by omega, ?_⟩
      rw [Nat.add_sub_cancel' (by omega)]
      rfl

/-- The window after the head has moved by `m` begins no earlier, and is at most `m` longer. -/
theorem dictLen_advance (s : State) (m : Nat) :
    dictLen (advance m s) ≤ dictLen s + m ∧ s.H - dictLen s ≤ s.H + m - dictLen (advance m s) := by
  simp only [dictLen, advance_H, advance_cfg]
  omega

/-- The head moves over look-ahead, with an index below the new head (40_dictionary.md R84). -/
theorem Inv.advance {m : Nat} {ix : Index} {b : Int} (h : Inv s) (hm : m ≤ s.B)
    (hix : IndexBelow (s.H + m + (s.ahead - m)) ix) (hb : b + 1 ≤ (s.H : Int) - dictLen s) :
    Inv { advance m s with index := ix, idxBase := b } := by
  obtain ⟨hlen, hstart⟩ := dictLen_advance s m
  have hd := dictLen_le_H s
  have hd' := dictLen_le_H (Machine.advance m s)
  have hwindow := h.window
  have hsum := h.total
  rw [advance_H] at hd'
  refine { h with
    unborn := fun hi => ?_
    window := ?_
    total := by simp only [advance_H, advance_B]; omega
    aheadLe := Nat.sub_le_sub_right h.aheadLe m
    aheadOne := (Nat.sub_le _ _).trans h.aheadOne
    pendLe := Nat.sub_le_sub_right h.pendLe m
    ringDefined := fun i hi => ?_
    single2 := hix.singles.single2
    single3 := hix.singles.single3
    chain := hix.chains.below
    chainOrder := hix.chains.order
    base := ?_ }
  · obtain ⟨hcfg, hH, hB⟩ := h.unborn hi
    exact ⟨hcfg, by simp only [advance_H]; omega, by simp only [advance_B]; omega⟩
  · change s.B - m + dictLen (Machine.advance m s) ≤ ringLen s
    omega
  · change i < dictLen (Machine.advance m s) + (s.B - m) at hi
    exact h.defined (p := s.H + m - dictLen (Machine.advance m s) + i) (by omega) (by omega)
  · change b + 1 ≤ ((s.H + m : Nat) : Int) - dictLen (Machine.advance m s)
    omega

theorem Inv.discard (h : Inv s) (n : Nat) : Inv (Machine.advance (min n s.B) s) :=
  h.advance (Nat.min_le_right n s.B) (h.indexBelow.mono (by omega)) h.base

theorem Inv.indexHead (T : HashTable) (h : Inv s) : Inv (indexHead T s) := by
  rcases indexHead_cases T s with heq | ⟨hahead, hB, heq⟩ <;> rw [heq]
  · exact h
  · refine h.withHeadIndexed hB (IndexBelow.insertPos T s s.H ?_) (rebased_below_window s s.H h.base)
    simpa [hahead] using h.indexBelow

theorem Inv.skipBody (T : HashTable) (n : Nat) (h : Inv s) : Inv (skipBody T n s) := by
  obtain ⟨ix, b, heq, hix, hb⟩ := skipBody_spec T s n
  rw [heq]
  exact h.advance (Nat.min_le_right n s.B) (hix h.indexBelow) (hb h.base)

/-! ## Coding -/

/-- The states of 44_lzma_model.md R125 are 0 to 11. -/
theorem lzAfter_le {st : Nat} (p : Packet) (h : st ≤ 11) : lzAfter p st ≤ 11 := by
  cases p with
  | lit => simp only [lzAfter, updLit]; split_ifs <;> omega
  | simpleMatch => simp only [lzAfter, updMatch]; split <;> omega
  | shortRep => simp only [lzAfter, updShortRep]; split <;> omega
  | longRep => simp only [lzAfter, updRep]; split <;> omega
  | eos => simp only [lzAfter, updMatch]; split <;> omega

theorem Inv.codePacket (p : Packet) (h : Inv s) : Inv (codePacket p s) :=
  { h with
    lzLe := by
      have hlz := lzAfter_le p h.lzLe
      simp only [codePacket_lzState, BitVec.toNat_ofNat]
      omega
    coder := h.coder.codeAll _ }

theorem Inv.encLitCore (h : Inv s) (hB : 1 ≤ s.B) : Inv (encLitCore s) :=
  (h.codePacket _).withPend hB

theorem Inv.encMatchCore {len : Nat} (d : Int) (h : Inv s) (hlen : len ≤ s.B) : Inv (encMatchCore d len s) :=
  (h.codePacket _).withPend hlen

/-- One turn of the compress loop: FindBody, then the operation it leads to (45_control.md R144). -/
theorem Inv.loopTurn (T : HashTable) (P : Policy) (h : Inv s) (hB : 1 ≤ s.B) : Inv (loopTurn T P s) := by
  unfold Machine.loopTurn
  cases hop : chooseOp P (findList T s) (Machine.indexHead T s) with
  | none => exact ((h.indexHead T).encLitCore (by simpa using hB)).skipBody T 1
  | some m => exact ((h.indexHead T).encMatchCore _ (by simpa using chooseOp_len_le T s P hop)).skipBody T m.2

theorem Inv.runLoop (T : HashTable) (P : Policy) (all : Bool) (maxOps : Nat) (h : Inv s) :
    Inv (runLoop T P all maxOps s).state :=
  compressLoop_induction (fun _ hB hs => hs.loopTurn T P hB) all maxOps _ _ h

theorem Inv.closeTail {e : LoopEnd} (h : Inv e.state) : Inv (closeTail e).state :=
  closeTail_induction (fun _ hs => hs.codePacket .eos) (fun _ hs => hs.withCoder hs.coder.rcFlushBody) h

/-! ## Every instruction and every step -/

theorem Inv.effect {i : Instr} {u : State} (h : Inv s) (he : Effect s i u) : Inv u := by
  cases he with
  | init hlegal => exact h.startSession hlegal
  | regWrite r v => exact h.withPending _
  | sinkOpen limit hlimit =>
    refine h.withCoder (h.coder.openSink ?_)
    have := limit.toInt_eq_toNat_cond
    have := limit.isLt
    split at * <;> omega
  | write p => exact h.write p
  | discard n => exact h.discard n.toNat
  | copyN n => exact h.withCoder (h.coder.emitAll _)
  | find => exact h.indexHead _
  | skip n => exact h.skipBody _ n.toNat
  | encLit hB => exact h.encLitCore hB
  | encMatch d len hok => exact h.encMatchCore d.toInt (len_le_of_matchOk hok)
  | encEos => exact h.codePacket .eos
  | rcFlush => exact h.withCoder h.coder.rcFlushBody
  | compress all n => exact h.runLoop _ _ all n.toNat
  | close => exact (h.runLoop _ _ true 0).closeTail
  | packet => exact h.codePacket _

theorem Inv.exec {i : Instr} {t : State} (h : Inv s) (he : exec i s = .next t) : Inv t := by
  rcases runs_of_exec he with ha | ⟨u, heff, ha⟩
  · exact h.answered ha
  · exact (h.effect heff).answered ha

/-- A word that does not decode is answered, and nothing more (60_exceptions.md R152). -/
theorem answered_runIllegal (opc : Byte) (s : State) : Answered s (runIllegal opc s) := by
  unfold runIllegal
  split
  · exact .spoken ..
  · exact .fatal _ _ (.inr rfl)

theorem Inv.runCommand {w : CommandWord} {payload : List Byte} {t : State} (h : Inv s)
    (hr : runCommand w payload s = .next t) : Inv t := by
  unfold Machine.runCommand at hr
  split at hr
  · exact h.exec hr
  · exact Host.Outcome.next.inj hr ▸ h.answered (answered_runIllegal _ s)

theorem inv_reset : Inv State.reset where
  cfgLegal := by decide
  unborn _ := ⟨rfl, rfl, rfl⟩
  window := by decide
  total := by decide
  aheadLe := by decide
  aheadOne := by decide
  pendLe := by decide
  lzLe := by decide
  ringForm := rfl
  ringCells := by decide
  ringDefined := by decide
  single2 := by decide
  single3 := by decide
  chain := by decide
  chainOrder := by decide
  base := by decide
  coder := coderInv_reset
  unlatched _ := ⟨rfl, rfl⟩
  latched := by decide

theorem Inv.step {t : State} (h : Inv s) (hs : step s = .next t) : Inv t := by
  unfold Machine.step takeMove at hs
  split at hs
  · exact Host.Outcome.next.inj hs ▸ h
  · exact Host.Outcome.next.inj hs ▸ inv_reset.withInbox _
  · exact (h.withInbox _).runCommand hs

end

/-- Settles O58: every clause is a fact about the values of R44. -/
theorem invariantAtReset : Obligations.InvariantAtReset := inv_reset

/-- Settles O59: an instruction is an answer, which `Inv` does not see but for the latch, after at most one effect; and
a step is an instruction, an answer or a reset. -/
theorem invariantKeptByEveryStep : Obligations.InvariantKeptByEveryStep :=
  ⟨fun _ _ h hs => h.step hs, fun _ _ _ h he => h.exec he⟩

end Sys2Proof.Machine

/-! # Which instructions may write which state (10_state.md R18 to R36, 20_memory.md R61, 40_dictionary.md R84) -/

namespace Sys2Proof.Machine

/-- What searching, coding and skipping leave: the configuration, the ring and the end of the written data. The head
moves forward only. -/
structure Consumes (s t : State) : Prop where
  cfg        : t.cfg = s.cfg
  initDone   : t.initDone = s.initDone
  cfgPending : t.cfgPending = s.cfgPending
  ring       : t.ring = s.ring
  total      : t.H + t.B = s.H + s.B
  head       : s.H ≤ t.H

theorem Consumes.refl (s : State) : Consumes s s := ⟨rfl, rfl, rfl, rfl, rfl, Nat.le_refl _⟩

theorem Consumes.trans {s t u : State} (h : Consumes s t) (h' : Consumes t u) : Consumes s u where
  cfg := h'.cfg.trans h.cfg
  initDone := h'.initDone.trans h.initDone
  cfgPending := h'.cfgPending.trans h.cfgPending
  ring := h'.ring.trans h.ring
  total := h'.total.trans h.total
  head := h.head.trans h'.head

theorem consumes_advance {m : Nat} {s : State} (hm : m ≤ s.B) : Consumes s (advance m s) :=
  ⟨rfl, rfl, rfl, rfl, by simp only [advance_H, advance_B]; omega, by simp⟩

theorem consumes_indexHead (T : HashTable) (s : State) : Consumes s (indexHead T s) := by
  constructor <;> simp

theorem consumes_skipBody (T : HashTable) (n : Nat) (s : State) : Consumes s (skipBody T n s) := by
  obtain ⟨ix, b, heq, -, -⟩ := skipBody_spec T s n
  obtain ⟨hcfg, hinit, hpending, hring, htotal, hhead⟩ := consumes_advance (Nat.min_le_right n s.B)
  rw [heq]
  exact ⟨hcfg, hinit, hpending, hring, htotal, hhead⟩

/-- Coding a packet moves neither the head nor the data. -/
theorem consumes_of_coding (s : State) (c : Coder) (lz : Byte) (r : Reps) (n : Nat) :
    Consumes s { s with coder := c, lzState := lz, rep := r, pend := n } :=
  ⟨rfl, rfl, rfl, rfl, rfl, Nat.le_refl _⟩

theorem consumes_loopTurn (T : HashTable) (P : Policy) (s : State) : Consumes s (loopTurn T P s) := by
  refine (consumes_indexHead T s).trans ?_
  unfold loopTurn codeOp
  split
  · exact (consumes_of_coding ..).trans (consumes_skipBody T _ _)
  · exact (consumes_of_coding ..).trans (consumes_skipBody T 1 _)

theorem consumes_runLoop (T : HashTable) (P : Policy) (all : Bool) (maxOps : Nat) (s : State) :
    Consumes s (runLoop T P all maxOps s).state :=
  compressLoop_induction (fun u _ hu => hu.trans (consumes_loopTurn T P u)) all maxOps _ _ (.refl s)

theorem consumes_closeTail {s : State} {e : LoopEnd} (h : Consumes s e.state) : Consumes s (closeTail e).state :=
  closeTail_induction (fun _ hu => hu.trans (consumes_of_coding ..)) (fun _ hu => hu.trans (consumes_of_coding ..)) h

/-! ## Opcodes (30_encoding.md R67) -/

@[simp] theorem opcode_init : Instr.opcode .init = 0x01 := opcOf_mkWord ..
@[simp] theorem opcode_regWrite (r : Byte) (v : Word64) : (Instr.regWrite r v).opcode = 0x03 := opcOf_mkWord ..
@[simp] theorem opcode_sinkOpen (limit : Word64) : (Instr.sinkOpen limit).opcode = 0x04 := opcOf_mkWord ..
@[simp] theorem opcode_write (p : List Byte) : (Instr.write p).opcode = 0x10 := opcOf_mkWord ..
@[simp] theorem opcode_discard (n : Word32) : (Instr.discard n).opcode = 0x14 := opcOf_mkWord ..
@[simp] theorem opcode_copyN (n : Word32) : (Instr.copyN n).opcode = 0x15 := opcOf_mkWord ..
@[simp] theorem opcode_find : Instr.opcode .find = 0x21 := opcOf_mkWord ..
@[simp] theorem opcode_skip (n : Word32) : (Instr.skip n).opcode = 0x22 := opcOf_mkWord ..
@[simp] theorem opcode_encLit : Instr.opcode .encLit = 0x30 := opcOf_mkWord ..
@[simp] theorem opcode_encMatch (d : Word64) (len : Word32) : (Instr.encMatch d len).opcode = 0x31 := opcOf_mkWord ..
@[simp] theorem opcode_encEos : Instr.opcode .encEos = 0x32 := opcOf_mkWord ..
@[simp] theorem opcode_rcFlush : Instr.opcode .rcFlush = 0x33 := opcOf_mkWord ..
@[simp] theorem opcode_compress (all : Bool) (n : Word32) : (Instr.compress all n).opcode = 0x40 := opcOf_mkWord ..
@[simp] theorem opcode_close : Instr.opcode .close = 0x41 := opcOf_mkWord ..

/-! ## Writers -/

/-- What an instruction that has led from `s` to `t` has left alone: the seven clauses of `EachStateHasItsWriters`. -/
structure Respects (i : Instr) (s t : State) : Prop where
  active  : i.opcode ≠ 0x01#8 → t.cfg = s.cfg ∧ t.initDone = s.initDone
  pending : i.opcode ≠ 0x03#8 → t.cfgPending = s.cfgPending
  ring    : i.opcode.toNat ∉ [0x01, 0x10] → t.ring = s.ring ∧ t.H + t.B = s.H + s.B ∧ s.H ≤ t.H
  head    : i.opcode.toNat ∉ [0x01, 0x14, 0x22, 0x40, 0x41] →
    t.H = s.H ∧ s.B ≤ t.B ∧ (t.ahead = s.ahead ∨ i = .find)
  index   : i.opcode.toNat ∉ [0x01, 0x21, 0x22, 0x40, 0x41] → t.index = s.index ∧ t.idxBase = s.idxBase
  model   : i.opcode.toNat ∉ [0x01, 0x30, 0x31, 0x32, 0x40, 0x41] → i.isCommand = true →
    t.lzState = s.lzState ∧ t.rep = s.rep ∧ t.coder.probs = s.coder.probs
  coder   : i.opcode.toNat ∉ [0x01, 0x04, 0x15, 0x30, 0x31, 0x32, 0x33, 0x40, 0x41] → i.isCommand = true →
    t.coder = s.coder

theorem Respects.refl (i : Instr) (s : State) : Respects i s s := by
  constructor <;> simp

/-- A loop command may write the index, the model and the coder; what it must leave is what `Consumes` keeps. -/
theorem Respects.of_consumes {i : Instr} {s t : State} (hi : i.opcode.toNat ∈ [0x40, 0x41]) (h : Consumes s t) :
    Respects i s t where
  active _ := ⟨h.cfg, h.initDone⟩
  pending _ := h.cfgPending
  ring _ := ⟨h.ring, h.total, h.head⟩
  head hn := by simp_all
  index hn := by simp_all
  model hn := by simp_all
  coder hn := by simp_all

/-- An encode command or a packet row may write the model and the coder. -/
theorem Respects.of_coding {i : Instr} (hi : i.isCommand = true → i.opcode.toNat ∈ [0x30, 0x31, 0x32]) (s : State)
    (c : Coder) (lz : Byte) (r : Reps) (n : Nat) :
    Respects i s { s with coder := c, lzState := lz, rep := r, pend := n } where
  active _ := ⟨rfl, rfl⟩
  pending _ := rfl
  ring _ := ⟨rfl, rfl, Nat.le_refl _⟩
  head _ := ⟨rfl, Nat.le_refl _, .inl rfl⟩
  index _ := ⟨rfl, rfl⟩
  model hn hc := absurd (hi hc) (by simp_all)
  coder hn hc := absurd (hi hc) (by simp_all)

theorem Effect.respects {i : Instr} {s u : State} (h : Effect s i u) : Respects i s u := by
  cases h with
  | compress all n => exact .of_consumes (by simp) (consumes_runLoop _ _ _ _ _)
  | close => exact .of_consumes (by simp) (consumes_closeTail (consumes_runLoop _ _ _ _ _))
  | encLit => exact .of_coding (by simp) s ..
  | encMatch => exact .of_coding (by simp) s ..
  | encEos => exact .of_coding (by simp) s ..
  | packet hp => exact .of_coding (by simp [Instr.isCommand, hp]) s ..
  | skip n =>
    obtain ⟨ix, b, heq, -, -⟩ := skipBody_spec Config.hashTable s n.toNat
    rw [heq]
    constructor <;> simp
  | _ => constructor <;> simp

theorem Respects.of_withoutLatch_eq {i : Instr} {s u t : State} (h : Respects i s u)
    (heq : withoutLatch t = withoutLatch u) : Respects i s t := by
  have hu : Respects i s (withoutLatch u) := ⟨h.active, h.pending, h.ring, h.head, h.index, h.model, h.coder⟩
  rw [← heq] at hu
  exact ⟨hu.active, hu.pending, hu.ring, hu.head, hu.index, hu.model, hu.coder⟩

theorem Runs.respects {i : Instr} {s t : State} (h : Runs i s t) : Respects i s t := by
  rcases h with ha | ⟨u, he, ha⟩
  · exact (Respects.refl i s).of_withoutLatch_eq ha.withoutLatch_eq
  · exact he.respects.of_withoutLatch_eq ha.withoutLatch_eq

/-- Settles O60: answers touch none of this state, and each effect leaves what its instruction may not write. -/
theorem eachStateHasItsWriters : Obligations.EachStateHasItsWriters := by
  intro i s t h
  obtain ⟨hactive, hpending, hring, hhead, hindex, hmodel, hcoder⟩ := (runs_of_exec h).respects
  exact ⟨hactive, hpending, hring, hhead, hindex, hmodel, hcoder⟩

end Sys2Proof.Machine

/-! # The cells of the probability bank (10_state.md R31, 44_lzma_model.md R126 to R131) -/

namespace Sys2Proof.Machine

/-! ## Addresses (log 4)

No two cells share an address, because the address names the cell. -/

/-- The cell of a length coder at an offset from the coder's base. -/
def lenCellAt (c : LenCoder) (j : Nat) : ProbCell :=
  if j = 0 then .choice c
  else if j = 1 then .choice2 c
  else if j < 130 then .low c ((j - 2) / 8) ((j - 2) % 8)
  else if j < 258 then .mid c ((j - 130) / 8) ((j - 130) % 8)
  else .high c (j - 258)

/-- The cell at an address of the bank. -/
def cellAt (a : Nat) : ProbCell :=
  if a < 192 then .isMatch (a / 16) (a % 16)
  else if a < 204 then .isRep (a - 192)
  else if a < 216 then .isRepG0 (a - 204)
  else if a < 228 then .isRepG1 (a - 216)
  else if a < 240 then .isRepG2 (a - 228)
  else if a < 432 then .isRep0Long ((a - 240) / 16) ((a - 240) % 16)
  else if a < 946 then lenCellAt .len (a - 432)
  else if a < 1460 then lenCellAt .repLen (a - 946)
  else if a < 1716 then .posSlot ((a - 1460) / 64) ((a - 1460) % 64)
  else if a < 2036 then .posSpec ((a - 1716) / 32 + 4) ((a - 1716) % 32)
  else if a < 2052 then .align (a - 2036)
  else .lit ((a - 2052) / 768) ((a - 2052) % 768)

theorem cellAt_base_add (c : LenCoder) {j : Nat} (hj : j < 514) : cellAt (c.base + j) = lenCellAt c j := by
  cases c <;> simp (disch := omega) only [LenCoder.base, cellAt, if_pos, if_neg, Nat.add_sub_cancel_left]

/-- The trees of slots 4 to 13 have at most 32 nodes (44_lzma_model.md R131). -/
theorem footer_pow_le {slot : Nat} (h : slot < 14) : 2 ^ (slot / 2 - 1) ≤ 32 :=
  (Nat.pow_le_pow_right (by norm_num) (by omega)).trans (by norm_num : 2 ^ 5 ≤ 32)

/-- A cell within its shape is the one that its address names: `cellAt` undoes the layout's sums. -/
theorem cellAt_addr {lits : Nat} {cell : ProbCell} (h : cell.inShape lits = true) : cellAt cell.addr = cell := by
  revert h
  cases cell <;> simp only [ProbCell.inShape, Bool.and_eq_true, decide_eq_true_eq, and_imp, true_imp_iff]
  case choice c => exact cellAt_base_add c (j := 0) (by omega)
  case choice2 c => exact cellAt_base_add c (j := 1) (by omega)
  case low c ps i =>
    intro hps hi
    rw [ProbCell.addr, Nat.add_assoc, cellAt_base_add c (by omega)]
    simp (disch := omega) only [lenCellAt, if_pos, if_neg, ProbCell.low.injEq, true_and]
    omega
  case mid c ps i =>
    intro hps hi
    rw [ProbCell.addr, Nat.add_assoc, cellAt_base_add c (by omega)]
    simp (disch := omega) only [lenCellAt, if_pos, if_neg, ProbCell.mid.injEq, true_and]
    omega
  case high c i =>
    intro hi
    rw [ProbCell.addr, Nat.add_assoc, cellAt_base_add c (by omega)]
    simp (disch := omega) only [lenCellAt, if_neg, ProbCell.high.injEq, true_and]
    omega
  case posSpec slot i =>
    intro hlo hhi hi
    have hi32 := hi.trans_le (footer_pow_le hhi)
    rw [ProbCell.addr]
    simp (disch := omega) only [cellAt, if_pos, if_neg, ProbCell.posSpec.injEq]
    omega
  all_goals
    intros
    rw [ProbCell.addr]
    simp (disch := omega) only [cellAt, if_pos, if_neg, ProbCell.isMatch.injEq, ProbCell.isRep.injEq,
      ProbCell.isRepG0.injEq, ProbCell.isRepG1.injEq, ProbCell.isRepG2.injEq, ProbCell.isRep0Long.injEq,
      ProbCell.posSlot.injEq, ProbCell.align.injEq, ProbCell.lit.injEq]
    omega

/-! ## Decisions within the bank -/

/-- Every cell that the decisions name lies within its array's shape. -/
def CellsIn (lits : Nat) (ds : List Decision) : Prop :=
  ∀ cell b, .adaptive cell b ∈ ds → cell.inShape lits = true

section
variable {lits : Nat}

@[simp] theorem cellsIn_nil : CellsIn lits [] := by simp [CellsIn]

@[simp] theorem cellsIn_adaptive_cons (cell : ProbCell) (b : Bool) (ds : List Decision) :
    CellsIn lits (.adaptive cell b :: ds) ↔ cell.inShape lits = true ∧ CellsIn lits ds := by
  simp only [CellsIn, List.mem_cons, Decision.adaptive.injEq]
  exact ⟨fun h => ⟨h cell b (.inl ⟨rfl, rfl⟩), fun c b' hc => h c b' (.inr hc)⟩,
    fun ⟨h, hds⟩ c b' hc => hc.elim (fun ⟨hcell, _⟩ => hcell ▸ h) (hds c b')⟩

@[simp] theorem cellsIn_append (ds es : List Decision) :
    CellsIn lits (ds ++ es) ↔ CellsIn lits ds ∧ CellsIn lits es := by
  simp only [CellsIn, List.mem_append]
  exact ⟨fun h => ⟨fun c b hc => h c b (.inl hc), fun c b hc => h c b (.inr hc)⟩,
    fun ⟨hd, he⟩ c b hc => hc.elim (hd c b) (he c b)⟩

@[simp] theorem cellsIn_directMsb (n v : Nat) : CellsIn lits (directMsb n v) := by
  simp [CellsIn, directMsb]

/-- A tree walk of `n` bits from node `m` stays below (m + 1) * 2 ^ (n - 1) (R120, R121). -/
theorem cellsIn_treeDecisions {A : Nat → ProbCell} {bound : Nat} (hA : ∀ i < bound, (A i).inShape lits = true)
    (m : Nat) (bits : List Bool) (h : (m + 1) * 2 ^ bits.length ≤ 2 * bound) :
    CellsIn lits (treeDecisions A m bits) := by
  induction bits generalizing m with
  | nil => exact cellsIn_nil
  | cons b bs ih =>
    have hb : b.toNat ≤ 1 := b.toNat_le
    rw [List.length_cons, pow_succ, ← mul_assoc, mul_comm _ 2] at h
    have hle : (m + 1) * 2 ^ bs.length ≤ bound := by omega
    have hm : m + 1 ≤ bound := (Nat.le_mul_of_pos_right _ (by positivity)).trans hle
    refine (cellsIn_adaptive_cons _ _ _).2 ⟨hA m (by omega), ih _ ?_⟩
    calc (2 * m + b.toNat + 1) * 2 ^ bs.length ≤ 2 * (m + 1) * 2 ^ bs.length := Nat.mul_le_mul_right _ (by omega)
      _ ≤ 2 * bound := by rw [mul_assoc]; omega

theorem cellsIn_treeMsb {A : Nat → ProbCell} {n : Nat} (v : Nat) (hA : ∀ i < 2 ^ n, (A i).inShape lits = true) :
    CellsIn lits (treeMsb A n v) :=
  cellsIn_treeDecisions hA 1 _ (by simp)

theorem cellsIn_treeLsb {A : Nat → ProbCell} {n : Nat} (v : Nat) (hA : ∀ i < 2 ^ n, (A i).inShape lits = true) :
    CellsIn lits (treeLsb A n v) :=
  cellsIn_treeDecisions hA 1 _ (by simp)

/-! ## The coders (R128 to R131) -/

theorem cellsIn_litPlain {ls : Nat} (hls : ls < lits) (sym : Nat) (bits : List Bool)
    (h : (sym + 1) * 2 ^ bits.length ≤ 512) : CellsIn lits (litPlain ls sym bits) :=
  cellsIn_treeDecisions (bound := 256) (fun i hi => by simp [ProbCell.inShape, hls]; omega) sym bits h

/-- In matched mode the match byte's bit moves the cell up by one or two times 256 (R128). -/
theorem cellsIn_litMatched {ls : Nat} (hls : ls < lits) (sym : Nat) (mbs bits : List Bool)
    (h : (sym + 1) * 2 ^ bits.length ≤ 512) : CellsIn lits (litMatched ls sym mbs bits) := by
  induction bits generalizing sym mbs with
  | nil => cases mbs <;> simp [litMatched, litPlain, treeDecisions]
  | cons b bs ih =>
    cases mbs with
    | nil => exact cellsIn_litPlain hls sym (b :: bs) h
    | cons mb mbs =>
      have hb : b.toNat ≤ 1 := b.toNat_le
      have hmb : mb.toNat ≤ 1 := mb.toNat_le
      rw [List.length_cons, pow_succ, ← mul_assoc] at h
      have hsym : sym + 1 ≤ (sym + 1) * 2 ^ bs.length := Nat.le_mul_of_pos_right _ (by positivity)
      have hnext : (2 * sym + b.toNat + 1) * 2 ^ bs.length ≤ 512 :=
        calc (2 * sym + b.toNat + 1) * 2 ^ bs.length ≤ 2 * (sym + 1) * 2 ^ bs.length :=
              Nat.mul_le_mul_right _ (by omega)
          _ ≤ 512 := by rw [mul_assoc]; omega
      refine (cellsIn_adaptive_cons _ _ _).2 ⟨?_, ?_⟩
      · simp only [ProbCell.inShape, Bool.and_eq_true, decide_eq_true_eq]
        omega
      · split
        · exact ih _ _ hnext
        · exact cellsIn_litPlain hls _ _ hnext

theorem cellsIn_lenDecisions (c : LenCoder) (len : Nat) {ps : Nat} (hps : ps < 16) :
    CellsIn lits (lenDecisions c len ps) := by
  unfold lenDecisions
  split
  · simpa [ProbCell.inShape] using cellsIn_treeMsb _ (by simp [ProbCell.inShape, hps])
  · split
    · simpa [ProbCell.inShape] using cellsIn_treeMsb _ (by simp [ProbCell.inShape, hps])
    · simpa [ProbCell.inShape] using cellsIn_treeMsb _ (by simp [ProbCell.inShape])

theorem cellsIn_distDecisions (d0 len : Nat) : CellsIn lits (distDecisions d0 len) := by
  rw [distDecisions, cellsIn_append]
  refine ⟨cellsIn_treeMsb _ fun i hi => ?_, ?_⟩
  · simp only [ProbCell.inShape, Bool.and_eq_true, decide_eq_true_eq]
    omega
  · unfold distTailDecisions
    split
    · exact cellsIn_nil
    · next h4 =>
      split
      · next h14 =>
        refine cellsIn_treeLsb _ fun i hi => ?_
        simpa [ProbCell.inShape, slotFooterBits] using ⟨⟨Nat.not_lt.1 h4, h14⟩, hi⟩
      · exact (cellsIn_append _ _).2 ⟨cellsIn_directMsb _ _, cellsIn_treeLsb _ (by simp [ProbCell.inShape])⟩

/-! ## Packets (R126, R127, R133) -/

/-- Contexts within the arrays' shapes. -/
structure ContextIn (lits : Nat) (k : Context) : Prop where
  st       : k.st < 12
  ps       : k.ps < 16
  litState : k.litState < lits

theorem cellsIn_literalDecisions {k : Context} (hk : ContextIn lits k) (x : Byte) :
    CellsIn lits (literalDecisions k x) := by
  unfold literalDecisions
  split
  · exact cellsIn_litPlain hk.litState 1 _ (by simp)
  · exact cellsIn_litMatched hk.litState 1 _ _ (by simp)

theorem cellsIn_packetDecisions {k : Context} (hk : ContextIn lits k) (p : Packet) :
    CellsIn lits (packetDecisions k p) := by
  rw [packetDecisions, cellsIn_append]
  refine ⟨?_, ?_⟩
  · unfold headDecisions
    split <;> simp [ProbCell.inShape, hk.st, hk.ps]
  · unfold tailDecisions
    split
    · exact cellsIn_literalDecisions hk _
    · exact (cellsIn_append _ _).2 ⟨cellsIn_lenDecisions _ _ hk.ps, cellsIn_distDecisions _ _⟩
    · exact cellsIn_nil
    · exact cellsIn_lenDecisions _ _ hk.ps
    · exact (cellsIn_append _ _).2 ⟨cellsIn_lenDecisions _ _ hk.ps, cellsIn_distDecisions _ _⟩

/-- The bounds of R139 on the context sizes. -/
theorem context_sizes_of_legal {c : Cfg} (h : c.legal = true) : c.lc.toNat + c.lp.toNat ≤ 4 ∧ c.pb.toNat ≤ 4 := by
  simp only [Cfg.legal, Bool.and_eq_true, decide_eq_true_eq] at h
  tauto

/-- litState has LP position bits above LC bits of the byte before (R127). -/
theorem litStateOf_lt {s : State} (hlc : s.cfg.lc.toNat ≤ 8) :
    litStateOf s < 2 ^ (s.cfg.lc.toNat + s.cfg.lp.toNat) := by
  have hpos : s.H % 2 ^ s.cfg.lp.toNat + 1 ≤ 2 ^ s.cfg.lp.toNat := Nat.mod_lt _ (by positivity)
  have hprev : (byteAtDist s 1).toNat / 2 ^ (8 - s.cfg.lc.toNat) < 2 ^ s.cfg.lc.toNat := by
    refine Nat.div_lt_of_lt_mul ?_
    rw [← pow_add, Nat.sub_add_cancel hlc]
    exact (byteAtDist s 1).isLt
  calc litStateOf s < (s.H % 2 ^ s.cfg.lp.toNat + 1) * 2 ^ s.cfg.lc.toNat := by
        rw [litStateOf, Nat.succ_mul]; omega
    _ ≤ 2 ^ s.cfg.lp.toNat * 2 ^ s.cfg.lc.toNat := Nat.mul_le_mul_right _ hpos
    _ = 2 ^ (s.cfg.lc.toNat + s.cfg.lp.toNat) := by rw [← pow_add, Nat.add_comm]

theorem Inv.contextIn {s : State} (h : Inv s) (hi : s.initDone = true) :
    ContextIn (2 ^ (s.cfg.lc.toNat + s.cfg.lp.toNat)) (contextOf s) := by
  obtain ⟨hlit, hpb⟩ := context_sizes_of_legal (h.cfgLegal hi)
  refine ⟨Nat.lt_succ_of_le h.lzLe, ?_, litStateOf_lt (by omega)⟩
  calc s.H % 2 ^ s.cfg.pb.toNat < 2 ^ s.cfg.pb.toNat := Nat.mod_lt _ (by positivity)
    _ ≤ 2 ^ 4 := Nat.pow_le_pow_right (by norm_num) hpb

end

/-- Settles O49: the contexts of a session lie in the shapes and every tree walk stays below its array's end; and an
address names its cell. -/
theorem packetCellsLieInTheBank : Obligations.PacketCellsLieInTheBank := by
  refine ⟨fun s p cell b h hi _ hmem => cellsIn_packetDecisions (h.contextIn hi) p cell b hmem, ?_⟩
  intro lits c c' hc hc' haddr
  rw [← cellAt_addr hc, ← cellAt_addr hc', haddr]

end Sys2Proof.Machine

/-! # Registers (10_state.md R17 to R21, R44) -/

namespace Sys2Proof.Machine

/-! ## STATUS (R21) -/

/-- Every field of STATUS fits its bits. -/
theorem statusFields_fit (s : State) : s.lastStatus.code.toNat < 0x100 ∧ s.initDone.toNat ≤ 1 ∧ s.faulted.toNat ≤ 1
    ∧ s.coder.sinkBroken.toNat ≤ 1 ∧ (s.initDone && s.coder.rcFresh).toNat ≤ 1 ∧ s.faultCode.toNat < 0x100
    ∧ s.faultOpc.toNat < 0x100 :=
  ⟨s.lastStatus.code.isLt, Bool.toNat_le _, Bool.toNat_le _, Bool.toNat_le _, Bool.toNat_le _, s.faultCode.isLt,
    s.faultOpc.isLt⟩

/-- The fields of STATUS as one number: each weight is above what the fields before it can sum to. -/
theorem statusWord_toNat (s : State) : (statusWord s).toNat =
    s.lastStatus.code.toNat + s.initDone.toNat * 0x100 + s.faulted.toNat * 0x200 + s.coder.sinkBroken.toNat * 0x400
      + (s.initDone && s.coder.rcFresh).toNat * 0x800 + s.faultCode.toNat * 0x10000
      + s.faultOpc.toNat * 0x1000000 := by
  have hfits := statusFields_fit s
  rw [statusWord, BitVec.toNat_ofNat, Nat.mod_eq_of_lt]
  omega

/-- A field of a word, read off the word's number. -/
theorem extractLsb'_eq_of_toNat {w n k : Nat} {x : BitVec w} {f : BitVec k}
    (h : x.toNat / 2 ^ n % 2 ^ k = f.toNat) : x.extractLsb' n k = f :=
  BitVec.eq_of_toNat_eq (by rw [BitVec.extractLsb'_toNat, Nat.shiftRight_eq_div_pow, h])

/-- A flag of a word, read off the word's number. -/
theorem getLsbD_eq_of_toNat {w n : Nat} {x : BitVec w} {f : Bool} (h : x.toNat / 2 ^ n % 2 = f.toNat) :
    x.getLsbD n = f := by
  rw [BitVec.getLsbD, Nat.testBit_eq_decide_div_mod_eq, h]
  cases f <;> rfl

/-- Settles O18: each field is a digit of the number that `statusWord_toNat` spells. -/
theorem statusRegisterFields : Obligations.StatusRegisterFields := by
  refine ⟨⟨rfl, rfl, rfl, rfl, rfl, rfl, rfl, rfl, rfl, rfl⟩, fun s => ?_⟩
  have hsum := statusWord_toNat s
  have hfits := statusFields_fit s
  have hzero : (0#4).toNat = 0 ∧ (0#32).toNat = 0 := ⟨rfl, rfl⟩
  refine ⟨extractLsb'_eq_of_toNat ?_, getLsbD_eq_of_toNat ?_, getLsbD_eq_of_toNat ?_, getLsbD_eq_of_toNat ?_,
    getLsbD_eq_of_toNat ?_, extractLsb'_eq_of_toNat ?_, extractLsb'_eq_of_toNat ?_, extractLsb'_eq_of_toNat ?_,
    extractLsb'_eq_of_toNat ?_⟩ <;> omega

/-! ## REG_READ (R17, 45_control.md R141) -/

theorem exec_regRead_assigned {r : Byte} (h : regAssigned r = true) (s : State) :
    exec (.regRead r) s = .next { s with responses := s.responses ++ [⟨.ok, 0, regValue s r, []⟩] } := by
  simp only [exec, execRegRead, regReadBody, h, if_true]
  rfl

theorem exec_regRead_unassigned {r : Byte} (h : regAssigned r = false) (s : State) :
    exec (.regRead r) s = .next (raiseFatal .illegal 0x02 s) := by
  simp [exec, execRegRead, regReadBody, h]

theorem regAssigned_eq_false_iff (r : Byte) : regAssigned r = false ↔
    ¬ (r.toNat ≤ 0x0B ∨ (0x10 ≤ r.toNat ∧ r.toNat ≤ 0x24) ∨ (0x30 ≤ r.toNat ∧ r.toNat ≤ 0x3B)) := by
  simp only [regAssigned, ← Bool.not_eq_true, Bool.or_eq_true, Bool.and_eq_true, decide_eq_true_eq, or_assoc]

/-- The readout answers each assigned register by its own value. -/
theorem exec_regRead_of_mem_registerReadout {s : State} {e : Byte × Word64} (h : e ∈ registerReadout s) :
    exec (.regRead e.1) s = .next { s with responses := s.responses ++ [⟨.ok, 0, e.2, []⟩] } := by
  obtain ⟨r, hr, rfl⟩ := List.mem_map.1 h
  exact exec_regRead_assigned (List.mem_filter.1 hr).2 s

/-- Settles O17: the 45 pairs of the statement are the register readout, entry by entry. -/
theorem regReadAnswersTheRegister : Obligations.RegReadAnswersTheRegister := by
  intro s
  refine ⟨fun e he => exec_regRead_of_mem_registerReadout ?_,
    fun r hr => exec_regRead_unassigned ((regAssigned_eq_false_iff r).2 hr) s⟩
  exact he

/-! ## Reset (R44) -/

/-- Settles O10: the values are those `State.reset` writes out; STATUS and HEADROOM are computed from them. -/
theorem resetValues : Obligations.ResetValues := by
  refine ⟨rfl, rfl, rfl, rfl, rfl, rfl, rfl, rfl, rfl, rfl, rfl, rfl, rfl, rfl, rfl, rfl, rfl, rfl, rfl, rfl, rfl, rfl,
    rfl, ?_, ?_⟩ <;> decide

end Sys2Proof.Machine

/-! # The ring's cells (20_memory.md R45 to R48, 41_hash_index.md R99) -/

namespace Sys2Proof.Machine

/-- Positions that share a cell read the same byte. -/
theorem ringAt_of_ringCell_eq {s : State} {p q : Nat} (h : ringCell s p = ringCell s q) : ringAt s p = ringAt s q := by
  rw [ringAt, ringAt, h]

theorem ringCell_of_lt {s : State} {p : Nat} (h : p < ringLen s) : ringCell s p = p := Nat.mod_eq_of_lt h

/-- A segment reads as the one that begins at its first position's cell. -/
theorem ringSeg_ringCell (s : State) (p n : Nat) : ringSeg s (ringCell s p) n = ringSeg s p n := by
  rw [ringSeg_eq_map, ringSeg_eq_map]
  exact List.map_congr_left fun i _ => ringAt_of_ringCell_eq (Nat.mod_add_mod p (ringLen s) i)

/-- From the ring's end on a segment reads as from cell 0 on. -/
theorem ringSeg_ringLen (s : State) (n : Nat) : ringSeg s (ringLen s) n = ringSeg s 0 n := by
  simpa [ringCell] using (ringSeg_ringCell s (ringLen s) n).symm

/-- Settles O24: moved to its first position's cell, a segment is split at the ring's end. -/
theorem segmentWrapsInTwoParts : Obligations.SegmentWrapsInTwoParts := by
  intro s p n k hL hn hk
  have hfirst : p % ringLen s < ringLen s := Nat.mod_lt p hL
  refine ⟨?_, fun i hi => ringCell_of_lt (by omega), fun i hi => ringCell_of_lt (by omega)⟩
  have hsecond : ringSeg s (p % ringLen s + k) (n - k) = ringSeg s 0 (n - k) := by
    rcases Nat.eq_zero_or_pos (n - k) with hnone | hwraps
    · rw [hnone, ringSeg, ringSeg]
    · rw [show p % ringLen s + k = ringLen s by omega, ringSeg_ringLen]
  calc ringSeg s p n
    _ = ringSeg s (p % ringLen s) (k + (n - k)) := by
      rw [Nat.add_sub_cancel' (by omega : k ≤ n)]
      exact (ringSeg_ringCell s p n).symm
    _ = ringSeg s (p % ringLen s) k ++ ringSeg s 0 (n - k) := by rw [ringSeg_append, hsecond]
    _ = _ := by simp only [ringSeg_eq_map, Nat.zero_add]

/-- No two defined positions share a cell: together they are at most as many as the cells (R46). -/
theorem Inv.ringCell_injOn {s : State} (h : Inv s) :
    Set.InjOn (ringCell s) (Finset.Ico (s.H - dictLen s) (s.H + s.B)) := by
  have hwindow := h.window
  have hd := dictLen_le_H s
  refine (Nat.mod_injOn_Ico (s.H - dictLen s) (ringLen s)).mono ?_
  exact Finset.coe_subset.2 (Finset.Ico_subset_Ico_right (by omega))

/-- A position's node is numbered one above its cell, node 0 being null (R99). -/
theorem arenaNode_eq_ringCell_succ (s : State) (q : Nat) : arenaNode s q = ringCell s q + 1 := rfl

/-- Settles O29: the defined positions are written and no more than the ring's cells, and a node goes with its cell. -/
theorem definedPositionsHaveTheirOwnCells : Obligations.DefinedPositionsHaveTheirOwnCells := by
  intro s p h hlo hhi
  have hwindow := h.window
  have hd := dictLen_le_H s
  have hcell : ringCell s p < ringLen s := Nat.mod_lt p (by omega)
  refine ⟨h.defined hlo hhi, fun q hqlo hqhi hne => ?_, ?_, ?_, fun hp => by omega⟩
  · have hcells : ringCell s q ≠ ringCell s p := fun heq =>
      hne (h.ringCell_injOn (by simp [hqlo, hqhi]) (by simp [hlo, hhi]) heq)
    exact ⟨hcells, by simpa [arenaNode_eq_ringCell_succ] using hcells⟩
  · rw [arenaNode_eq_ringCell_succ]; omega
  · rw [arenaNode_eq_ringCell_succ]; omega

end Sys2Proof.Machine

/-! # The sink's bytes (20_memory.md R56, 43_range_coder.md R118) -/

namespace Sys2Proof.Machine

/-- From `c` to `c'` some bytes are appended to the newest sink, and OUT_COUNT and SINK_REM count them. -/
def SinkGrows (c c' : Coder) : Prop :=
  ∃ bs : List Byte, (∀ u us, c.sinks = u :: us → c'.sinks = (u ++ bs) :: us)
    ∧ c'.outCount = c.outCount + bs.length ∧ c'.sinkRem + bs.length = c.sinkRem

theorem SinkGrows.refl (c : Coder) : SinkGrows c c := ⟨[], by simp⟩

theorem SinkGrows.trans {c c' c'' : Coder} (h : SinkGrows c c') (h' : SinkGrows c' c'') : SinkGrows c c'' := by
  obtain ⟨bs, hsinks, hcount, hrem⟩ := h
  obtain ⟨bs', hsinks', hcount', hrem'⟩ := h'
  refine ⟨bs ++ bs', fun u us hu => ?_, ?_, ?_⟩
  · rw [hsinks' _ _ (hsinks u us hu), List.append_assoc]
  · rw [List.length_append]; omega
  · rw [List.length_append]; omega

/-- The range encoder's other registers and the bank play no part in what the sink took. -/
theorem SinkGrows.of_sameSink {c c' : Coder} (hsinks : c'.sinks = c.sinks) (hcount : c'.outCount = c.outCount)
    (hrem : c'.sinkRem = c.sinkRem) : SinkGrows c c' :=
  ⟨[], by simp [hsinks, hcount, hrem]⟩

/-- Emit appends its byte, or drops it when the sink has no room. -/
theorem sinkGrows_emit (b : Byte) (c : Coder) : SinkGrows c (emit b c) := by
  by_cases hfull : c.sinkRem = 0
  · exact .of_sameSink (by simp [hfull]) (by simp [hfull]) (by simp [hfull])
  · refine ⟨[b], fun u us hu => by simp [hfull, hu, acceptByte], by simp [hfull], ?_⟩
    rw [emit_sinkRem, List.length_singleton]; omega

theorem sinkGrows_emitAll (bs : List Byte) (c : Coder) : SinkGrows c (emitAll bs c) := by
  induction bs generalizing c with
  | nil => exact .refl c
  | cons b bs ih => exact (sinkGrows_emit b c).trans (ih (emit b c))

theorem sinkGrows_shiftLow (c : Coder) : SinkGrows c (shiftLow c) := by
  unfold shiftLow
  split
  · exact (sinkGrows_emitAll (settledBytes c) c).trans (.of_sameSink rfl rfl rfl)
  · exact .of_sameSink rfl rfl rfl

theorem sinkGrows_normalize (fuel : Nat) (c : Coder) : SinkGrows c (normalize fuel c) := by
  induction fuel generalizing c with
  | zero => exact .refl c
  | succ fuel ih =>
    unfold normalize
    split
    · refine SinkGrows.trans ?_ (ih _)
      refine SinkGrows.trans ?_ (sinkGrows_shiftLow _)
      exact .of_sameSink rfl rfl rfl
    · exact .refl c

/-- A decision narrows the interval, which the sink does not see, and normalises. -/
theorem sinkGrows_codeOne (c : Coder) (d : Decision) : SinkGrows c (codeOne c d) := by
  cases d with
  | adaptive cell b =>
    rw [codeOne, encBit]
    refine SinkGrows.trans ?_ (sinkGrows_normalize 4 _)
    cases b <;> exact .of_sameSink rfl rfl rfl
  | direct b =>
    rw [codeOne, encDirectBit]
    refine SinkGrows.trans ?_ (sinkGrows_normalize 4 _)
    exact .of_sameSink rfl rfl rfl

theorem sinkGrows_codeAll (ds : List Decision) (c : Coder) : SinkGrows c (codeAll ds c) :=
  codeAll_induction (fun d _ c' hc => hc.trans (sinkGrows_codeOne c' d)) (.refl c)

/-- RcFlush is five ShiftLows; RcInit leaves the sink alone (R117). -/
theorem sinkGrows_rcFlushBody (c : Coder) : SinkGrows c (rcFlushBody c) := by
  have hshift {c' : Coder} (h : SinkGrows c c') : SinkGrows c (shiftLow c') := h.trans (sinkGrows_shiftLow c')
  rw [rcFlushBody]
  refine SinkGrows.trans ?_ (.of_sameSink (rcInit_sinks _) (rcInit_outCount _) (rcInit_sinkRem _))
  exact hshift (hshift (hshift (hshift (sinkGrows_shiftLow c))))

theorem sinkGrows_codePacket (p : Packet) (s : State) : SinkGrows s.coder (codePacket p s).coder :=
  sinkGrows_codeAll _ s.coder

@[simp] theorem skipBody_coder (T : HashTable) (n : Nat) (s : State) : (skipBody T n s).coder = s.coder := by
  obtain ⟨ix, b, heq, -, -⟩ := skipBody_spec T s n
  rw [heq, advance_coder]

/-! ## The compress loop (45_control.md R144, R145) -/

/-- Searching and skipping do not touch the coder, so a turn of the loop codes one packet. -/
theorem sinkGrows_loopTurn (T : HashTable) (P : Policy) (s : State) : SinkGrows s.coder (loopTurn T P s).coder := by
  unfold loopTurn codeOp
  split <;>
    (rw [skipBody_coder]
     exact indexHead_coder s T ▸ sinkGrows_codePacket _ (indexHead T s))

theorem sinkGrows_runLoop (T : HashTable) (P : Policy) (all : Bool) (maxOps : Nat) (s : State) :
    SinkGrows s.coder (runLoop T P all maxOps s).state.coder :=
  compressLoop_induction (Q := fun u => SinkGrows s.coder u.coder)
    (fun u _ hu => hu.trans (sinkGrows_loopTurn T P u)) all maxOps _ _ (.refl s.coder)

theorem sinkGrows_closeTail {c : Coder} {e : LoopEnd} (h : SinkGrows c e.state.coder) :
    SinkGrows c (closeTail e).state.coder :=
  closeTail_induction (Q := fun u => SinkGrows c u.coder) (fun u hu => hu.trans (sinkGrows_codePacket .eos u))
    (fun u hu => hu.trans (sinkGrows_rcFlushBody u.coder)) h

/-! ## Every instruction -/

/-- What an instruction can do to the sink: SINK_OPEN starts one, INIT detaches it, every other only appends. -/
inductive SinkEffect (c : Coder) : Instr → Coder → Prop
  | opens (limit : Word64) : SinkEffect c (.sinkOpen limit) (openSink limit.toNat c)
  | detaches : SinkEffect c .init (sessionCoder c)
  | grows {i : Instr} {c' : Coder} (h : SinkGrows c c') : SinkEffect c i c'

theorem Effect.sinkEffect {i : Instr} {s u : State} (h : Effect s i u) : SinkEffect s.coder i u.coder := by
  cases h with
  | sinkOpen limit => exact .opens limit
  | init => exact .detaches
  | regWrite => exact .grows (.refl _)
  | write => exact .grows (.refl _)
  | discard => exact .grows (.refl _)
  | copyN => exact .grows (sinkGrows_emitAll _ _)
  | find => exact .grows (indexHead_coder s _ ▸ .refl _)
  | skip n => exact .grows (skipBody_coder _ _ s ▸ .refl _)
  | encLit => exact .grows (sinkGrows_codePacket _ s)
  | encMatch => exact .grows (sinkGrows_codePacket _ s)
  | encEos => exact .grows (sinkGrows_codePacket _ s)
  | rcFlush => exact .grows (sinkGrows_rcFlushBody s.coder)
  | compress => exact .grows (sinkGrows_runLoop ..)
  | close => exact .grows (sinkGrows_closeTail (sinkGrows_runLoop ..))
  | packet => exact .grows (sinkGrows_codePacket _ s)

theorem Answered.coder_eq {u t : State} (h : Answered u t) : t.coder = u.coder :=
  congrArg (·.coder) h.withoutLatch_eq

/-- An instruction does to the sink what its effect does, or leaves it. -/
theorem Runs.sinkEffect {i : Instr} {s t : State} (h : Runs i s t) : SinkEffect s.coder i t.coder := by
  rcases h with ha | ⟨u, he, ha⟩
  · exact .grows (ha.coder_eq ▸ .refl _)
  · rw [ha.coder_eq]
    exact he.sinkEffect

/-- Settles O46: every byte reaches the sink through Emit, which appends it and counts it; only SINK_OPEN and INIT set
the sink's registers otherwise. -/
theorem sinkBytesOnlyGrow : Obligations.SinkBytesOnlyGrow := by
  intro i s t u us h hsinks
  have heffect := (runs_of_exec h).sinkEffect
  generalize t.coder = c' at heffect ⊢
  cases heffect with
  | opens limit => exact .inl ⟨opcode_sinkOpen limit, by rw [openSink_sinks, hsinks]⟩
  | detaches => exact .inr ⟨[], by rw [sessionCoder_sinks, hsinks, List.append_nil], .inl ⟨rfl, rfl⟩⟩
  | grows hgrows =>
    obtain ⟨bs, happend, hcount, hrem⟩ := hgrows
    exact .inr ⟨bs, happend u us hsinks, .inr ⟨hcount, hrem⟩⟩

end Sys2Proof.Machine

/-! # Command words and their decoder (30_encoding.md R62 to R70, 60_exceptions.md R151, R152) -/

namespace Sys2Proof

section
variable {u : FieldUse} {w : CommandWord} {payload : List Byte}

/-! ## The field check (R63, R64) -/

/-- The field check passes exactly when RSVD and every unused field are 0 and the payload has its length. -/
theorem fieldCheck_eq_none_iff : fieldCheck u w payload = none ↔
    rsvdOf w = 0 ∧ (u.sub = false → subOf w = 0) ∧ (u.len = false → lenOf w = 0) ∧ (u.dist = false → distOf w = 0)
      ∧ payload.length = (if carriesPayload (opcOf w) then (lenOf w).toNat else 0) := by
  unfold fieldCheck
  cases hc : carriesPayload (opcOf w) <;> grind

theorem fieldsThen_eq_ok_iff {r : Except DecodeError Instr} {i : Instr} :
    fieldsThen u w payload r = .ok i ↔ fieldCheck u w payload = none ∧ r = .ok i := by
  unfold fieldsThen
  cases fieldCheck u w payload <;> simp

theorem opcOf_eq_ofNat {n : Nat} (ho : (opcOf w).toNat = n) : opcOf w = BitVec.ofNat 8 n := by
  rw [← ho, BitVec.ofNat_toNat, BitVec.setWidth_eq]

/-- The word made of opcode `n` and the fields of `w` that a command uses, all others 0. -/
def usedWord (u : FieldUse) (w : CommandWord) (n : Nat) : CommandWord :=
  mkWord (if u.dist then distOf w else 0) (if u.len then lenOf w else 0) (if u.sub then subOf w else 0)
    (BitVec.ofNat 8 n)

/-- A word whose fields are sound is made of its opcode and the fields its command uses. -/
theorem usedWord_eq {n : Nat} (ho : (opcOf w).toNat = n) (hc : fieldCheck u w payload = none) : usedWord u w n = w := by
  obtain ⟨hrsvd, hsub, hlen, hdist, -⟩ := fieldCheck_eq_none_iff.1 hc
  have hd : (if u.dist then distOf w else 0) = distOf w := by split <;> simp_all
  have hl : (if u.len then lenOf w else 0) = lenOf w := by split <;> simp_all
  have hs : (if u.sub then subOf w else 0) = subOf w := by split <;> simp_all
  rw [usedWord, hd, hl, hs, ← opcOf_eq_ofNat ho, mkWord_fields w hrsvd]

theorem payload_eq_nil {n : Nat} (ho : (opcOf w).toNat = n) (hc : fieldCheck u w payload = none)
    (hn : carriesPayload (BitVec.ofNat 8 n) = false) : payload = [] := by
  obtain ⟨-, -, -, -, hp⟩ := fieldCheck_eq_none_iff.1 hc
  rw [opcOf_eq_ofNat ho, hn] at hp
  exact List.length_eq_zero_iff.1 hp

/-- A payload that a command carries fits LEN, and LEN is its length. -/
theorem payload_of_carried {n : Nat} (ho : (opcOf w).toNat = n) (hc : fieldCheck u w payload = none)
    (hy : carriesPayload (BitVec.ofNat 8 n) = true) : payloadFits payload = true ∧ payloadLen payload = lenOf w := by
  obtain ⟨-, -, -, -, hp⟩ := fieldCheck_eq_none_iff.1 hc
  rw [opcOf_eq_ofNat ho, hy, if_pos rfl] at hp
  refine ⟨by simpa [payloadFits, hp] using (lenOf w).isLt, ?_⟩
  rw [payloadLen, hp, BitVec.ofNat_toNat, BitVec.setWidth_eq]

/-- COMPRESS's SUB is its ALL flag (R66). -/
theorem allSub_eq {k : Byte} (h : k.toNat < 2) : (if k.toNat == 1 then 1 else 0) = k := by
  refine BitVec.eq_of_toNat_eq ?_
  split
  · simp_all
  · simp_all; omega

end

/-- Settles O2: sound fields make up the whole word, so each arm of the decoder gives back its own word and payload. -/
theorem decodeDropsNoBit : Obligations.DecodeDropsNoBit := by
  intro w payload i h
  unfold decode at h
  split at h
  all_goals rename_i ho
  case h_20 => cases h -- no opcode of the map
  all_goals
    obtain ⟨hc, hi⟩ := fieldsThen_eq_ok_iff.1 h
    have hword := usedWord_eq ho hc
    clear h
  case h_5 | h_8 | h_11 => -- WRITE, MATCHLEN, HASH: the payload
    obtain ⟨hfits, hlen⟩ := payload_of_carried ho hc rfl
    cases hi
    exact ⟨hfits, rfl, by rw [encode, hlen]; exact congrArg (Encoded.command · payload) hword⟩
  all_goals
    obtain rfl := payload_eq_nil ho hc rfl
    have hcode := congrArg (Encoded.command · []) hword
  case h_2 | h_3 => -- REG_READ, REG_WRITE: a register that the command accepts
    split at hi <;> cases hi
    next hr => exact ⟨hr, rfl, hcode⟩
  case h_18 => -- COMPRESS: SUB is a flag
    split at hi <;> cases hi
    next hlt => exact ⟨rfl, rfl, by rw [encode, allSub_eq hlt]; exact hcode⟩
  all_goals
    cases hi
    exact ⟨rfl, rfl, hcode⟩

/-! ## Encoding and decoding (R67) -/

/-- A word made of the fields its command uses, with a payload of its length, passes the field check. -/
theorem fieldsThen_mkWord {u : FieldUse} {d : Word64} {l : Word32} {s o : Byte} {p : List Byte}
    (r : Except DecodeError Instr) (hs : u.sub = false → s = 0) (hl : u.len = false → l = 0)
    (hd : u.dist = false → d = 0) (hp : p.length = if carriesPayload o then l.toNat else 0) :
    fieldsThen u (mkWord d l s o) p r = r := by
  have hc : fieldCheck u (mkWord d l s o) p = none :=
    fieldCheck_eq_none_iff.2 ⟨by simp, by simpa using hs, by simpa using hl, by simpa using hd, by simpa using hp⟩
  rw [fieldsThen, hc]

theorem decodeEncoded_encode_of_isCommand {i : Instr} (hwf : i.wf = true) (hi : i.isCommand = true) :
    decodeEncoded (encode i) = .ok i := by
  cases i with
  | regRead | regWrite => simp_all [encode, decodeEncoded, decode, fieldsThen_mkWord, carriesPayload, Instr.wf]
  | write p | matchLen d p | hash k p =>
    have hp := payloadLen_toNat hwf
    simp [encode, decodeEncoded, decode, fieldsThen_mkWord, carriesPayload, hp]
  | compress all n =>
    cases all <;> simp [encode, decodeEncoded, decode, fieldsThen_mkWord, carriesPayload]
  | pktLit | pktMatch | pktShortRep | pktLongRep0 | pktLongRep1 | pktLongRep2 | pktLongRep3 | pktEos => contradiction
  | _ => simp [encode, decodeEncoded, decode, fieldsThen_mkWord, carriesPayload]

/-! ## Serialised commands (R65, R70) -/

theorem natToBytes_add (v m n : Nat) : natToBytes v (m + n) = natToBytes v m ++ natToBytes (v / 256 ^ m) n := by
  induction m generalizing v with
  | zero => simp [natToBytes]
  | succ m ih => simp [Nat.succ_add, natToBytes, ih, Nat.div_div_eq_div_mul, pow_succ']

/-- Only the low `n` bytes of a number are listed. -/
theorem natToBytes_mod (v n : Nat) : natToBytes (v % 256 ^ n) n = natToBytes v n := by
  induction n generalizing v with
  | zero => rfl
  | succ n ih =>
    rw [natToBytes, natToBytes, pow_succ', Nat.mod_mul_right_div_self, ih]
    congr 1
    exact BitVec.eq_of_toNat_eq (by simp)

/-- A word's bytes are its fields' (R65). -/
theorem natToBytes_word (w : CommandWord) : natToBytes w.toNat 16 =
    opcOf w :: subOf w :: natToBytes (rsvdOf w).toNat 2 ++ natToBytes (lenOf w).toNat 4
      ++ natToBytes (distOf w).toNat 8 := by
  have hopc : natToBytes w.toNat 1 = [opcOf w] :=
    congrArg (· :: []) (BitVec.eq_of_toNat_eq (by simp [opcOf_toNat]))
  have hsub : natToBytes (w.toNat / 256) 1 = [subOf w] :=
    congrArg (· :: []) (BitVec.eq_of_toNat_eq (by simp [subOf_toNat]))
  have hrsvd : natToBytes (rsvdOf w).toNat 2 = natToBytes (w.toNat / 65536) 2 :=
    rsvdOf_toNat w ▸ natToBytes_mod _ 2
  have hlen : natToBytes (lenOf w).toNat 4 = natToBytes (w.toNat / 4294967296) 4 :=
    lenOf_toNat w ▸ natToBytes_mod _ 4
  have hdist : natToBytes (distOf w).toNat 8 = natToBytes (w.toNat / 18446744073709551616) 8 :=
    distOf_toNat w ▸ natToBytes_mod _ 8
  change natToBytes w.toNat (1 + 1 + 2 + 4 + 8) = _
  rw [natToBytes_add, natToBytes_add, natToBytes_add, natToBytes_add]
  simp [hopc, hsub, hrsvd, hlen, hdist]

section
variable (w : CommandWord) (payload rest : List Byte)

theorem serialise_length : (serialise w payload).length = 16 + payload.length := by simp [serialise]

theorem wordOfBytes_serialise : wordOfBytes (serialise w payload) = w := by
  rw [wordOfBytes, serialise, List.take_left' (natToBytes_length _ _), bytesToNat_natToBytes,
    Nat.mod_eq_of_lt (by simpa using w.isLt), BitVec.ofNat_toNat, BitVec.setWidth_eq]

theorem drop_serialise : (serialise w payload).drop 16 = payload := List.drop_left' (natToBytes_length _ _)

theorem serialise_append : serialise w payload ++ rest = serialise w (payload ++ rest) := List.append_assoc ..

theorem decodeBytes_serialise : decodeBytes (serialise w payload) = decode w payload := by
  rw [decodeBytes, serialise_length, if_neg (by omega), wordOfBytes_serialise, drop_serialise]

/-- A command whose payload has its length comes off the front of a stream whole. -/
theorem splitCommand_serialise (h : commandLength w = 16 + payload.length) :
    splitCommand (serialise w payload ++ rest) = some (w, payload, rest) := by
  rw [serialise_append, splitCommand, wordOfBytes_serialise, h, serialise_length, if_neg (by omega),
    if_neg (by simp), drop_serialise, Nat.add_sub_cancel_left, List.take_left, ← List.drop_drop, drop_serialise,
    List.drop_left]

theorem carriesPayload_iff : carriesPayload (opcOf w) = true ↔ (opcOf w).toNat ∈ [0x10, 0x13, 0x20] := by
  simp [carriesPayload, ← BitVec.toNat_inj, or_assoc]

end

/-- Settles O4: the word's 16 bytes are its fields' bytes, and its own OPC and LEN say how many follow. -/
theorem serialisedStreamSplits : Obligations.SerialisedStreamSplits := by
  intro w payload rest hp
  have hlen : commandLength w = 16 + payload.length := by rw [commandLength, hp]; simp only [carriesPayload_iff]
  exact ⟨by rw [serialise, natToBytes_word], serialise_length w payload, splitCommand_serialise w payload rest hlen,
    decodeBytes_serialise w payload⟩

/-- Settles O5: the words are closed, and the decoder reads them. -/
theorem specWordsDecode : Obligations.SpecWordsDecode :=
  ⟨rfl, rfl, rfl, rfl, rfl, rfl, rfl, rfl, rfl, rfl⟩

/-- Settles O8: taking a command word off the inbox is running it, and running a word that decodes is `exec`. -/
theorem stepRunsTheDecodedCommand : Obligations.StepRunsTheDecodedCommand := by
  intro s w payload rest i hinbox hdecode
  rw [Machine.step, Machine.takeMove, hinbox]
  simp only [Machine.runCommand, hdecode]

end Sys2Proof

/-! # The packet code and its decoder (30_encoding.md R75 to R77) -/

namespace Sys2Proof

/-! ## Distance slots (44_lzma_model.md R130, R131) -/

/-- The slot of a distance from 4 on: twice the place of its top bit, plus the bit below. -/
theorem distSlot_eq {d0 : Nat} (h : 4 ≤ d0) : ∃ n, 1 ≤ n ∧ 2 ^ (n + 1) ≤ d0 ∧ d0 < 2 ^ (n + 2) ∧
    distSlot d0 = 2 * (n + 1) + d0 / 2 ^ n % 2 := by
  have hd : d0 ≠ 0 := by omega
  have hlog : 2 ≤ Nat.log2 d0 := (Nat.le_log2 hd).2 h
  obtain ⟨n, hn⟩ := Nat.exists_eq_add_of_le' (show 1 ≤ Nat.log2 d0 by omega)
  refine ⟨n, by omega, hn ▸ Nat.log2_self_le hd, ?_, ?_⟩
  · have hhi : d0 < 2 ^ (Nat.log2 d0 + 1) := Nat.lt_log2_self
    rwa [hn] at hhi
  · rw [distSlot, if_neg (by omega), hn, Nat.add_sub_cancel, Nat.toNat_testBit]

theorem distSlot_lt {d0 : Nat} (h : d0 < 2 ^ 32) : distSlot d0 < 2 ^ 6 := by
  by_cases h4 : d0 < 4
  · rw [distSlot, if_pos h4]; omega
  · obtain ⟨n, -, hlo, -, hslot⟩ := distSlot_eq (Nat.not_lt.1 h4)
    have hn : n + 1 < 32 := (Nat.pow_lt_pow_iff_right (by norm_num)).1 (hlo.trans_lt h)
    omega

theorem distSlot_of_lt {d0 : Nat} (h : d0 < 4) : distSlot d0 = d0 := if_pos h

theorem le_distSlot {d0 : Nat} (h : 4 ≤ d0) : 4 ≤ distSlot d0 := by
  obtain ⟨n, hn, -, -, hslot⟩ := distSlot_eq h
  omega

/-- A distance from 4 on is its slot's base and a remainder of as many bits as the slot's footer. -/
theorem slotBase_bounds {d0 : Nat} (h : 4 ≤ d0) :
    slotBase (distSlot d0) ≤ d0 ∧ d0 - slotBase (distSlot d0) < 2 ^ slotFooterBits (distSlot d0) := by
  obtain ⟨n, hn, hlo, hhi, hslot⟩ := distSlot_eq h
  have htop : d0 / 2 ^ n = 2 + d0 / 2 ^ n % 2 := by
    have h2 : 2 ≤ d0 / 2 ^ n := (Nat.le_div_iff_mul_le (by positivity)).2 (by rw [← pow_succ']; exact hlo)
    have h4 : d0 / 2 ^ n < 4 := Nat.div_lt_of_lt_mul (by rw [pow_add] at hhi; exact hhi)
    omega
  have hfooter : slotFooterBits (distSlot d0) = n := by rw [slotFooterBits]; omega
  have hparity : distSlot d0 % 2 = d0 / 2 ^ n % 2 := by omega
  have hbase : slotBase (distSlot d0) = d0 / 2 ^ n * 2 ^ n := by rw [slotBase, hfooter, hparity, ← htop]
  have hdiv := Nat.div_add_mod' d0 (2 ^ n)
  have hmod : d0 % 2 ^ n < 2 ^ n := Nat.mod_lt _ (by positivity)
  rw [hfooter, hbase]
  omega

/-! ## Reading a code back (R76, R77) -/

section
variable (rest : List Bool)

theorem lenCodable_iff {len : Nat} : lenCodable len = true ↔ 2 ≤ len ∧ len ≤ 273 := by
  rw [lenCodable, Bool.and_eq_true, decide_eq_true_iff, decide_eq_true_iff]
  rfl

theorem readLen_lenBits {len : Nat} (h : lenCodable len = true) : readLen (lenBits len ++ rest) = some (len, rest) := by
  obtain ⟨hlo, hhi⟩ := lenCodable_iff.1 h
  unfold lenBits
  split
  · simp [readLen, readMsb_bitsMsb]; omega
  · split
    · simp [readLen, readMsb_bitsMsb]; omega
    · simp [readLen, readMsb_bitsMsb]; omega

/-- What follows the slot reads back as the distance: nothing, the footer's bits, or its high bits and then four low. -/
theorem readDist_distBits {d0 : Nat} (h : d0 < 2 ^ 32) : readDist (distBits d0 ++ rest) = some (d0, rest) := by
  rw [readDist, distBits, List.append_assoc, readMsb_bitsMsb, Nat.mod_eq_of_lt (distSlot_lt h), Nat.zero_mul,
    Nat.zero_add]
  by_cases h4 : d0 < 4
  · simp [readDistTail, distSlot_of_lt h4, h4]
  have hslot := le_distSlot (Nat.not_lt.1 h4)
  obtain ⟨hbase, hfooter⟩ := slotBase_bounds (Nat.not_lt.1 h4)
  simp only [readDistTail, if_neg (Nat.not_lt.2 hslot)]
  split
  · rw [readLsb_bitsLsb, Nat.mod_eq_of_lt hfooter]
    simp; omega
  · next h14 =>
    have hhigh : (d0 - slotBase (distSlot d0)) / 16 < 2 ^ (slotFooterBits (distSlot d0) - 4) := by
      refine Nat.div_lt_of_lt_mul ?_
      rwa [show 16 = 2 ^ 4 from rfl, ← pow_add, Nat.add_sub_cancel' (by rw [slotFooterBits]; omega)]
    simp only [List.append_assoc, readMsb_bitsMsb, readLsb_bitsLsb, Nat.mod_eq_of_lt hhigh]
    simp; omega

/-- Every distance but the sentinel's is a simple match's. -/
theorem matchPacket_of_ne {d0 : Word32} (h : d0 ≠ Config.eosDistance) (len : Nat) :
    matchPacket len d0.toNat = some (.simpleMatch d0 len) := by
  rw [matchPacket, if_neg fun he => h (BitVec.eq_of_toNat_eq he), BitVec.ofNat_toNat, BitVec.setWidth_eq]

theorem readMatch_bits {d0 : Word32} {len : Nat} (h : lenCodable len = true) :
    readMatch (lenBits len ++ (distBits d0.toNat ++ rest)) =
      (matchPacket len d0.toNat).map (fun p => (p, rest)) := by
  simp only [readMatch, readLen_lenBits _ h, readDist_distBits rest d0.isLt]

end

/-- Settles O6: each reader takes off exactly what its writer put there, and the head says which readers to use. -/
theorem packetsSelfDelimit : Obligations.PacketsSelfDelimit := by
  intro p rest hwf
  match p with
  | .lit x =>
    have hx : BitVec.ofNat 8 (x.toNat % 2 ^ 8) = x := by
      rw [Nat.mod_eq_of_lt x.isLt, BitVec.ofNat_toNat, BitVec.setWidth_eq]
    simpa [packetBits, packetHead, decodePacket, readMsb_bitsMsb] using hx
  | .simpleMatch d0 len =>
    simp only [Packet.wf, Bool.and_eq_true, bne_iff_ne] at hwf
    obtain ⟨hlen, hd0⟩ := hwf
    simp [packetBits, packetHead, decodePacket, readMatch_bits rest hlen, matchPacket_of_ne hd0]
  | .shortRep => rfl
  | .longRep 0 len | .longRep 1 len | .longRep 2 len | .longRep 3 len =>
    simp [packetBits, packetHead, decodePacket, readLongRep, readLen_lenBits rest hwf]
  | .eos =>
    have heos : matchPacket 2 Config.eosDistance.toNat = some .eos := rfl
    simp [packetBits, packetHead, decodePacket, readMatch_bits rest (len := 2) rfl, heos]

/-! ## Decoding of encoding, for every instruction -/

/-- A packet row's code is its packet's. -/
theorem encode_of_packet {i : Instr} {p : Packet} (h : i.packet? = some p) :
    encode i = .packet (packetBits p) ∧ p.instr = i ∧ p.wf = i.wf := by
  cases i <;> cases h <;> exact ⟨rfl, rfl, rfl⟩

theorem decodeEncoded_packetBits {p : Packet} (h : p.wf = true) :
    decodeEncoded (.packet (packetBits p)) = .ok p.instr := by
  have hp := packetsSelfDelimit p [] h
  rw [List.append_nil] at hp
  rw [decodeEncoded, hp]

/-- Settles O1: commands come back by their fields, packet rows by their decisions with nothing left over. -/
theorem decodeEncodeRoundTrip : Obligations.DecodeEncodeRoundTrip := by
  intro i hwf
  cases hp : i.packet? with
  | none => exact decodeEncoded_encode_of_isCommand hwf (by rw [Instr.isCommand, hp]; rfl)
  | some p =>
    obtain ⟨hcode, hinstr, hpwf⟩ := encode_of_packet hp
    rw [hcode, decodeEncoded_packetBits (hpwf.trans hwf), hinstr]

end Sys2Proof

/-! # The decisions of a packet (30_encoding.md R75, R76, 43_range_coder.md R114 to R121, 44_lzma_model.md R126 to
R133) -/

namespace Sys2Proof.Machine

/-! ## Tree walks (R114, R120, R121) -/

/-- A tree walk over listed bits codes bit i in the node that the earlier bits lead to. -/
theorem treeDecisions_map_range (cell : Nat → ProbCell) (m n : Nat) (bit : Nat → Bool) :
    treeDecisions cell m ((List.range n).map bit) = (List.range n).map (fun i => .adaptive
      (cell ((List.range i).foldl (fun m j => 2 * m + (bit j).toNat) m)) (bit i)) := by
  induction n generalizing m bit with
  | zero => rfl
  | succ n ih =>
    rw [List.range_succ_eq_map, List.map_cons, List.map_cons, List.map_map, treeDecisions, ih, List.map_map]
    refine congrArg (_ :: ·) (List.map_congr_left fun i _ => ?_)
    simp [List.range_succ_eq_map, List.foldl_map]

theorem treeMsb_eq_map (cell : Nat → ProbCell) (n v : Nat) : treeMsb cell n v =
    (List.range n).map (fun i => .adaptive
      (cell ((List.range i).foldl (fun m j => 2 * m + (v.testBit (n - 1 - j)).toNat) 1)) (v.testBit (n - 1 - i))) := by
  rw [treeMsb, bitsMsb_eq_map, treeDecisions_map_range]

theorem treeLsb_eq_map (cell : Nat → ProbCell) (n v : Nat) : treeLsb cell n v =
    (List.range n).map (fun i => .adaptive
      (cell ((List.range i).foldl (fun m j => 2 * m + (v.testBit j).toNat) 1)) (v.testBit i)) := by
  rw [treeLsb, bitsLsb_eq_map, treeDecisions_map_range]

theorem directMsb_eq_map (n v : Nat) :
    directMsb n v = (List.range n).map (fun i => .direct (v.testBit (n - 1 - i))) := by
  rw [directMsb, bitsMsb_eq_map, List.map_map]; rfl

/-! ## Literals (R128) -/

/-- The i-th decision of a literal: its partial symbol picks the cell, and so does the match byte's bit as long as its
bits before agree with the literal's. -/
def literalDecisionAt (k : Context) (x : Byte) (i : Nat) : Decision :=
  .adaptive
    (.lit k.litState (2 ^ i + x.toNat / 2 ^ (8 - i)
      + k.matchByte.elim 0 (fun mb =>
          if mb.toNat / 2 ^ (8 - i) = x.toNat / 2 ^ (8 - i) then 0x100 + (mb.toNat.testBit (7 - i)).toNat * 0x100
          else 0)))
    (x.toNat.testBit (7 - i))

theorem div_two_pow_eq (v n : Nat) : v / 2 ^ n = 2 * (v / 2 ^ (n + 1)) + (v.testBit n).toNat := by
  rw [Nat.toNat_testBit, pow_succ, ← Nat.div_div_eq_div_mul]
  omega

/-- The partial symbol after one bit more. -/
theorem partialSymbol_step {n : Nat} (hn : n + 1 ≤ 8) (v : Nat) :
    2 * (2 ^ (8 - (n + 1)) + v / 2 ^ (n + 1)) + (v.testBit n).toNat = 2 ^ (8 - n) + v / 2 ^ n := by
  have hpow : 2 ^ (8 - n) = 2 * 2 ^ (8 - (n + 1)) := by rw [← pow_succ']; congr 1; omega
  rw [div_two_pow_eq v n, hpow]
  omega

section
variable {k : Context} {x : Byte}

/-- Plain mode codes the last `n` decisions of a literal, once no match byte agrees with it. -/
theorem litPlain_eq {n : Nat} (hn : n ≤ 8)
    (hmiss : ∀ mb, k.matchByte = some mb → mb.toNat / 2 ^ n ≠ x.toNat / 2 ^ n) :
    litPlain k.litState (2 ^ (8 - n) + x.toNat / 2 ^ n) (bitsMsb x.toNat n) =
      (List.range' (8 - n) n).map (literalDecisionAt k x) := by
  induction n with
  | zero => rfl
  | succ n ih =>
    have hstill : ∀ mb, k.matchByte = some mb → mb.toNat / 2 ^ n ≠ x.toNat / 2 ^ n := fun mb hmb heq =>
      hmiss mb hmb (by simpa only [pow_succ, ← Nat.div_div_eq_div_mul] using congrArg (· / 2) heq)
    have hstart : 8 - (n + 1) + 1 = 8 - n := by omega
    have hhead : literalDecisionAt k x (8 - (n + 1)) =
        .adaptive (.lit k.litState (2 ^ (8 - (n + 1)) + x.toNat / 2 ^ (n + 1))) (x.toNat.testBit n) := by
      have hoff : 8 - (8 - (n + 1)) = n + 1 := by omega
      have hbit : 7 - (8 - (n + 1)) = n := by omega
      rw [literalDecisionAt, hoff, hbit]
      cases hmb : k.matchByte with
      | none => rfl
      | some mb => rw [Option.elim_some, if_neg (hmiss mb hmb), Nat.add_zero]
    rw [List.range'_succ, List.map_cons, hhead, hstart, ← ih (by omega) hstill, ← partialSymbol_step hn]
    rfl

/-- Matched mode codes the last `n` decisions of a literal that agrees with the match byte so far. -/
theorem litMatched_eq {mb : Byte} (hmb : k.matchByte = some mb) {n : Nat} (hn : n ≤ 8)
    (hagree : mb.toNat / 2 ^ n = x.toNat / 2 ^ n) :
    litMatched k.litState (2 ^ (8 - n) + x.toNat / 2 ^ n) (bitsMsb mb.toNat n) (bitsMsb x.toNat n) =
      (List.range' (8 - n) n).map (literalDecisionAt k x) := by
  induction n with
  | zero => rfl
  | succ n ih =>
    have hstart : 8 - (n + 1) + 1 = 8 - n := by omega
    have hhead : literalDecisionAt k x (8 - (n + 1)) = .adaptive (.lit k.litState
          (0x100 + (mb.toNat.testBit n).toNat * 0x100 + (2 ^ (8 - (n + 1)) + x.toNat / 2 ^ (n + 1))))
        (x.toNat.testBit n) := by
      have hoff : 8 - (8 - (n + 1)) = n + 1 := by omega
      have hbit : 7 - (8 - (n + 1)) = n := by omega
      rw [literalDecisionAt, hoff, hbit, hmb, Option.elim_some, if_pos hagree, Nat.add_comm]
    have hnext : mb.toNat / 2 ^ n = x.toNat / 2 ^ n ↔ mb.toNat.testBit n = x.toNat.testBit n := by
      rw [div_two_pow_eq mb.toNat n, div_two_pow_eq x.toNat n, hagree]
      cases mb.toNat.testBit n <;> cases x.toNat.testBit n <;> simp
    rw [List.range'_succ, List.map_cons, hhead, hstart, bitsMsb, bitsMsb, litMatched, partialSymbol_step hn]
    congr 1
    split
    · next hbits => exact ih (by omega) (hnext.2 hbits)
    · next hbits =>
      refine litPlain_eq (by omega) fun mb' hmb' => ?_
      obtain rfl : mb' = mb := Option.some.inj (hmb'.symm.trans hmb)
      exact fun heq => hbits (hnext.1 heq)

end

theorem literalDecisions_eq_map (k : Context) (x : Byte) :
    literalDecisions k x = (List.range 8).map (literalDecisionAt k x) := by
  have hzero (b : Byte) : b.toNat / 2 ^ 8 = 0 := Nat.div_eq_of_lt b.isLt
  have hroot : 2 ^ (8 - 8) + x.toNat / 2 ^ 8 = 1 := by rw [hzero]; rfl
  rw [literalDecisions, List.range_eq_range']
  cases hmb : k.matchByte with
  | none =>
    have hplain := litPlain_eq (k := k) (x := x) (n := 8) le_rfl (by simp [hmb])
    rwa [hroot] at hplain
  | some mb =>
    have hmatched := litMatched_eq (x := x) hmb (n := 8) le_rfl (by rw [hzero mb, hzero x])
    rwa [hroot] at hmatched

/-! ## The bits that decisions code (R75, R76) -/

@[simp] theorem treeDecisions_bits (cell : Nat → ProbCell) (m : Nat) (bits : List Bool) :
    (treeDecisions cell m bits).map Decision.bit = bits := by
  induction bits generalizing m with
  | nil => rfl
  | cons b bs ih => rw [treeDecisions, List.map_cons, ih, Decision.bit]

@[simp] theorem treeMsb_bits (cell : Nat → ProbCell) (n v : Nat) :
    (treeMsb cell n v).map Decision.bit = bitsMsb v n := treeDecisions_bits ..

@[simp] theorem treeLsb_bits (cell : Nat → ProbCell) (n v : Nat) :
    (treeLsb cell n v).map Decision.bit = bitsLsb v n := treeDecisions_bits ..

@[simp] theorem directMsb_bits (n v : Nat) : (directMsb n v).map Decision.bit = bitsMsb v n := by
  rw [directMsb, List.map_map]
  exact List.map_id _

@[simp] theorem literalDecisions_bits (k : Context) (x : Byte) :
    (literalDecisions k x).map Decision.bit = bitsMsb x.toNat 8 := by
  rw [literalDecisions_eq_map, List.map_map, bitsMsb_eq_map]
  rfl

@[simp] theorem lenDecisions_bits (c : LenCoder) (len ps : Nat) :
    (lenDecisions c len ps).map Decision.bit = lenBits len := by
  unfold lenDecisions lenBits
  split
  · simp [Decision.bit]
  · split <;> simp [Decision.bit]

@[simp] theorem distDecisions_bits (d0 len : Nat) : (distDecisions d0 len).map Decision.bit = distBits d0 := by
  rw [distDecisions, distBits, List.map_append, treeMsb_bits]
  congr 1
  unfold distTailDecisions
  split
  · rfl
  · split <;> simp

@[simp] theorem headDecisions_bits (k : Context) (p : Packet) :
    (headDecisions k p).map Decision.bit = packetHead p := by
  unfold headDecisions packetHead
  split <;> rfl

theorem packetDecisions_bits (k : Context) (p : Packet) :
    (packetDecisions k p).map Decision.bit = packetBits p := by
  rw [packetDecisions, List.map_append, headDecisions_bits]
  unfold tailDecisions packetBits
  split <;> simp

/-! ## The decisions by kind (R75, R129, R131) -/

theorem lenDecisions_cases (c : LenCoder) (len ps : Nat) :
    (len - 2 < 8 → lenDecisions c len ps = .adaptive (.choice c) false :: treeMsb (.low c ps) 3 (len - 2))
      ∧ (8 ≤ len - 2 → len - 2 < 16 → lenDecisions c len ps =
          .adaptive (.choice c) true :: .adaptive (.choice2 c) false :: treeMsb (.mid c ps) 3 (len - 2 - 8))
      ∧ (16 ≤ len - 2 → lenDecisions c len ps =
          .adaptive (.choice c) true :: .adaptive (.choice2 c) true :: treeMsb (.high c) 8 (len - 2 - 16)) := by
  refine ⟨fun h => ?_, fun hlo hhi => ?_, fun h => ?_⟩
  · rw [lenDecisions, if_pos h]
  · rw [lenDecisions, if_neg (by omega), if_pos hhi]
  · rw [lenDecisions, if_neg (by omega), if_neg (by omega)]

theorem distTailDecisions_cases (d0 slot : Nat) :
    (slot < 4 → distTailDecisions d0 slot = [])
      ∧ (4 ≤ slot → slot < 14 → distTailDecisions d0 slot =
          treeLsb (.posSpec slot) (slotFooterBits slot) (d0 - slotBase slot))
      ∧ (14 ≤ slot → distTailDecisions d0 slot = directMsb (slotFooterBits slot - 4) ((d0 - slotBase slot) / 16)
          ++ treeLsb .align 4 ((d0 - slotBase slot) % 16)) := by
  refine ⟨fun h => ?_, fun hlo hhi => ?_, fun h => ?_⟩
  · rw [distTailDecisions, if_pos h]
  · rw [distTailDecisions, if_neg (by omega), if_pos hhi]
  · rw [distTailDecisions, if_neg (by omega), if_neg (by omega)]

/-- Settles O7: the bits of each part are its part of the code, and each part's cells are those of its own walk. -/
theorem decisionsSpellThePacket : Obligations.DecisionsSpellThePacket := by
  refine ⟨packetDecisions_bits, fun A n v => ⟨treeMsb_eq_map A n v, treeLsb_eq_map A n v, directMsb_eq_map n v⟩,
    literalDecisions_eq_map, ?_, ?_, ?_⟩
  · rintro C len ps n rfl
    exact lenDecisions_cases C len ps
  · rintro d0 len slot fb r rfl rfl rfl
    obtain ⟨hnone, hspec, halign⟩ := distTailDecisions_cases d0 (distSlot d0)
    refine ⟨fun h => ?_, fun hlo hhi => ?_, fun h => ?_⟩
    · rw [distDecisions, hnone h, List.append_nil]
    · rw [distDecisions, hspec hlo hhi]; rfl
    · rw [distDecisions, halign h]; rfl
  · intro k isM rep hisM hrep
    simp only [hrep, hisM]
    exact ⟨fun _ => rfl, fun _ _ => rfl, rfl, fun _ => rfl, fun _ => rfl, fun _ => rfl, fun _ => rfl, rfl⟩

/-! ## Packet rows (R126, R127, R133) -/

/-- A byte at a positive distance is the ring's within the window, else 0 (40_dictionary.md R80). -/
theorem byteAtDist_eq (s : State) {d : Nat} (h : 1 ≤ d) :
    byteAtDist s d = if d ≤ dictLen s then ringAt s (s.H - d) else 0 := by
  have hpos : distPos s d = s.H - d := by rw [distPos]; omega
  have hin : distInWindow s d = decide (d ≤ dictLen s) := by
    have h1 : (1 : Int) ≤ d := Int.ofNat_le.2 h
    simp [distInWindow, h1]
  rw [byteAtDist, hpos, hin]
  simp only [decide_eq_true_eq]

/-- litState as R127 spells it: the position's bits above the top bits of the byte before. -/
theorem litStateOf_eq_or (s : State) : litStateOf s =
    (s.H &&& (2 ^ s.cfg.lp.toNat - 1)) <<< s.cfg.lc.toNat ||| (byteAtDist s 1).toNat >>> (8 - s.cfg.lc.toNat) := by
  have hprev : (byteAtDist s 1).toNat / 2 ^ (8 - s.cfg.lc.toNat) < 2 ^ s.cfg.lc.toNat := by
    refine Nat.div_lt_of_lt_mul ?_
    rw [← pow_add]
    exact (byteAtDist s 1).isLt.trans_le (Nat.pow_le_pow_right (by norm_num) (by omega))
  rw [litStateOf, Nat.shiftRight_eq_div_pow, ← Nat.shiftLeft_add_eq_or_of_lt hprev, Nat.shiftLeft_eq,
    Nat.and_two_pow_sub_one_eq_mod]

theorem packetDecisions_head? (k : Context) (p : Packet) :
    (packetDecisions k p).head? = some (.adaptive (.isMatch k.st k.ps) (packetHead p)[0]!) := by
  unfold packetDecisions headDecisions packetHead
  split <;> rfl

theorem packetHead_isPrefixOf (k : Context) (p : Packet) :
    (packetHead p).isPrefixOf ((packetDecisions k p).map Decision.bit) := by
  rw [packetDecisions, List.map_append, headDecisions_bits, List.isPrefixOf_iff_prefix]
  exact List.prefix_append ..

/-- Settles O53: a packet row is `codePacket`, which by definition codes in the contexts of the head. -/
theorem packetRowsCodeOnePacket : Obligations.PacketRowsCodeOnePacket := by
  rintro i p s k prev hp rfl rfl
  refine ⟨exec_packetRow hp s, packetDecisions_head? _ p, packetHead_isPrefixOf _ p, rfl,
    (Nat.and_two_pow_sub_one_eq_mod ..).symm, ?_, ?_⟩
  · rw [← byteAtDist_eq s le_rfl]
    exact litStateOf_eq_or s
  · rw [← byteAtDist_eq s (Nat.le_add_left 1 _)]
    rfl

end Sys2Proof.Machine

/-! # Every command answers once (30_encoding.md R72, R73, 60_exceptions.md R151, R159) -/

namespace Sys2Proof.Machine

/-! ## Effects do not talk -/

/-- Neither the host's moves nor the responses have changed. -/
def Silent (s u : State) : Prop := u.responses = s.responses ∧ u.inbox = s.inbox

theorem Silent.refl (s : State) : Silent s s := ⟨rfl, rfl⟩

theorem Silent.trans {s t u : State} (h : Silent s t) (h' : Silent t u) : Silent s u :=
  ⟨h'.1.trans h.1, h'.2.trans h.2⟩

theorem silent_indexHead (T : HashTable) (s : State) : Silent s (indexHead T s) := by simp [Silent]

theorem silent_skipBody (T : HashTable) (n : Nat) (s : State) : Silent s (skipBody T n s) := by
  obtain ⟨ix, b, heq, -, -⟩ := skipBody_spec T s n
  rw [heq]
  exact .refl s

theorem silent_loopTurn (T : HashTable) (P : Policy) (s : State) : Silent s (loopTurn T P s) := by
  refine (silent_indexHead T s).trans ?_
  unfold loopTurn codeOp
  split
  · exact silent_skipBody T _ (encMatchCore ..)
  · exact silent_skipBody T 1 (encLitCore _)

theorem silent_runLoop (T : HashTable) (P : Policy) (all : Bool) (maxOps : Nat) (s : State) :
    Silent s (runLoop T P all maxOps s).state :=
  compressLoop_induction (fun u _ hu => hu.trans (silent_loopTurn T P u)) all maxOps _ _ (.refl s)

theorem Effect.silent {i : Instr} {s u : State} (h : Effect s i u) : Silent s u := by
  cases h with
  | find => exact silent_indexHead _ s
  | skip n => exact silent_skipBody _ _ s
  | compress all n => exact silent_runLoop _ _ _ _ s
  | close => exact closeTail_induction (fun _ hu => hu) (fun _ hu => hu) (silent_runLoop _ _ _ _ s)
  | _ => exact .refl s

/-! ## One response -/

/-- The command has led from `s` to `t` with one response, which says what it may. -/
def AnswersOnce (i : Instr) (s t : State) : Prop :=
  ∃ r : Response, t.responses = s.responses ++ [r] ∧ t.inbox = s.inbox
    ∧ t.lastStatus = (if i.opcode = 0x02#8 then s.lastStatus else r.status)
    ∧ (r.items = [] ∨ (i.opcode.toNat ∈ [0x12, 0x20, 0x21] ∧ r.count = BitVec.ofNat 64 r.items.length))

section
variable {i : Instr} {s u : State}

theorem Silent.answersOnce (h : Silent s u) (hi : i.opcode ≠ 0x02#8) (st : Status) (n : Nat) (v : Word64) :
    AnswersOnce i s (respond st n v [] u) :=
  ⟨_, by rw [respond_responses, h.1], h.2, by rw [if_neg hi]; rfl, .inl rfl⟩

/-- A response whose items are as many as its count says. -/
theorem Silent.answersOnce_items (h : Silent s u) (hi : i.opcode.toNat ∈ [0x12, 0x20, 0x21]) {n : Nat}
    {items : List Word64} (hn : items.length = n) (st : Status) (v : Word64) :
    AnswersOnce i s (respond st n v items u) :=
  ⟨_, by rw [respond_responses, h.1], h.2, by rw [if_neg (by rintro he; simp [he] at hi)]; rfl,
    .inr ⟨hi, by rw [hn]⟩⟩

theorem answersOnce_raiseFatal {o : Byte} (hi : i.opcode = o) (st : Status) : AnswersOnce i s (raiseFatal st o s) :=
  ⟨_, raiseFatal_responses .., raiseFatal_inbox .., hi ▸ raiseFatal_lastStatus .., .inl rfl⟩

/-- A refusal, which has had no effect. -/
theorem answersOnce_refused (hi : i.opcode ≠ 0x02#8) (st : Status) : AnswersOnce i s (respond st 0 0 [] s) :=
  (Silent.refl s).answersOnce hi st 0 0

/-- A command refused by the common checks answers once, as its own rule does. -/
theorem answersOnce_runCommon {c : Checks} {body : State → State} (hi : i.opcode ≠ 0x02#8)
    (hb : AnswersOnce i s (body s)) : ∃ t, runCommon c body s = .next t ∧ AnswersOnce i s t := by
  rcases runCommon_cases c body s with ⟨st, -, he⟩ | ⟨-, he⟩
  · exact ⟨_, he, answersOnce_refused hi st⟩
  · exact ⟨_, he, hb⟩

theorem answersOnce_runEarly {body : State → State} (hi : i.opcode ≠ 0x02#8)
    (hb : AnswersOnce i s (body s)) : ∃ t, runEarly body s = .next t ∧ AnswersOnce i s t := by
  cases hf : s.faulted with
  | true => exact ⟨_, runEarly_faulted body hf, answersOnce_refused hi .faulted⟩
  | false => exact ⟨_, runEarly_of_not_faulted body hf, hb⟩

end

/-! ## Each command's own rule -/

@[simp] theorem opcode_regRead (r : Byte) : (Instr.regRead r).opcode = 0x02 := opcOf_mkWord ..
@[simp] theorem opcode_byteAt (d : Word64) : (Instr.byteAt d).opcode = 0x11 := opcOf_mkWord ..
@[simp] theorem opcode_segment (d : Word64) (n : Word32) : (Instr.segment d n).opcode = 0x12 := opcOf_mkWord ..
@[simp] theorem opcode_matchLen (d : Word64) (w : List Byte) : (Instr.matchLen d w).opcode = 0x13 := opcOf_mkWord ..
@[simp] theorem opcode_hash (k : Byte) (p : List Byte) : (Instr.hash k p).opcode = 0x20 := opcOf_mkWord ..

section
variable (s : State)

theorem answersOnce_initBody : AnswersOnce .init s (initBody s) := by
  unfold initBody
  split
  · next h => exact (Effect.init h).silent.answersOnce (by simp) ..
  · exact answersOnce_refused (by simp) _

theorem answersOnce_regReadBody (r : Byte) : AnswersOnce (.regRead r) s (regReadBody r s) := by
  unfold regReadBody
  split
  · exact ⟨_, rfl, rfl, by simp, .inl rfl⟩
  · exact answersOnce_raiseFatal (opcode_regRead r) _

theorem answersOnce_regWriteBody (r : Byte) (v : Word64) : AnswersOnce (.regWrite r v) s (regWriteBody r v s) := by
  unfold regWriteBody
  split
  · exact (Effect.regWrite r v).silent.answersOnce (by simp) ..
  · exact answersOnce_raiseFatal (opcode_regWrite r v) _

theorem answersOnce_sinkOpenBody (limit : Word64) : AnswersOnce (.sinkOpen limit) s (sinkOpenBody limit s) := by
  unfold sinkOpenBody
  split
  · exact answersOnce_raiseFatal (opcode_sinkOpen limit) _
  · next h => exact (Effect.sinkOpen limit (Int.not_lt.1 h)).silent.answersOnce (by simp) ..

theorem answersOnce_segmentBody (d : Word64) (n : Word32) : AnswersOnce (.segment d n) s (segmentBody d n s) := by
  unfold segmentBody
  split
  · exact (Silent.refl s).answersOnce_items (by simp) (by simp) ..
  · exact answersOnce_raiseFatal (opcode_segment d n) _

theorem answersOnce_matchLenBody (d : Word64) (w : List Byte) : AnswersOnce (.matchLen d w) s (matchLenBody d w s) := by
  unfold matchLenBody
  split
  · exact (Silent.refl s).answersOnce (by simp) ..
  · exact answersOnce_raiseFatal (opcode_matchLen d w) _

theorem answersOnce_copyNBody (n : Word32) : AnswersOnce (.copyN n) s (copyNBody n s) := by
  unfold copyNBody
  split
  · exact answersOnce_refused (by simp) _
  · exact (Effect.copyN n).silent.answersOnce (by simp) ..

theorem answersOnce_hashBody (T : HashTable) (k : Byte) (p : List Byte) :
    AnswersOnce (.hash k p) s (hashBody T k p s) := by
  unfold hashBody
  split
  · exact (Silent.refl s).answersOnce_items (by simp) (by simp) ..
  · exact answersOnce_raiseFatal (opcode_hash k p) _

theorem answersOnce_encLitBody : AnswersOnce .encLit s (encLitBody s) := by
  unfold encLitBody
  split
  · exact answersOnce_raiseFatal opcode_encLit _
  · next h =>
    split
    · exact (Effect.encLit (Nat.not_lt.1 h)).silent.answersOnce (by simp) ..
    · exact answersOnce_refused (by simp) _

theorem answersOnce_encMatchBody (d : Word64) (len : Word32) :
    AnswersOnce (.encMatch d len) s (encMatchBody d len s) := by
  unfold encMatchBody
  split
  · next h =>
    split
    · exact (Effect.encMatch d len h).silent.answersOnce (by simp) ..
    · exact answersOnce_refused (by simp) _
  · exact answersOnce_raiseFatal (opcode_encMatch d len) _

theorem answersOnce_encEosBody : AnswersOnce .encEos s (encEosBody s) := by
  unfold encEosBody
  split
  · exact Effect.encEos.silent.answersOnce (by simp) ..
  · exact answersOnce_refused (by simp) _

theorem answersOnce_rcFlushRule : AnswersOnce .rcFlush s (rcFlushRule s) := by
  unfold rcFlushRule
  split
  · exact answersOnce_refused (by simp) _
  · exact Effect.rcFlush.silent.answersOnce (by simp) ..

end

/-- Settles O11: every command's own rule answers once, and so do the checks that refuse it. -/
theorem oneResponsePerCommand : Obligations.OneResponsePerCommand := by
  intro i s hi
  suffices h : ∃ t, exec i s = .next t ∧ AnswersOnce i s t by
    obtain ⟨t, he, r, hr⟩ := h
    exact ⟨t, r, he, hr⟩
  cases i with
  | init => exact answersOnce_runEarly (by simp) (answersOnce_initBody s)
  | regRead r => exact ⟨_, rfl, answersOnce_regReadBody s r⟩
  | regWrite r v => exact answersOnce_runEarly (by simp) (answersOnce_regWriteBody s r v)
  | sinkOpen limit => exact answersOnce_runCommon (by simp) (answersOnce_sinkOpenBody s limit)
  | write p => exact answersOnce_runCommon (by simp) ((Effect.write p).silent.answersOnce (by simp) ..)
  | byteAt d => exact answersOnce_runCommon (by simp) ((Silent.refl s).answersOnce (by simp) ..)
  | segment d n => exact answersOnce_runCommon (by simp) (answersOnce_segmentBody s d n)
  | matchLen d w => exact answersOnce_runCommon (by simp) (answersOnce_matchLenBody s d w)
  | discard n => exact answersOnce_runCommon (by simp) ((Effect.discard n).silent.answersOnce (by simp) ..)
  | copyN n => exact answersOnce_runCommon (by simp) (answersOnce_copyNBody s n)
  | hash k p => exact answersOnce_runCommon (by simp) (answersOnce_hashBody s _ k p)
  | find => exact answersOnce_runCommon (by simp) (Effect.find.silent.answersOnce_items (by simp) (by simp) ..)
  | skip n =>
    rw [exec, execSkip]
    exact answersOnce_runCommon (by simp) ((Effect.skip n).silent.answersOnce (by simp) ..)
  | encLit => exact answersOnce_runCommon (by simp) (answersOnce_encLitBody s)
  | encMatch d len => exact answersOnce_runCommon (by simp) (answersOnce_encMatchBody s d len)
  | encEos => exact answersOnce_runCommon (by simp) (answersOnce_encEosBody s)
  | rcFlush => exact answersOnce_runCommon (by simp) (answersOnce_rcFlushRule s)
  | compress all n => exact answersOnce_runCommon (by simp) ((Effect.compress all n).silent.answersOnce (by simp) ..)
  | close => exact answersOnce_runCommon (by simp) (Effect.close.silent.answersOnce (by simp) ..)
  | pktLit | pktMatch | pktShortRep | pktLongRep0 | pktLongRep1 | pktLongRep2 | pktLongRep3 | pktEos => contradiction

end Sys2Proof.Machine

/-! # The dictionary's commands (40_dictionary.md R79 to R86) -/

namespace Sys2Proof.Machine

/-! ## A session lets the dictionary's commands through (60_exceptions.md R151) -/

section
variable {s : State}

theorem exec_write_of_ready (h : ready s) (payload : List Byte) :
    exec (.write payload) s = .next (writeBody payload s) := runCommon_ready _ h

theorem exec_byteAt_of_ready (h : ready s) (d : Word64) : exec (.byteAt d) s = .next (byteAtBody d s) :=
  runCommon_ready _ h

theorem exec_segment_of_ready (h : ready s) (d : Word64) (n : Word32) :
    exec (.segment d n) s = .next (segmentBody d n s) := runCommon_ready _ h

theorem exec_matchLen_of_ready (h : ready s) (d : Word64) (needle : List Byte) :
    exec (.matchLen d needle) s = .next (matchLenBody d needle s) := runCommon_ready _ h

theorem exec_discard_of_ready (h : ready s) (n : Word32) : exec (.discard n) s = .next (discardBody n s) :=
  runCommon_ready _ h

/-- COPYN also asks for an unbroken sink and a fresh coder (R86). -/
theorem exec_copyN_of_sinkReady (h : sinkReady s) (hfresh : s.coder.rcFresh = true) (n : Word32) :
    exec (.copyN n) s = .next (copyNBody n s) := by
  obtain ⟨⟨hfault, hinit⟩, hsink⟩ := h
  exact runCommon_of_none _ ((commonCheck_eq_none_iff _ s).2
    ⟨hfault, hinit, fun _ => hsink, by simp, fun _ => hfresh⟩)

end

/-! ## Distances (20_memory.md R47) -/

theorem distInWindow_iff (s : State) (d : Int) : distInWindow s d = true ↔ 1 ≤ d ∧ d ≤ (dictLen s : Int) := by
  simp [distInWindow]

theorem distInData_iff (s : State) (d : Int) :
    distInData s d = true ↔ -(s.B : Int) ≤ d ∧ d ≤ (dictLen s : Int) := by
  simp [distInData]

/-- Outside the window a byte reads as the sentinel (R80). -/
theorem byteAtDist_of_not_inWindow (s : State) {d : Int} (h : ¬ (1 ≤ d ∧ d ≤ (dictLen s : Int))) :
    byteAtDist s d = 0 := by
  rw [byteAtDist, if_neg ((distInWindow_iff s d).not.2 h)]

/-- Settles O22: a distance within the window is a natural number; any other reads the sentinel. -/
theorem byteAtReadsHistory : Obligations.ByteAtReadsHistory := by
  intro s d hready
  rw [exec_byteAt_of_ready hready, byteAtBody]
  refine ⟨fun hlo hhi => ?_, fun hout => ?_⟩
  · obtain ⟨k, hk⟩ := Int.eq_ofNat_of_zero_le (by omega : 0 ≤ d.toInt)
    rw [hk, byteAtDist_eq s (by omega), if_pos (by omega)]
    rfl
  · rw [byteAtDist_of_not_inWindow s hout]
    rfl

/-- Settles O23: the segment's bytes are the cells of consecutive positions. -/
theorem segmentReadsTheData : Obligations.SegmentReadsTheData := by
  rintro s d n c hready rfl
  rw [exec_segment_of_ready hready, segmentBody]
  refine ⟨fun hlo hhi => ?_, fun hout => ?_⟩
  · rw [if_pos ((distInData_iff s _).2 ⟨hlo, hhi⟩), ringSeg_eq_map, List.map_map]
    rfl
  · rw [if_neg ((distInData_iff s _).not.2 hout)]

/-- Settles O25: looking at as many bytes as the needle has is looking at all of them. -/
theorem matchLenComparesTheData : Obligations.MatchLenComparesTheData := by
  intro s d needle hready
  rw [exec_matchLen_of_ready hready, matchLenBody]
  refine ⟨fun hlo hhi => ?_, fun hout => ?_⟩
  · obtain ⟨k, hk⟩ := Int.eq_ofNat_of_zero_le (by omega : 0 ≤ d.toInt)
    rw [if_pos ((distInWindow_iff s _).2 ⟨hlo, hhi⟩), hk, matchLenAt_eq]
    rfl
  · rw [if_neg ((distInWindow_iff s _).not.2 hout)]

/-- Settles O27: DISCARD is Advance by what there is, and an answer. -/
theorem discardAdvances : Obligations.DiscardAdvances := by
  rintro s n m hready rfl
  exact exec_discard_of_ready hready n

/-! ## Common lengths (R83) -/

theorem le_prefixLen_iff (a b : List Byte) (m : Nat) :
    m ≤ prefixLen a b ↔ m ≤ min a.length b.length ∧ ∀ i < m, a[i]? = b[i]? := by
  induction a generalizing b m with
  | nil => simp +contextual [prefixLen]
  | cons x xs ih =>
    cases b with
    | nil => simp +contextual [prefixLen]
    | cons y ys =>
      cases m with
      | zero => simp
      | succ m =>
        rw [Nat.forall_lt_succ_left, prefixLen]
        split
        · next hxy => simp [hxy, ih]
        · next hxy => simp [hxy]

theorem prefixLen_comm (a b : List Byte) : prefixLen a b = prefixLen b a :=
  eq_of_forall_le_iff fun m => by simp only [le_prefixLen_iff, min_comm, eq_comm]

theorem prefixLen_eq_length_iff (a b : List Byte) : prefixLen a b = a.length ↔ a <+: b := by
  induction a generalizing b with
  | nil => simp [prefixLen]
  | cons x xs ih =>
    cases b with
    | nil => simp [prefixLen]
    | cons y ys =>
      rw [prefixLen, List.cons_prefix_cons, ← ih]
      split
      · next hxy => simp [hxy]
      · next hxy => simp [hxy]

theorem prefixLen_eq_min_iff (a b : List Byte) :
    prefixLen a b = min a.length b.length ↔ a <+: b ∨ b <+: a := by
  rw [← prefixLen_eq_length_iff a b, ← prefixLen_eq_length_iff b a, prefixLen_comm b a]
  have hleft := prefixLen_le_left a b
  have hright := prefixLen_le_right a b
  omega

/-- Settles O26: the common length is the largest count of leading bytes that agree, which is symmetric. -/
theorem prefixLenLaws : Obligations.PrefixLenLaws := fun a b =>
  ⟨le_min (prefixLen_le_left a b) (prefixLen_le_right a b), le_prefixLen_iff a b, prefixLen_comm a b,
    prefixLen_eq_min_iff a b⟩

/-! ## WRITE (R79) -/

/-- Two positions less than a ring's length apart have different cells. -/
theorem mod_ne_mod_of_lt {len p q : Nat} (hpq : p < q) (hq : q < p + len) : q % len ≠ p % len := by
  intro heq
  have hsame : q = p := Nat.mod_injOn_Ico p len (by simp; omega) (by simp; omega) heq
  omega

/-- No more bytes than the ring has cells: each written position keeps its own byte. -/
theorem ringWriteAll_read_written {len : Nat} (bs : List Byte) (m : Memory) (p : Nat) (hlen : bs.length ≤ len)
    {i : Nat} (hi : i < bs.length) : (ringWriteAll len m p bs).read ((p + i) % len) = some bs[i] := by
  induction bs generalizing m p i with
  | nil => simp at hi
  | cons b bs ih =>
    rw [List.length_cons] at hlen hi
    rw [ringWriteAll]
    cases i with
    | zero =>
      rw [Nat.add_zero p, List.getElem_cons_zero, ringWriteAll_read_other, Memory.read_write_same]
      exact fun j hj => mod_ne_mod_of_lt (by omega) (by omega)
    | succ i =>
      rw [List.getElem_cons_succ, ← ih _ (p + 1) (by omega) (by omega), Nat.add_assoc p 1 i, Nat.add_comm 1 i]

@[simp] theorem writeBody_ring (payload : List Byte) (s : State) : (writeBody payload s).ring =
    ringWriteAll (ringLen s) s.ring (s.H + s.B) (payload.take (min payload.length (available s))) := rfl

/-- Settles O20: at most Available bytes are written, which is no more than the ring has cells. -/
theorem writeAppends : Obligations.WriteAppends := by
  intro s payload m hready hm
  have hcount : min payload.length (available s) = m := hm.symm
  have hlen : (payload.take m).length = m := by rw [List.length_take]; omega
  refine ⟨_, exec_write_of_ready hready payload, ?_, fun i hi him => ?_, fun cell hcell => ?_⟩
  · rw [writeBody, hcount]
    rfl
  · rw [writeBody_ring, hcount, ringWriteAll_read_written _ _ _ (by omega) (by omega), List.getElem_take]
  · rw [writeBody_ring, hcount, ringWriteAll_read_other]
    rwa [hlen]

/-- The bytes that fit lie less than a ring's length above every defined position, so none falls in its cell. -/
theorem writeBody_read_defined (s : State) (payload : List Byte) {p : Nat} (hlo : s.H - dictLen s ≤ p)
    (hhi : p < s.H + s.B) : (writeBody payload s).ring.read (ringCell s p) = s.ring.read (ringCell s p) := by
  rw [writeBody_ring]
  refine ringWriteAll_read_other _ _ _ _ _ fun i hi => ?_
  have havail : i < ringLen s - s.B - dictLen s := by simp only [List.length_take, available] at hi; omega
  have hd := dictLen_le_H s
  exact mod_ne_mod_of_lt (by omega) (by omega)

/-- Settles O21: a refusal leaves the ring, and the bytes that fit leave every defined position's cell. Available alone
sees to that, in every state. -/
theorem writeKeepsTheWindow : Obligations.WriteKeepsTheWindow := by
  intro s t payload p _ hexec hlo hhi
  rcases runCommon_cases ⟨false, false, false⟩ (writeBody payload) s with ⟨st, -, he⟩ | ⟨-, he⟩ <;>
    obtain rfl := Host.Outcome.next.inj (he.symm.trans hexec)
  · exact ringAt_congr (respond_ring ..) (respond_cfg ..) p
  · exact congrArg (·.getD (Config.ringFree (ringCell s p))) (writeBody_read_defined s payload hlo hhi)

/-! ## COPYN (R86) -/

theorem emit_eq_of_room {c : Coder} (b : Byte) {u : List Byte} {us : List (List Byte)} (hroom : 1 ≤ c.sinkRem)
    (hsinks : c.sinks = u :: us) : emit b c =
      { c with sinkRem := c.sinkRem - 1, outCount := c.outCount + 1, sinks := (u ++ [b]) :: us } := by
  rw [emit, if_neg (by omega), hsinks, acceptByte]

/-- With room for every byte, Emit moves the accounting and the newest sink, and nothing else (43_range_coder.md
R118). -/
theorem emitAll_eq_of_room {c : Coder} (bs : List Byte) {u : List Byte} {us : List (List Byte)}
    (hroom : bs.length ≤ c.sinkRem) (hsinks : c.sinks = u :: us) :
    emitAll bs c = { c with
      sinkRem := c.sinkRem - bs.length, outCount := c.outCount + bs.length, sinks := (u ++ bs) :: us } := by
  induction bs generalizing c u with
  | nil => simp [emitAll, ← hsinks]
  | cons b bs ih =>
    rw [List.length_cons] at hroom
    rw [emitAll, emit_eq_of_room b (by omega) hsinks, ih (by simp only; omega) rfl]
    simp [Nat.sub_sub, Nat.add_assoc, Nat.add_comm 1]

/-- Settles O28: with room for them, the bytes copied move the accounting and the newest sink alone. -/
theorem copyNCopiesHistory : Obligations.CopyNCopiesHistory := by
  rintro s n m st hready hfresh rfl rfl
  rw [exec_copyN_of_sinkReady hready hfresh, copyNBody]
  refine ⟨fun hfull => ?_, fun hnone => ?_, fun u us hroom hsinks => ?_⟩
  · rw [if_pos hfull]
  · rw [if_neg (by omega), copyBytes, hnone]
    rfl
  · rw [if_neg (by omega), copyBytes, emitAll_eq_of_room _ (by simpa using hroom) hsinks, ringSeg_length,
      ringSeg_eq_map]

end Sys2Proof.Machine

/-! # Fingerprints and the hash index (41_hash_index.md R87 to R98) -/

namespace Sys2Proof.Machine

/-! ## Rotations (00_scope.md R11) -/

/-- Bit i of a rotated word is the bit `r` places below it, counted around the word. -/
theorem rotl32_getLsbD (v : Word32) (r : Nat) {i : Nat} (hi : i < 32) :
    (rotl32 v r).getLsbD i = v.getLsbD ((i + 32 - r % 32) % 32) := by
  rw [rotl32, BitVec.getLsbD_rotateLeft]
  by_cases hlow : i < r % 32
  · rw [decide_eq_true hlow, cond_true]
    congr 1
    omega
  · rw [decide_eq_false hlow, cond_false, decide_eq_true hi, Bool.true_and]
    congr 1
    omega

@[simp] theorem rotl32_zero (v : Word32) : rotl32 v 0 = v :=
  BitVec.eq_of_getLsbD_eq fun i hi => by rw [rotl32_getLsbD v 0 hi]; congr 1; omega

@[simp] theorem zero_rotl32 (r : Nat) : rotl32 0#32 r = 0#32 :=
  BitVec.eq_of_getLsbD_eq fun i hi => by simp [rotl32_getLsbD _ r hi]

theorem rotl32_xor (u v : Word32) (r : Nat) : rotl32 (u ^^^ v) r = rotl32 u r ^^^ rotl32 v r :=
  BitVec.eq_of_getLsbD_eq fun i hi => by simp [rotl32_getLsbD _ r hi]

theorem rotl32_rotl32 (v : Word32) (r t : Nat) : rotl32 (rotl32 v r) t = rotl32 v (r + t) :=
  BitVec.eq_of_getLsbD_eq fun i hi => by
    rw [rotl32_getLsbD _ t hi, rotl32_getLsbD v r (Nat.mod_lt _ (by decide)), rotl32_getLsbD v (r + t) hi]
    congr 1
    omega

/-! ## Fingerprints (R87, R88, R89) -/

/-- A byte at a word's end turns the bytes before it by one place and enters itself at rotation 0. -/
theorem fingerprint_append_singleton (T : HashTable) (w : List Byte) (c : Byte) :
    fingerprint T (w ++ [c]) = rotl32 (fingerprint T w) 1 ^^^ T c := by
  induction w with
  | nil => simp [fingerprint]
  | cons b w ih =>
    rw [List.cons_append, fingerprint, fingerprint, ih, rotl32_xor, rotl32_rotl32, List.length_append,
      List.length_singleton, BitVec.xor_assoc]

/-- Moving a window by one byte is the rolling update: the byte that leaves stands once in the turned fingerprint and
once in the update, at the same rotation. -/
theorem fingerprint_roll (T : HashTable) (b : Byte) (w : List Byte) (c : Byte) :
    fingerprint T (w ++ [c]) = rollFingerprint T (b :: w).length (fingerprint T (b :: w)) b c := by
  have hturn : rotl32 (fingerprint T (b :: w)) 1 = rotl32 (T b) (b :: w).length ^^^ rotl32 (fingerprint T w) 1 := by
    rw [fingerprint, rotl32_xor, rotl32_rotl32, List.length_cons]
  rw [rollFingerprint, hturn, BitVec.xor_comm (rotl32 (T b) _), BitVec.xor_assoc (rotl32 (fingerprint T w) 1),
    BitVec.xor_self, BitVec.xor_zero, fingerprint_append_singleton]

/-- Settles O31: the closed forms are the recursion of R87 written out, and every window rolls, of any length. -/
theorem fingerprintsRoll : Obligations.FingerprintsRoll := fun T =>
  ⟨fun a b => by simp [fingerprint],
    fun a b c => by simp [fingerprint, BitVec.xor_assoc],
    fun a b c d => by simp [fingerprint, BitVec.xor_assoc],
    fun b w c _ _ => fingerprint_roll T b w c⟩

/-- The windows of HASH, by their first byte's place in the payload. -/
theorem windowPrints_eq_map (T : HashTable) {k : Nat} (hk : 1 ≤ k) (w : List Byte) :
    windowPrints T k w = (List.range (w.length + 1 - k)).map (fun i => fingerprint T ((w.drop i).take k)) := by
  induction w with
  | nil => simp [windowPrints, Nat.sub_eq_zero_of_le hk]
  | cons b bs ih =>
    rw [windowPrints, List.length_cons]
    split
    · next hfit =>
      rw [Nat.sub_add_comm hfit, List.range_succ_eq_map, List.map_cons, List.map_map, ih]
      rfl
    · next hshort =>
      rw [Nat.sub_eq_zero_of_le (by omega)]
      rfl

theorem exec_hash_of_ready {s : State} (h : ready s) (k : Byte) (payload : List Byte) :
    exec (.hash k payload) s = .next (hashBody Config.hashTable k payload s) := runCommon_ready _ h

/-- Settles O30: HASH lists the payload's windows by their places. -/
theorem hashFingerprintsEveryWindow : Obligations.HashFingerprintsEveryWindow := by
  intro s k payload hready
  have hlengths : k.toNat ∈ [2, 3, 4] ↔ k.toNat = 2 ∨ k.toNat = 3 ∨ k.toNat = 4 := by simp
  rw [exec_hash_of_ready hready, hashBody, hlengths]
  refine ⟨fun hk => ?_, fun hk => ?_⟩
  · rw [if_pos hk, windowPrints_eq_map _ (by omega), List.length_map, List.length_range, List.map_map]
    rfl
  · rw [if_neg hk]

/-! ## Insert (R91, R97) -/

theorem sparseGet_sparseSet {α : Type} (m : List (Nat × α)) (a b : Nat) (v : α) :
    sparseGet (sparseSet m a v) b = if b = a then some v else sparseGet m b := by
  split
  · next heq => rw [heq, sparseGet_sparseSet_same]
  · next hne => exact sparseGet_sparseSet_other m v hne

/-- An entry of a single-entry table after one has been set. -/
theorem sparseGet_single_setSingle (ix : Index) {j : Nat} (hj : j ∈ [2, 3]) (k a p key : Nat) :
    sparseGet ((ix.setSingle k a p).single j) key =
      if k = j ∧ key = a then some p else sparseGet (ix.single j) key := by
  obtain rfl | rfl : j = 2 ∨ j = 3 := by simpa using hj
  all_goals
    unfold Index.setSingle
    split
    · next hk => simp [hk, Index.single, sparseGet_sparseSet]
    · split
      · next hk => simp [hk, Index.single, sparseGet_sparseSet]
      · next hk2 hk3 => simp [hk2, hk3]

theorem chainAt_pushChain (ix : Index) (a p key : Nat) :
    (ix.pushChain a p).chainAt key = if key = a then p :: ix.chainAt key else ix.chainAt key := by
  unfold Index.pushChain
  split
  · next heq => simp [heq, Index.chainAt]
  · next hne => simp only [Index.chainAt, sparseGet_sparseSet_other _ _ hne]

section
variable (T : HashTable) (s : State) (p : Nat)

/-- One word length of Insert sets its own single-entry table at its own key, below N. -/
theorem sparseGet_single_insertWord (ix : Index) {j : Nat} (hj : j ∈ [2, 3]) (k key : Nat) :
    sparseGet ((insertWord T s p ix k).single j) key =
      if k = j ∧ j < s.cfg.wordLen.toNat ∧ p + j ≤ s.H + s.B ∧ key = keyAt T s j p then some p
      else sparseGet (ix.single j) key := by
  unfold insertWord
  split
  · next hfit =>
    split
    · next hlt =>
      rw [sparseGet_single_setSingle ix hj]
      refine if_congr ⟨?_, ?_⟩ rfl rfl
      · rintro ⟨rfl, hkey⟩
        exact ⟨rfl, hlt, hfit, hkey⟩
      · rintro ⟨rfl, -, -, hkey⟩
        exact ⟨rfl, hkey⟩
    · next hge =>
      rw [if_neg (by rintro ⟨rfl, hlt, -⟩; exact hge hlt)]
      rfl
  · next hcut => rw [if_neg (by rintro ⟨rfl, -, hfit, -⟩; exact hcut hfit)]

/-- After some word lengths of Insert, a single-entry table has been set when its length was among them. -/
theorem sparseGet_single_foldl_insertWord (ks : List Nat) (ix : Index) {j : Nat} (hj : j ∈ [2, 3]) (key : Nat) :
    sparseGet ((ks.foldl (insertWord T s p) ix).single j) key =
      if j ∈ ks ∧ j < s.cfg.wordLen.toNat ∧ p + j ≤ s.H + s.B ∧ key = keyAt T s j p then some p
      else sparseGet (ix.single j) key := by
  induction ks generalizing ix with
  | nil => simp
  | cons k ks ih =>
    rw [List.foldl_cons, ih, sparseGet_single_insertWord T s p ix hj, ← ite_or]
    refine if_congr ?_ rfl rfl
    rw [List.mem_cons, eq_comm (a := j)]
    tauto

/-- Word length N of Insert puts the position before the others of its key. -/
theorem chainAt_insertWord_wordLen (ix : Index) (key : Nat) :
    (insertWord T s p ix s.cfg.wordLen.toNat).chainAt key =
      if p + s.cfg.wordLen.toNat ≤ s.H + s.B ∧ key = keyAt T s s.cfg.wordLen.toNat p then p :: ix.chainAt key
      else ix.chainAt key := by
  rw [insertWord, if_neg (Nat.lt_irrefl _)]
  split
  · next hfit => simp only [chainAt_pushChain, hfit, true_and]
  · next hcut => rw [if_neg (fun h => hcut h.1)]

/-- The word lengths below N leave the chains. -/
theorem foldl_singleLengths_chain (ix : Index) :
    ((singleLengths s).foldl (insertWord T s p) ix).chain = ix.chain :=
  List.foldlRecOn (motive := fun jx : Index => jx.chain = ix.chain) _ _ rfl fun jx hjx k hk => by
    rw [insertWord_chain_of_lt T s p jx (lt_wordLen_of_mem_singleLengths s hk), hjx]

theorem chainAt_insertPos (hN : 2 ≤ s.cfg.wordLen.toNat) (key : Nat) :
    (insertPos T p s).index.chainAt key =
      if p + s.cfg.wordLen.toNat ≤ s.H + s.B ∧ key = keyAt T s s.cfg.wordLen.toNat p then p :: s.index.chainAt key
      else s.index.chainAt key := by
  have hkeep : ((singleLengths s).foldl (insertWord T s p) s.index).chainAt key = s.index.chainAt key := by
    rw [Index.chainAt, foldl_singleLengths_chain, Index.chainAt]
  rw [insertPos_index, wordLengths_eq s hN, List.foldl_append, List.foldl_cons, List.foldl_nil,
    chainAt_insertWord_wordLen, hkeep]

theorem mem_wordLengths {k : Nat} : k ∈ wordLengths s ↔ 2 ≤ k ∧ k ≤ s.cfg.wordLen.toNat := by
  simp only [wordLengths, List.mem_map, List.mem_range]
  constructor
  · rintro ⟨i, hi, rfl⟩
    omega
  · rintro ⟨hlo, hhi⟩
    exact ⟨k - 2, by omega, by omega⟩

theorem sparseGet_single_insertPos {k : Nat} (hk : k ∈ [2, 3]) (key : Nat) :
    sparseGet ((insertPos T p s).index.single k) key =
      if k < s.cfg.wordLen.toNat ∧ p + k ≤ s.H + s.B ∧ key = keyAt T s k p then some p
      else sparseGet (s.index.single k) key := by
  have h2 : 2 ≤ k := by
    simp only [List.mem_cons, List.not_mem_nil, or_false] at hk
    omega
  rw [insertPos_index, sparseGet_single_foldl_insertWord T s p _ _ hk]
  exact if_congr ⟨And.right, fun h => ⟨(mem_wordLengths s).2 ⟨h2, h.1.le⟩, h⟩⟩ rfl rfl

end

/-- Settles O32: the tables take the position one word length at a time, each at its own key; the rest is Insert's
definition. -/
theorem insertListsThePosition : Obligations.InsertListsThePosition := by
  rintro T s p n rfl hn
  have hN : 2 ≤ s.cfg.wordLen.toNat := by
    simp only [List.mem_cons, List.not_mem_nil, or_false] at hn
    omega
  exact ⟨fun k key hk => sparseGet_single_insertPos T s p hk key, chainAt_insertPos T s p hN, rfl, rfl⟩

/-! ## Lookups (R92, R93) -/

/-- A live position is a history position whose distance the window covers. -/
theorem live_iff (s : State) (q : Nat) : live s q = true ↔ q < s.H ∧ s.H - q ≤ dictLen s := by
  simp only [live, Bool.and_eq_true, decide_eq_true_eq]
  omega

theorem lookupSingle_eq_some_iff (s : State) (k key q : Nat) :
    lookupSingle s k key = some q ↔ sparseGet (s.index.single k) key = some q ∧ q < s.H ∧ s.H - q ≤ dictLen s := by
  rw [lookupSingle, Option.filter_eq_some_iff, live_iff]

/-- Every chain is most recent first (R93). -/
theorem Inv.chainAt_pairwise {s : State} (h : Inv s) (key : Nat) :
    (s.index.chainAt key).Pairwise (fun p q => q < p) := by
  unfold Index.chainAt
  cases hg : sparseGet s.index.chain key with
  | none => exact List.Pairwise.nil
  | some l => exact h.chainOrder _ (sparseGet_mem hg)

/-- A falling list cut at `n` leaves an element out only when `n` greater ones stay. -/
theorem mem_take_or_lt_of_pairwise {l : List Nat} (hl : l.Pairwise (fun p q => q < p)) (n : Nat) {q : Nat}
    (hq : q ∈ l) : q ∈ l.take n ∨ (l.take n).length = n ∧ ∀ p ∈ l.take n, q < p := by
  rw [← List.take_append_drop n l] at hl hq
  rcases List.mem_append.1 hq with hkept | hcut
  · exact .inl hkept
  · have hlong : n < l.length := by
      have := List.length_pos_of_mem hcut
      rw [List.length_drop] at this
      omega
    exact .inr ⟨List.length_take_of_le hlong.le, fun p hp => (List.pairwise_append.1 hl).2.2 p hp q hcut⟩

/-- Settles O33: GetChain is the chain's live positions, which keep its order, cut at DEPTH. -/
theorem lookupsAnswerLivePositions : Obligations.LookupsAnswerLivePositions := by
  intro s key h
  have horder : ((s.index.chainAt key).filter (live s)).Pairwise (fun p q => q < p) :=
    (h.chainAt_pairwise key).filter _
  refine ⟨horder.take, List.length_take_le .., fun q hq => ?_, fun q hq hold hwin => ?_,
    fun k q => lookupSingle_eq_some_iff s k key q⟩
  · obtain ⟨hmem, hlive⟩ := List.mem_filter.1 (List.mem_of_mem_take hq)
    obtain ⟨hold, hwin⟩ := (live_iff s q).1 hlive
    exact ⟨hmem, by omega, hwin⟩
  · exact mem_take_or_lt_of_pairwise horder _ (List.mem_filter.2 ⟨hq, (live_iff s q).2 ⟨hold, hwin⟩⟩)

/-! ## The rebase (R96, R97, R98) -/

/-- The ring is shorter than 2^32 bytes: INIT checks it, and before INIT there is no ring (45_control.md R139). -/
theorem Inv.ringLen_le {s : State} (h : Inv s) : ringLen s ≤ 4294967295 := by
  cases hi : s.initDone with
  | false =>
    obtain ⟨hcfg, -, -⟩ := h.unborn hi
    simp [ringLen, hcfg, Cfg.zero]
  | true =>
    have hlegal := h.cfgLegal hi
    simp only [Cfg.legal, Bool.and_eq_true, decide_eq_true_eq] at hlegal
    rw [ringLen]
    omega

/-- A rebase raises IDX_BASE to just below the window, and an insertion without one leaves it. -/
theorem le_rebased {s : State} (h : s.idxBase + 1 ≤ (s.H : Int) - dictLen s) (p : Nat) :
    s.idxBase ≤ rebased s p := by
  unfold rebased
  split <;> omega

/-- The offset of a position that is less than 2^32 - 1 above the window's start fits 32 bits after its insertion. -/
theorem offset_rebased_le {s : State} {p : Nat} (h : (p : Int) + 1 ≤ (s.H : Int) - dictLen s + 4294967295) :
    (p : Int) - rebased s p ≤ 4294967295 := by
  unfold rebased
  split <;> omega

/-- Settles O34: IDX_BASE stays below the window, and the defined positions span less than the ring, which is shorter
than 2^32. -/
theorem rebaseKeepsOffsetsInRange : Obligations.RebaseKeepsOffsetsInRange := by
  intro T s p h hlo hhi
  have hbelow := rebased_below_window s p h.base
  have hspan : (p : Int) - rebased s p ≤ 4294967295 := by
    have hwindow := h.window
    have hring := h.ringLen_le
    exact offset_rebased_le (by omega)
  rw [insertPos_idxBase]
  refine ⟨by omega, hspan, fun q hqlo hqhi => ⟨by omega, by omega⟩, fun q hq => ?_, le_rebased h.base p⟩
  refine Bool.eq_false_iff.2 fun hlive => ?_
  obtain ⟨hold, hwin⟩ := (live_iff s q).1 hlive
  omega

end Sys2Proof.Machine

/-! # The match finder (42_match_finder.md R103 to R110) -/

namespace Sys2Proof.Machine

/-! ## A session lets FIND and SKIP through (60_exceptions.md R151) -/

section
variable {s : State}

theorem exec_find_of_ready (h : ready s) : exec .find s = .next (findBody Config.hashTable s) := runCommon_ready _ h

theorem exec_skip_of_ready (h : ready s) (n : Word32) : exec (.skip n) s =
    .next (respond .ok (min n.toNat s.B) 0 [] (skipBody Config.hashTable n.toNat s)) := by
  rw [exec, execSkip, runCommon_ready _ h]

theorem indexHead_of_open (T : HashTable) (h : s.ahead = 0 ∧ 0 < s.B) :
    indexHead T s = { insertPos T s.H s with ahead := 1 } := if_pos h

theorem indexHead_of_not_open (T : HashTable) (h : ¬ (s.ahead = 0 ∧ 0 < s.B)) : indexHead T s = s := if_neg h

end

/-! ## The needle (R103) -/

section
variable (s : State)

@[simp] theorem needle_length : (needle s).length = min s.B 273 := ringSeg_length ..

theorem needle_eq_map : needle s = (List.range (min s.B 273)).map (fun i => ringAt s (s.H + i)) :=
  ringSeg_eq_map ..

theorem needle_take {k : Nat} (hk : k ≤ (needle s).length) : (needle s).take k = ringSeg s s.H k := by
  rw [needle_length] at hk
  rw [needle, ringSeg_take, Config.maxMatchLen, Nat.min_eq_left hk]

/-- Before the common length the data repeats at the distance (R83). -/
theorem ringAt_eq_of_lt_matchLenAt {d i : Nat} (h : i < matchLenAt s d (needle s)) :
    ringAt s (s.H + i) = ringAt s (s.H - d + i) := by
  rw [matchLenAt_eq] at h
  have hbyte := getElem_of_lt_prefixLen _ _ i h
  simpa only [needle, ringSeg_getElem] using hbyte

end

/-! ## One candidate (R104, R105) -/

section
variable (s : State)

theorem Search.done_iff (r : Search) :
    r.done s = true ↔ s.cfg.niceLen.toNat ≤ r.best ∨ (needle s).length ≤ r.best := by
  simp [Search.done]

/-- A candidate is left out, being no longer than the best or coming after NICE_LEN was reached, or it is kept with its
common length and becomes the best. -/
theorem considerOpen_cases (r : Search) (d : Nat) :
    (considerOpen s r d = r ∧ (matchLenAt s d (needle s) ≤ r.best ∨ s.cfg.niceLen.toNat ≤ r.best))
      ∨ (r.best < matchLenAt s d (needle s) ∧ considerOpen s r d =
          ⟨r.res ++ [(d, matchLenAt s d (needle s))], matchLenAt s d (needle s)⟩) := by
  unfold considerOpen consider
  split
  · next hdone =>
    refine .inl ⟨rfl, ?_⟩
    rcases (Search.done_iff s r).1 hdone with hnice | hfull
    · exact .inr hnice
    · exact .inl ((matchLenAt_le_needle s d (needle s)).trans hfull)
  · split
    · next hlonger => exact .inr ⟨hlonger, rfl⟩
    · next hshort => exact .inl ⟨rfl, .inl (Nat.le_of_not_lt hshort)⟩

/-- What a search has kept: common lengths of its distances, which rise strictly from above 1 to the best. -/
structure Search.Kept (r : Search) : Prop where
  positive : 1 ≤ r.best
  common   : ∀ m ∈ r.res, m.2 = matchLenAt s m.1 (needle s)
  bounds   : ∀ m ∈ r.res, 1 < m.2 ∧ m.2 ≤ r.best
  rising   : r.res.Pairwise (fun m n => m.2 < n.2)
  bestLast : r.best = ((r.res.getLast?).map Prod.snd).getD 1

theorem kept_start : Search.start.Kept s :=
  ⟨Nat.le_refl 1, by simp [Search.start], by simp [Search.start], List.Pairwise.nil, rfl⟩

theorem Search.Kept.considerOpen {r : Search} (h : r.Kept s) (d : Nat) : (considerOpen s r d).Kept s := by
  rcases considerOpen_cases s r d with ⟨hsame, -⟩ | ⟨hlonger, hkept⟩
  · rwa [hsame]
  · have hpos := h.positive
    rw [hkept]
    refine ⟨hpos.trans hlonger.le, List.forall_mem_append.2 ⟨h.common, by simp⟩,
      List.forall_mem_append.2 ⟨fun m hm => ?_, ?_⟩,
      List.pairwise_append.2 ⟨h.rising, List.pairwise_singleton .., fun m hm n hn => ?_⟩, by simp⟩
    · obtain ⟨hlo, hhi⟩ := h.bounds m hm
      exact ⟨hlo, hhi.trans hlonger.le⟩
    · simpa using hpos.trans_lt hlonger
    · obtain rfl := List.mem_singleton.1 hn
      exact (h.bounds m hm).2.trans_lt hlonger

theorem best_le_considerOpen (r : Search) (d : Nat) : r.best ≤ (considerOpen s r d).best := by
  rcases considerOpen_cases s r d with ⟨hsame, -⟩ | ⟨hlonger, hkept⟩
  · rw [hsame]
  · rw [hkept]
    exact hlonger.le

/-- After its turn a candidate is no longer than the best, or NICE_LEN is reached. -/
theorem matchLenAt_le_considerOpen (r : Search) (d : Nat) :
    matchLenAt s d (needle s) ≤ (considerOpen s r d).best ∨ s.cfg.niceLen.toNat ≤ (considerOpen s r d).best := by
  rcases considerOpen_cases s r d with ⟨hsame, hout⟩ | ⟨-, hkept⟩
  · rwa [hsame]
  · rw [hkept]
    exact .inl (Nat.le_refl _)

/-! ## A pass over candidates (R104) -/

theorem best_le_foldl (ds : List Nat) (r : Search) : r.best ≤ (ds.foldl (considerOpen s) r).best :=
  List.foldlRecOn (motive := fun t : Search => r.best ≤ t.best) ds _ (Nat.le_refl _)
    fun t ht d _ => ht.trans (best_le_considerOpen s t d)

theorem matchLenAt_le_foldl {ds : List Nat} {d : Nat} (hd : d ∈ ds) (r : Search) :
    matchLenAt s d (needle s) ≤ (ds.foldl (considerOpen s) r).best
      ∨ s.cfg.niceLen.toNat ≤ (ds.foldl (considerOpen s) r).best := by
  induction ds generalizing r with
  | nil => cases hd
  | cons e es ih =>
    rw [List.foldl_cons]
    rcases List.mem_cons.1 hd with rfl | hd
    · have hlater := best_le_foldl s es (considerOpen s r d)
      exact (matchLenAt_le_considerOpen s r d).imp (·.trans hlater) (·.trans hlater)
    · exact ih hd _

/-- The distances a pass adds are candidates, in their order. -/
theorem map_fst_foldl_sublist (ds : List Nat) (r : Search) :
    ((ds.foldl (considerOpen s) r).res.map Prod.fst).Sublist (r.res.map Prod.fst ++ ds) := by
  induction ds generalizing r with
  | nil => simp
  | cons d ds ih =>
    refine (ih (considerOpen s r d)).trans ?_
    rcases considerOpen_cases s r d with ⟨hsame, -⟩ | ⟨-, hkept⟩
    · rw [hsame]
      exact (List.sublist_cons_self d ds).append_left _
    · simp [hkept]

/-- The pass in the terms of the obligations: a pair of the list and the best length, any one-candidate step that is
R104's and R105's. -/
theorem foldl_considerOpen_eq {s : State} {len : Nat → Nat}
    {consider1 : List (Nat × Nat) × Nat → Nat → List (Nat × Nat) × Nat}
    (hlen : ∀ d, len d = matchLenAt s d (needle s))
    (hconsider : ∀ r d, consider1 r d =
      if s.cfg.niceLen.toNat ≤ r.2 ∨ (needle s).length ≤ r.2 then r
      else if r.2 < len d then (r.1 ++ [(d, len d)], len d) else r) (ds : List Nat) :
    ds.foldl consider1 ([], 1) =
      ((ds.foldl (considerOpen s) Search.start).res, (ds.foldl (considerOpen s) Search.start).best) := by
  refine List.foldl_hom (fun r : Search => (r.res, r.best)) (init := Search.start) fun r d => ?_
  rw [hconsider, hlen, considerOpen, consider]
  by_cases hdone : r.done s = true
  · rw [if_pos hdone, if_pos ((Search.done_iff s r).1 hdone)]
  · rw [if_neg hdone, if_neg ((Search.done_iff s r).not.1 hdone)]
    split <;> rfl

end

/-! ## The candidates (R104) -/

/-- The candidates of a search, as distances, in the order of R104. -/
def candidates (T : HashTable) (s : State) : List Nat :=
  (singleLengths s).filterMap (singleCandidate T s) ++ (chainCandidates T s).map (fun q => s.H - q)

section
variable (T : HashTable) (s : State)

theorem search_eq_candidates : search T s = (candidates T s).foldl (considerOpen s) Search.start :=
  search_eq_foldl T s

theorem search_kept : (search T s).Kept s := by
  rw [search_eq_candidates]
  exact List.foldlRecOn _ _ (kept_start s) fun r hr d _ => hr.considerOpen s d

theorem map_fst_findList_sublist : ((findList T s).map Prod.fst).Sublist (candidates T s) := by
  rw [findList, search_eq_candidates]
  exact map_fst_foldl_sublist s (candidates T s) Search.start

theorem live_of_mem_getChain {s : State} {key q : Nat} (h : q ∈ getChain s key) : live s q = true :=
  (List.mem_filter.1 (List.mem_of_mem_take h)).2

theorem mem_singleLengths {k : Nat} : k ∈ singleLengths s ↔ 2 ≤ k ∧ k < s.cfg.wordLen.toNat := by
  simp only [singleLengths, List.mem_map, List.mem_range]
  constructor
  · rintro ⟨i, hi, rfl⟩
    omega
  · rintro ⟨hlo, hhi⟩
    exact ⟨k - 2, by omega, by omega⟩

theorem singleCandidate_eq_some_iff {k d : Nat} : singleCandidate T s k = some d ↔ k ≤ (needle s).length
    ∧ (lookupSingle s k (fingerprint T ((needle s).take k)).toNat).map (fun q => s.H - q) = some d := by
  rw [singleCandidate, Option.ite_none_right_eq_some]

theorem mem_chainCandidates {q : Nat} : q ∈ chainCandidates T s ↔ s.cfg.wordLen.toNat ≤ (needle s).length
    ∧ q ∈ getChain s (fingerprint T ((needle s).take s.cfg.wordLen.toNat)).toNat := by
  rw [chainCandidates, List.mem_ite_nil_right]

theorem chainCandidates_map : (chainCandidates T s).map (fun q => s.H - q) =
    if s.cfg.wordLen.toNat ≤ (needle s).length then
      (getChain s (fingerprint T ((needle s).take s.cfg.wordLen.toNat)).toNat).map (fun q => s.H - q)
    else [] := by
  rw [chainCandidates, apply_ite (List.map _), List.map_nil]

/-- A live position's distance lies in the window (R92). -/
theorem dist_of_live {q : Nat} (h : live s q = true) : 1 ≤ s.H - q ∧ s.H - q ≤ dictLen s := by
  obtain ⟨hold, hwin⟩ := (live_iff s q).1 h
  exact ⟨by omega, hwin⟩

/-- Lookups answer live positions, so every candidate's distance lies in the window. -/
theorem candidates_in_window : ∀ d ∈ candidates T s, 1 ≤ d ∧ d ≤ dictLen s := by
  refine List.forall_mem_append.2 ⟨fun d hd => ?_, List.forall_mem_map.2 fun q hq => ?_⟩
  · obtain ⟨k, -, hk⟩ := List.mem_filterMap.1 hd
    obtain ⟨q, hq, rfl⟩ := Option.map_eq_some_iff.1 ((singleCandidate_eq_some_iff T s).1 hk).2
    exact dist_of_live s ((live_iff s q).2 ((lookupSingle_eq_some_iff ..).1 hq).2)
  · exact dist_of_live s (live_of_mem_getChain ((mem_chainCandidates T s).1 hq).2)

/-- One candidate for each single-entry table and DEPTH of the chain, at the most (R107). -/
theorem candidates_length_le : (candidates T s).length ≤ (s.cfg.wordLen.toNat - 2) + s.cfg.depth.toNat := by
  have hsingles : ((singleLengths s).filterMap (singleCandidate T s)).length ≤ s.cfg.wordLen.toNat - 2 :=
    (List.length_filterMap_le ..).trans (by simp [singleLengths])
  have hchain : (chainCandidates T s).length ≤ s.cfg.depth.toNat := by
    unfold chainCandidates getChain
    split
    · exact List.length_take_le ..
    · exact Nat.zero_le _
  rw [candidates, List.length_append, List.length_map]
  exact Nat.add_le_add hsingles hchain

/-- SINGLE_2 and SINGLE_3 are the only single-entry tables (R90). -/
theorem lookupSingle_of_four_le {k : Nat} (hk : 4 ≤ k) (key : Nat) : lookupSingle s k key = none := by
  rw [lookupSingle, Index.single, if_neg (by omega), if_neg (by omega)]
  rfl

end

/-! ## FIND's list (R104, R105, R107) -/

theorem findItem_eq : findItem = fun m => BitVec.ofNat 64 (m.2 * 2 ^ 32 + m.1) := rfl

/-- Settles O35: the answer is FIND's own rule, and the search is one pass over the candidates. -/
theorem findAnswersTheSearch : Obligations.FindAnswersTheSearch := by
  refine ⟨fun s hready => ?_, ?_⟩
  · rw [exec_find_of_ready hready, findBody, findItem_eq]
    refine ⟨fun hopen => ?_, fun hshut => ?_⟩
    · rw [indexHead_of_open _ hopen]
    · rw [indexHead_of_not_open _ hshut]
  · rintro T s N w len singles chain consider1 rfl hw hlen hconsider hsingles hchain
    obtain rfl : w = needle s := hw.trans (needle_eq_map s).symm
    have hcandidates : singles ++ chain = candidates T s := by
      rw [candidates, hsingles, hchain, chainCandidates_map]
      rfl
    rw [foldl_considerOpen_eq (fun d => (hlen d).trans (matchLenAt_eq s d _).symm) hconsider, hcandidates, findList,
      search_eq_candidates]

/-- The window is shorter than 2^32 bytes, since the ring is. -/
theorem Inv.dictLen_lt {s : State} (h : Inv s) : dictLen s < 2 ^ 32 := by
  have hring := h.ringLen_le
  simp only [ringLen] at hring
  simp only [dictLen]
  omega

/-- Settles O36: distances are candidates, lengths are what the pass keeps. -/
theorem findResultsAreMatches : Obligations.FindResultsAreMatches := by
  intro T s _ h
  have hkept := search_kept T s
  have hsub := map_fst_findList_sublist T s
  refine ⟨fun m hm => ?_, hkept.rising, ?_⟩
  · have hcommon := hkept.common m hm
    have hlen : m.2 ≤ min s.B 273 := by
      rw [hcommon, ← needle_length]
      exact matchLenAt_le_needle ..
    obtain ⟨hlo, -⟩ := hkept.bounds m hm
    obtain ⟨hnear, hfar⟩ := candidates_in_window T s m.1 (hsub.subset (List.mem_map_of_mem hm))
    have hwindow := h.dictLen_lt
    exact ⟨hlo, by omega, by omega, hnear, hfar, hcommon, fun i hi => ringAt_eq_of_lt_matchLenAt s (hcommon ▸ hi),
      by omega, by omega⟩
  · have hcount := hsub.length_le
    rw [List.length_map] at hcount
    exact hcount.trans (candidates_length_le T s)

/-- Settles O37: each such position is a candidate of the pass, and none that the pass meets beats its best. -/
theorem findMissesNoLongerMatch : Obligations.FindMissesNoLongerMatch := by
  rintro T s d best rfl htables
  rw [findList, ← (search_kept T s).bestLast, search_eq_candidates]
  refine matchLenAt_le_foldl s (List.mem_append.2 ?_) _
  rcases htables with ⟨k, hlo, hN, hB, hk⟩ | ⟨hN, q, hq, rfl⟩
  · have hsmall : k < 4 := by
      by_contra hlarge
      rw [lookupSingle_of_four_le s (by omega)] at hk
      cases hk
    have hfits : k ≤ (needle s).length := by
      rw [needle_length]
      omega
    exact .inl (List.mem_filterMap.2
      ⟨k, (mem_singleLengths s).2 ⟨hlo, hN⟩, (singleCandidate_eq_some_iff T s).2 ⟨hfits, hk⟩⟩)
  · exact .inr (List.mem_map_of_mem ((mem_chainCandidates T s).2 ⟨hN, hq⟩))

/-! ## The search after the head is indexed (R110) -/

/-- `t` has the data and the window of `s`: all that a search reads but the index. -/
structure SameData (s t : State) : Prop where
  ring : t.ring = s.ring
  cfg  : t.cfg = s.cfg
  H    : t.H = s.H
  B    : t.B = s.B

namespace SameData
variable {s t : State} (h : SameData s t)
include h

theorem needle_eq : needle t = needle s := by rw [needle, needle, h.H, h.B, ringSeg_congr h.ring h.cfg]

theorem live_eq : live t = live s := by
  funext q
  rw [live, live, dictLen, dictLen, h.H, h.cfg]

theorem considerOpen_eq : considerOpen t = considerOpen s := by
  funext r d
  rw [considerOpen, considerOpen, Search.done, Search.done, consider, consider, h.needle_eq, h.cfg,
    matchLenAt_congr h.ring h.cfg h.H h.B]

end SameData

section
variable (T : HashTable) (s : State)

/-- The head is no history position. -/
theorem live_head : live s s.H = false := by simp [live]

/-- A position that is not live shows in no chain lookup after its insertion (R92). -/
theorem filter_live_chainAt_insertPos {p : Nat} (hp : live s p = false) (key : Nat) :
    ((insertPos T p s).index.chainAt key).filter (live s) = (s.index.chainAt key).filter (live s) := by
  rw [insertPos_index]
  refine List.foldlRecOn
    (motive := fun ix : Index => (ix.chainAt key).filter (live s) = (s.index.chainAt key).filter (live s))
    _ _ rfl fun ix hix k _ => ?_
  rw [← hix, insertWord]
  split
  · split
    · rw [Index.chainAt, setSingle_chain, Index.chainAt]
    · rw [chainAt_pushChain]
      split
      · rw [List.filter_cons_of_neg (by simp [hp])]
      · rfl
  · rfl

variable {s} {t : State} (h : SameData s t) (hindex : t.index = (insertPos T s.H s).index)
include h hindex

theorem getChain_after_head (key : Nat) : getChain t key = getChain s key := by
  rw [getChain, getChain, hindex, h.live_eq, h.cfg, filter_live_chainAt_insertPos T s (live_head s)]

/-- A single-entry table now lists the head under the needle's own key, which is not live (R110). -/
theorem singleCandidate_after_head {k : Nat} (hlo : 2 ≤ k) (hN : k < s.cfg.wordLen.toNat) :
    singleCandidate T t k = none := by
  rw [singleCandidate, h.needle_eq]
  split
  · next hfits =>
    have hB : k ≤ s.B := hfits.trans (by simp)
    rw [Option.map_eq_none_iff, needle_take s hfits]
    by_cases hlarge : 4 ≤ k
    · exact lookupSingle_of_four_le t hlarge _
    · have hk : k ∈ [2, 3] := by
        simp only [List.mem_cons, List.not_mem_nil, or_false]
        omega
      rw [lookupSingle, hindex, sparseGet_single_insertPos T s s.H hk,
        if_pos ⟨hN, Nat.add_le_add_left hB s.H, rfl⟩, h.live_eq]
      simp [live_head]
  · rfl

/-- Once the head is indexed, the candidates are the chain's as they were before. -/
theorem candidates_after_head : candidates T t = (chainCandidates T s).map (fun q => s.H - q) := by
  have hsingles : (singleLengths t).filterMap (singleCandidate T t) = [] := by
    refine List.filterMap_eq_nil_iff.2 fun k hk => ?_
    obtain ⟨hlo, hN⟩ := (mem_singleLengths t).1 hk
    exact singleCandidate_after_head T h hindex hlo (h.cfg ▸ hN)
  rw [candidates, hsingles, List.nil_append, chainCandidates, chainCandidates, h.needle_eq, h.cfg, h.H,
    getChain_after_head T h hindex]

end

/-- Settles O38: the first FIND indexes the head, which leaves the second the chain's candidates alone; AHEAD is 1
then, so the second indexes nothing. -/
theorem repeatedFindSearchesTheChainAlone : Obligations.RepeatedFindSearchesTheChainAlone := by
  rintro s N w len chain consider1 hready hahead hB rfl hw hlen hconsider hchain
  obtain rfl : w = needle s := hw.trans (needle_eq_map s).symm
  have hopen : s.ahead = 0 ∧ 0 < s.B := ⟨hahead, hB⟩
  refine ⟨_, _, exec_find_of_ready hready, rfl, ?_⟩
  have hdata : SameData s (findBody Config.hashTable s) := by
    constructor <;> simp [findBody]
  have hindex : (findBody Config.hashTable s).index = (insertPos Config.hashTable s.H s).index := by
    rw [findBody, respond_index, indexHead_index, if_pos hopen]
  have hready' : ready (findBody Config.hashTable s) := by simpa [ready, findBody] using hready
  have hshut : ¬ ((findBody Config.hashTable s).ahead = 0 ∧ 0 < (findBody Config.hashTable s).B) := by
    simp [findBody, hopen]
  have hlist : findList Config.hashTable (findBody Config.hashTable s) = (chain.foldl consider1 ([], 1)).1 := by
    rw [foldl_considerOpen_eq (fun d => (hlen d).trans (matchLenAt_eq s d _).symm) hconsider, findList,
      search_eq_candidates, candidates_after_head _ hdata hindex, hdata.considerOpen_eq, hchain, chainCandidates_map]
  rw [exec_find_of_ready hready', findBody, hlist, findItem_eq, indexHead_of_not_open _ hshut]

/-! ## SKIP (R108) -/

theorem insertRange_eq_foldl (T : HashTable) (p n : Nat) (s : State) :
    insertRange T p n s = (List.range n).foldl (fun v i => insertPos T (p + i) v) s := by
  induction n generalizing p s with
  | zero => rfl
  | succ n ih =>
    rw [insertRange, ih, List.range_succ_eq_map, List.foldl_cons, List.foldl_map]
    simp only [Nat.add_zero, Nat.succ_eq_add_one, Nat.add_assoc, Nat.add_comm 1]

/-- Settles O39: the insertions write the index and IDX_BASE alone, then the head advances. -/
theorem skipIndexesAndAdvances : Obligations.SkipIndexesAndAdvances := by
  rintro s u n m hready rfl hu
  obtain ⟨ix, b, hrange, -, -⟩ :=
    insertRange_spec Config.hashTable s (s.H + s.ahead) (min n.toNat s.B - s.ahead)
  obtain rfl : u = { s with index := ix, idxBase := b } := by rw [hu, ← insertRange_eq_foldl, hrange]
  rw [exec_skip_of_ready hready, skipBody, hrange]
  rfl

end Sys2Proof.Machine

/-! # One decision, Normalize, ShiftLow, and the stream commands (43_range_coder.md R113 to R123) -/

namespace Sys2Proof.Machine

/-! ## The interval step of a decision (R113, R114) -/

section
variable {bound : Nat} {c : Coder} (b : Bool)

/-- The interval step writes `low` and the range alone. -/
theorem narrow_eq (bound : Nat) (c : Coder) : narrow bound b c =
    { c with rcLow := (narrow bound b c).rcLow, rcRange := (narrow bound b c).rcRange } := by cases b <;> rfl

theorem narrow_rcRange_toNat (h : bound ≤ c.rcRange.toNat) : (narrow bound b c).rcRange.toNat =
    if b then c.rcRange.toNat - bound else bound := by
  cases b <;> simp only [narrow, if_true, Bool.false_eq_true, if_false, BitVec.toNat_ofNat] <;> omega

theorem narrow_rcLow_toNat (h : c.rcLow.toNat + bound < 2 ^ 64) : (narrow bound b c).rcLow.toNat =
    if b then c.rcLow.toNat + bound else c.rcLow.toNat := by
  cases b
  · rfl
  · exact Nat.mod_eq_of_lt h

/-- The adaptive step of a cell in its range stays below 2^11, so it is exact. -/
theorem probMove_toNat {p : Prob} (h : probInRange p = true) : (probMove p b).toNat =
    if b then p.toNat - p.toNat / 32 else p.toNat + (2048 - p.toNat) / 32 := by
  simp only [probInRange, Bool.and_eq_true, decide_eq_true_eq] at h
  cases b <;> simp only [probMove, if_true, Bool.false_eq_true, if_false, BitVec.toNat_ofNat] <;> omega

end

/-- Settles O40: `low`, the range and the cell are each within their registers, so no step of them wraps. -/
theorem oneDecisionNarrowsExactly : Obligations.OneDecisionNarrowsExactly := by
  intro b c h
  obtain ⟨hr, hb, -⟩ := (coderInv_iff c).1 h
  have hrange : 16777216 ≤ c.rcRange.toNat := hr.range
  have hlow := hr.low
  refine ⟨?_, ?_⟩
  · rintro a p bound rfl hbound
    have hp := hb.read_inRange a
    obtain rfl : bound = probBound c (c.probs.read a) := hbound
    obtain ⟨hlo, hhi⟩ := probBound_bounds hr.range hp
    have hmove := probMove_inRange b hp
    simp only [probInRange, Bool.and_eq_true, decide_eq_true_eq] at hmove
    refine ⟨by omega, by omega, _, rfl, narrow_rcRange_toNat b (by omega), narrow_rcLow_toNat b (by omega), ?_⟩
    simp only [Bank.read_write_same]
    exact ⟨probMove_toNat b hp, hmove.1, hmove.2, fun a' ha => Bank.read_write_other _ _ ha,
      by rw [narrow_eq]⟩
  · refine ⟨_, rfl, ?_, ?_, rfl⟩
    · exact Nat.mod_eq_of_lt (by omega)
    · cases b
      · rfl
      · exact Nat.mod_eq_of_lt (by omega)

/-! ## The turns of Normalize (R116) -/

/-- One turn of Normalize's loop. -/
def normalizeTurn (c : Coder) : Coder := shiftLow { c with rcRange := c.rcRange <<< 8 }

theorem rangeShifted_eq_shiftLeft (r : Word32) : rangeShifted r = r <<< 8 :=
  BitVec.eq_of_toNat_eq (by simp [rangeShifted, Nat.shiftLeft_eq])

theorem normalizeTurn_rcRange_toNat {c : Coder} (h : c.rcRange.toNat < 2 ^ 24) :
    (normalizeTurn c).rcRange.toNat = c.rcRange.toNat * 256 := by
  rw [normalizeTurn, shiftLow_rcRange, ← rangeShifted_eq_shiftLeft, rangeShifted_toNat h]

theorem normalize_succ_of_lt {c : Coder} (fuel : Nat) (h : c.rcRange.toNat < 2 ^ 24) :
    normalize (fuel + 1) c = normalize fuel (normalizeTurn c) := by
  rw [normalize, if_pos (show _ < Config.top from h), rangeShifted_eq_shiftLeft, normalizeTurn]

/-- With turns enough to raise the range to 2^24, Normalize takes exactly as many as it needs, and each multiplies the
range by 256. -/
theorem exists_normalize_eq_iterate {fuel : Nat} {c : Coder} (h : 2 ^ 24 ≤ c.rcRange.toNat * 256 ^ fuel) :
    ∃ k, normalize fuel c = normalizeTurn^[k] c ∧ (normalize fuel c).rcRange.toNat = c.rcRange.toNat * 256 ^ k
      ∧ 2 ^ 24 ≤ (normalize fuel c).rcRange.toNat ∧ ∀ j < k, c.rcRange.toNat * 256 ^ j < 2 ^ 24 := by
  induction fuel generalizing c with
  | zero => exact ⟨0, rfl, by simp [normalize], by simpa [normalize] using h, by simp⟩
  | succ n ih =>
    by_cases htop : c.rcRange.toNat < 2 ^ 24
    · have hturn := normalizeTurn_rcRange_toNat htop
      have hstep := normalize_succ_of_lt n htop
      obtain ⟨k, hk, hrange, hreach, hleast⟩ := ih (c := normalizeTurn c) (by rwa [hturn, mul_assoc, ← pow_succ'])
      rw [hturn, mul_assoc, ← pow_succ'] at hrange
      refine ⟨k + 1, by rw [hstep, hk, Function.iterate_succ_apply], by rw [hstep, hrange], hstep ▸ hreach, ?_⟩
      rintro (_ | j) hj
      · simpa using htop
      · have := hleast j (by omega)
        rwa [hturn, mul_assoc, ← pow_succ'] at this
    · rw [normalize_of_top_le _ (Nat.not_lt.1 htop)]
      exact ⟨0, rfl, by simp, by omega, by simp⟩

/-- Settles O41: a range that still falls short of 2^24 after `j` turns is below 2^(24 - 8 * j). -/
theorem normalizeReachesTop : Obligations.NormalizeReachesTop := by
  intro c hpos
  obtain ⟨k, hk, hrange, hreach, hleast⟩ := exists_normalize_eq_iterate (fuel := 4) (c := c) (by omega)
  refine ⟨k, ?_, hk, hrange, hreach, fun htop => ?_, fun hmid => ?_⟩ <;> by_contra hlong
  · have := hleast 3 (by omega)
    omega
  · have := hleast 0 (by omega)
    omega
  · have := hleast 1 (by omega)
    omega

/-! ## Bytes as numbers (R65) -/

theorem bytesToNat_append (as bs : List Byte) : bytesToNat (as ++ bs) =
    bytesToNat as + 256 ^ as.length * bytesToNat bs := by
  induction as with
  | nil => simp [bytesToNat]
  | cons a as ih => simp only [List.cons_append, bytesToNat, ih, List.length_cons, pow_succ']; ring

/-- A number's bytes are the only ones of their count that spell it. -/
theorem natToBytes_bytesToNat (bs : List Byte) : natToBytes (bytesToNat bs) bs.length = bs := by
  induction bs with
  | nil => rfl
  | cons b bs ih =>
    have hdiv : (b.toNat + 256 * bytesToNat bs) / 256 = bytesToNat bs := by omega
    have hmod : BitVec.ofNat 8 (b.toNat + 256 * bytesToNat bs) = b :=
      BitVec.eq_of_toNat_eq (by rw [BitVec.toNat_ofNat]; omega)
    rw [List.length_cons, bytesToNat, natToBytes, hdiv, hmod, ih]

/-- A carry `y` into `n` bytes of 0xFF: what it leaves of them, and what it carries out. -/
theorem bytesToNat_replicate_carry (n : Nat) {y : Nat} (hy : y ≤ 1) :
    bytesToNat (List.replicate n (BitVec.ofNat 8 (255 + y))) + 256 ^ n * y = 256 ^ n - 1 + y := by
  induction n with
  | zero => simp [bytesToNat]
  | succ n ih =>
    have hpos : 0 < 256 ^ n := by positivity
    rw [List.replicate_succ, bytesToNat, pow_succ', mul_assoc, BitVec.toNat_ofNat]
    omega

/-! ## What ShiftLow emits (R115) -/

/-- The held-back bytes can take the carry that `low` may hold: what ShiftLow needs of `CoderInv`. -/
structure HoldsCarry (c : Coder) : Prop where
  cacheSize : 1 ≤ c.rcCacheSize
  low       : c.rcLow.toNat < 2 ^ 33
  carryRoom : heldValue c < 256 ^ c.rcCacheSize * 2 ^ 32

theorem CoderInv.holdsCarry {c : Coder} (h : CoderInv c) : HoldsCarry c := by
  have hrange : 16777216 ≤ c.rcRange.toNat := h.range
  have hlow := h.low
  have hroom := h.carryRoom
  exact ⟨h.cacheSize, by omega, by omega⟩

/-- The settled bytes spell the held-back number without the low 32 bits of `low`: a carry runs through the 0xFF bytes
into the cache byte, which has room for it. -/
theorem bytesToNat_settledBytes {c : Coder} (h : HoldsCarry c) :
    bytesToNat (settledBytes c).reverse * 4294967296 + c.rcLow.toNat % 4294967296 = heldValue c := by
  obtain ⟨hsize, hlow, hroom⟩ := h
  obtain ⟨n, hn⟩ := Nat.exists_eq_add_of_le' hsize
  have hpos : 0 < 256 ^ n := by positivity
  have hcache := c.rcCache.isLt
  have hcarry := bytesToNat_replicate_carry n (y := c.rcLow.toNat / 4294967296) (by omega)
  rw [heldValue, hn, Nat.add_sub_cancel, add_mul, one_mul, mul_comm _ (256 ^ n)] at hroom ⊢
  have hfit : c.rcCache.toNat + c.rcLow.toNat / 4294967296 < 256 := by
    by_contra hfull
    have hmax : c.rcCache.toNat = 255 := by omega
    rw [hmax, pow_succ] at hroom
    omega
  rw [settledBytes, hn, Nat.add_sub_cancel, List.reverse_cons, List.reverse_replicate, bytesToNat_append,
    List.length_replicate, bytesToNat, bytesToNat, BitVec.toNat_ofNat, Nat.mod_eq_of_lt hfit, mul_zero, add_zero,
    mul_add]
  omega

/-- The bytes one ShiftLow emits. -/
def shiftLowBytes (c : Coder) : List Byte := if topSettled c then settledBytes c else []

/-- `bs` are the bytes emitted by `k` ShiftLows that lead from `c` to `d`: with the number still held back they spell
the number held before, moved up `k` bytes, and the sink has taken them. RcInit stands on both sides to say that nothing
else but its registers has moved. -/
structure ShiftedOut (c : Coder) (k : Nat) (bs : List Byte) (d : Coder) : Prop where
  number : bytesToNat bs.reverse * 256 ^ d.rcCacheSize * 2 ^ 32 + heldValue d = heldValue c * 256 ^ k
  count  : bs.length + d.rcCacheSize = c.rcCacheSize + k
  sink   : rcInit d = rcInit (emitAll bs c)

theorem shiftLow_rcCacheSize_of_settled {c : Coder} (h : topSettled c = true) : (shiftLow c).rcCacheSize = 1 := by
  rw [shiftLow_rcCacheSize, if_pos h]

theorem shiftLow_rcCacheSize_of_not_settled {c : Coder} (h : topSettled c = false) :
    (shiftLow c).rcCacheSize = c.rcCacheSize + 1 := by
  rw [shiftLow_rcCacheSize, h, if_neg Bool.false_ne_true]

theorem shiftedOut_shiftLow {c : Coder} (h : HoldsCarry c) : ShiftedOut c 1 (shiftLowBytes c) (shiftLow c) := by
  have hsize := h.cacheSize
  cases ht : topSettled c with
  | false =>
    have hbytes : shiftLowBytes c = [] := by rw [shiftLowBytes, ht, if_neg Bool.false_ne_true]
    refine ⟨?_, ?_, ?_⟩
    · simp [hbytes, heldValue_shiftLow_of_not_settled hsize ht, bytesToNat, mul_comm]
    · rw [hbytes, shiftLow_rcCacheSize_of_not_settled ht, List.length_nil, Nat.zero_add]
    · simp [hbytes, ht, shiftLow, emitAll, rcInit]
  | true =>
    have hbytes : shiftLowBytes c = settledBytes c := if_pos ht
    refine ⟨?_, ?_, ?_⟩
    · rw [hbytes, shiftLow_rcCacheSize_of_settled ht, heldValue_shiftLow_of_settled ht, ← bytesToNat_settledBytes h]
      ring
    · rw [hbytes, shiftLow_rcCacheSize_of_settled ht, settledBytes_length, Nat.sub_add_cancel hsize]
    · simp [hbytes, ht, shiftLow, rcInit]

theorem HoldsCarry.shiftLow {c : Coder} (h : HoldsCarry c) : HoldsCarry (shiftLow c) := by
  obtain ⟨hsize, -, hroom⟩ := h
  have hlow : (Machine.shiftLow c).rcLow.toNat < 2 ^ 33 := by
    have := lowShifted_lt c.rcLow
    rw [shiftLow_rcLow]; omega
  cases ht : topSettled c with
  | false =>
    have hcache := shiftLow_rcCacheSize_of_not_settled ht
    refine ⟨by omega, hlow, ?_⟩
    rw [heldValue_shiftLow_of_not_settled hsize ht, hcache, pow_succ]
    omega
  | true =>
    have hcache := shiftLow_rcCacheSize_of_settled ht
    refine ⟨by omega, hlow, ?_⟩
    rw [heldValue_shiftLow_of_settled ht, hcache]
    omega

/-! ## Several ShiftLows in a row (R117) -/

theorem rcInit_emit (b : Byte) (c : Coder) : rcInit (emit b c) = emit b (rcInit c) := by
  unfold emit
  rw [rcInit_sinkRem]
  split <;> rfl

theorem rcInit_emitAll (bs : List Byte) (c : Coder) : rcInit (emitAll bs c) = emitAll bs (rcInit c) := by
  induction bs generalizing c with
  | nil => rfl
  | cons b bs ih => rw [emitAll, ih, rcInit_emit, emitAll]

theorem emitAll_append (as bs : List Byte) (c : Coder) : emitAll (as ++ bs) c = emitAll bs (emitAll as c) := by
  induction as generalizing c with
  | nil => rfl
  | cons a as ih => exact ih (emit a c)

theorem ShiftedOut.trans {c d e : Coder} {k m : Nat} {as bs : List Byte} (h : ShiftedOut c k as d)
    (h' : ShiftedOut d m bs e) : ShiftedOut c (k + m) (as ++ bs) e := by
  refine ⟨?_, ?_, ?_⟩
  · have hpow : 256 ^ bs.length * 256 ^ e.rcCacheSize = 256 ^ d.rcCacheSize * 256 ^ m := by
      rw [← pow_add, ← pow_add, h'.count]
    rw [List.reverse_append, bytesToNat_append, List.length_reverse]
    calc (bytesToNat bs.reverse + 256 ^ bs.length * bytesToNat as.reverse) * 256 ^ e.rcCacheSize * 2 ^ 32 + heldValue e
        = bytesToNat as.reverse * (256 ^ bs.length * 256 ^ e.rcCacheSize) * 2 ^ 32
            + (bytesToNat bs.reverse * 256 ^ e.rcCacheSize * 2 ^ 32 + heldValue e) := by ring
      _ = (bytesToNat as.reverse * 256 ^ d.rcCacheSize * 2 ^ 32 + heldValue d) * 256 ^ m := by
        rw [hpow, h'.number]; ring
      _ = heldValue c * 256 ^ (k + m) := by rw [h.number, mul_assoc, ← pow_add]
  · have := h.count
    have := h'.count
    rw [List.length_append]; omega
  · rw [h'.sink, rcInit_emitAll, h.sink, ← rcInit_emitAll, emitAll_append]

theorem exists_shiftedOut_iterate (k : Nat) {c : Coder} (h : HoldsCarry c) :
    ∃ bs, ShiftedOut c k bs (shiftLow^[k] c) := by
  induction k generalizing c with
  | zero => exact ⟨[], by simp [bytesToNat], by simp, rfl⟩
  | succ k ih =>
    obtain ⟨bs, hbs⟩ := ih h.shiftLow
    exact ⟨_, Nat.add_comm 1 k ▸ (shiftedOut_shiftLow h).trans hbs⟩

/-- Settles O42: one ShiftLow is `ShiftedOut` by one byte, and the sink has room for what it emits. -/
theorem shiftLowConservesTheNumber : Obligations.ShiftLowConservesTheNumber := by
  intro c u us hsize hlow hroom hfit hsinks
  obtain ⟨hnumber, hcount, hsink⟩ := shiftedOut_shiftLow ⟨hsize, hlow, hroom⟩
  have hlength : (shiftLowBytes c).length ≤ c.sinkRem := by
    have hkept : 1 ≤ (shiftLow c).rcCacheSize := (HoldsCarry.shiftLow ⟨hsize, hlow, hroom⟩).cacheSize
    omega
  rw [emitAll_eq_of_room _ hlength hsinks] at hsink
  exact ⟨shiftLowBytes c, congrArg (·.sinks) hsink, by simpa using hnumber, hcount, by simp,
    headroom_shiftLow c hsize hfit, congrArg (·.sinkBroken) hsink, congrArg (·.outCount) hsink⟩

/-! ## RC_FLUSH (R117, R122) -/

/-- Four ShiftLows leave no bit of `low`. -/
theorem iterate_four_shiftLow_rcLow (c : Coder) : (shiftLow^[4] c).rcLow.toNat = 0 := by
  simp only [Function.iterate_succ_apply', Function.iterate_zero_apply, shiftLow_rcLow, lowShifted_toNat]
  omega

/-- After the five ShiftLows of RcFlush the coder holds back one byte, and it is 0. -/
theorem iterate_five_shiftLow_holds (c : Coder) :
    (shiftLow^[5] c).rcCacheSize = 1 ∧ heldValue (shiftLow^[5] c) = 0 := by
  have hlow := iterate_four_shiftLow_rcLow c
  have ht : topSettled (shiftLow^[4] c) = true := by rw [topSettled, hlow]; rfl
  rw [Function.iterate_succ_apply', shiftLow_rcCacheSize_of_settled ht, heldValue_shiftLow_of_settled ht, hlow]
  exact ⟨rfl, rfl⟩

/-- RcFlush emits the held-back number in rcCacheSize + 4 bytes, high byte first, and is RcInit besides. -/
theorem rcFlushBody_eq {c : Coder} (h : HoldsCarry c) :
    rcFlushBody c = rcInit (emitAll (natToBytes (heldValue c) (flushCost c)).reverse c) := by
  obtain ⟨bs, hnumber, hcount, hsink⟩ := exists_shiftedOut_iterate 5 h
  obtain ⟨hsize, hheld⟩ := iterate_five_shiftLow_holds c
  rw [hsize] at hnumber hcount
  rw [hheld] at hnumber
  have hvalue : heldValue c = bytesToNat bs.reverse := by omega
  have hlength : flushCost c = bs.reverse.length := by rw [flushCost, List.length_reverse]; omega
  rw [hvalue, hlength, natToBytes_bytesToNat, List.reverse_reverse]
  exact hsink

theorem exec_rcFlush_of_sinkReady {s : State} (h : sinkReady s) : exec .rcFlush s = .next (rcFlushRule s) := by
  obtain ⟨⟨hfault, hinit⟩, hsink⟩ := h
  exact runCommon_of_none _ ((commonCheck_eq_none_iff _ s).2 ⟨hfault, hinit, fun _ => hsink, by simp, by simp⟩)

/-- Settles O44: with room for them, the bytes of the held-back number move the accounting and the newest sink alone. -/
theorem rcFlushEmitsTheHeldNumber : Obligations.RcFlushEmitsTheHeldNumber := by
  intro s c hready hc
  obtain rfl : c = flushCost s.coder := hc
  rw [exec_rcFlush_of_sinkReady hready, rcFlushRule]
  refine ⟨fun hfull => by rw [if_pos hfull], fun u us hinv hroom hsinks => ?_⟩
  rw [if_neg (Nat.not_lt.2 hroom), rcFlushBody_eq hinv.holdsCarry,
    emitAll_eq_of_room _ (by simpa using hroom) hsinks, List.length_reverse, natToBytes_length]
  rfl

/-! ## SINK_OPEN (R123) -/

theorem toNat_toInt_of_nonneg {w : Word64} (h : 0 ≤ w.toInt) : w.toInt.toNat = w.toNat := by
  have := w.toInt_eq_toNat_cond
  have := w.isLt
  split at * <;> omega

theorem exec_sinkOpen_of_ready {s : State} (h : ready s) (limit : Word64) :
    exec (.sinkOpen limit) s = .next (sinkOpenBody limit s) := runCommon_ready _ h

/-- Settles O45: a session lets SINK_OPEN through to its own rule, which is the statement's two cases. -/
theorem sinkOpenStartsASink : Obligations.SinkOpenStartsASink := by
  intro s limit hready
  rw [exec_sinkOpen_of_ready hready, sinkOpenBody]
  refine ⟨fun hneg => by rw [if_pos hneg], fun hpos => ?_⟩
  rw [if_neg (Int.not_lt.2 hpos), toNat_toInt_of_nonneg hpos]
  rfl

end Sys2Proof.Machine

/-! # The encode commands (44_lzma_model.md R125, R130 to R138) -/

namespace Sys2Proof.Machine

/-! ## Transitions, slots and the repeat cache (R125, R130, R133, R136) -/

/-- Settles O47: the table by evaluation, the classes and the moves of the cache by definition. -/
theorem transitionsAndRepeats : Obligations.TransitionsAndRepeats :=
  ⟨by decide, by decide, by decide, by decide, fun _ _ _ _ _ => ⟨rfl, rfl, rfl, rfl, rfl⟩,
    fun _ _ _ _ => ⟨rfl, rfl, rfl, rfl, rfl, rfl, rfl, rfl⟩⟩

/-- Settles O48: the slot's footer bits and base are read off the place of the distance's top bit. -/
theorem distanceSlots : Obligations.DistanceSlots := by
  refine fun d0 hd0 => ⟨distSlot_lt hd0, distSlot_of_lt, fun h => ?_⟩
  obtain ⟨n, hn, hlo, hhi, hslot⟩ := distSlot_eq h
  obtain ⟨hbase, hrest⟩ := slotBase_bounds h
  have hfooter : slotFooterBits (distSlot d0) = n := by rw [slotFooterBits]; omega
  have hparity : distSlot d0 % 2 = d0 / 2 ^ n % 2 := by omega
  exact ⟨n + 1, _, hlo, hhi, rfl, hslot, hfooter, by rw [slotBase, hfooter, hparity, Nat.add_sub_cancel], hbase,
    by omega⟩

/-- The packet of a match, with the repeat cache's entries tried in order (R133). -/
theorem matchPacketFor_eq (r : Reps) (d0 : Word32) (len : Nat) : matchPacketFor r d0 len =
    if r.r0 = d0 then (if len = 1 then .shortRep else .longRep 0 len)
    else if r.r1 = d0 then .longRep 1 len
    else if r.r2 = d0 then .longRep 2 len
    else if r.r3 = d0 then .longRep 3 len
    else .simpleMatch d0 len := by
  unfold matchPacketFor repIndex
  split_ifs <;> rfl

/-! ## The checks of the encode commands (R135, R137, R138) -/

/-- MarginCheck as R138 states it. -/
theorem marginOk_iff (s : State) : marginOk s = true ↔
    (s.cfg.opMargin.toNat : Int) + (if s.cfg.eos.toNat = 1 then (s.cfg.eosMargin.toNat : Int) else 0)
      ≤ headroom s.coder := by
  rw [marginOk, marginNeed, decide_eq_true_eq]
  split <;> simp

theorem eosMarginOk_iff (s : State) : eosMarginOk s = true ↔ (s.cfg.eosMargin.toNat : Int) ≤ headroom s.coder := by
  rw [eosMarginOk, decide_eq_true_eq]

theorem formatOk_iff (r : Reps) (d : Int) (len : Nat) : formatOk r d len = true ↔
    (1 ≤ d ∧ d ≤ 2 ^ 32 - 1 ∧ 2 ≤ len ∧ len ≤ 273) ∨ (len = 1 ∧ d - 1 = r.r0.toNat) := by
  simp only [formatOk, Bool.or_eq_true, Bool.and_eq_true, decide_eq_true_eq, and_assoc]
  norm_num [Config.maxDistance, Config.minMatchLen, Config.maxMatchLen]

/-- Within the data, the bytes at a distance repeat for `len` bytes when each is the byte that far back. -/
theorem bytesRepeat_iff (s : State) {d len : Nat} (hlen : len ≤ s.B) :
    bytesRepeat s d len = true ↔ ∀ i < len, ringAt s (s.H + i) = ringAt s (s.H - d + i) := by
  have hsize : len ≤ min len (d + s.B) := by omega
  rw [bytesRepeat, decide_eq_true_eq, matchLenAt_eq, le_prefixLen_iff, ringSeg_length, ringSeg_length,
    and_iff_right hsize]
  refine forall₂_congr fun i hi => ?_
  rw [ringSeg_eq_map, ringSeg_eq_map, List.getElem?_map, List.getElem?_map, List.getElem?_range hi,
    List.getElem?_range (by omega)]
  simp

/-- ENC_MATCH's operand checks as R135 states them. -/
theorem matchOk_iff (s : State) (d : Int) (len : Nat) : matchOk s d len = true ↔
    ((1 ≤ d ∧ d ≤ 2 ^ 32 - 1 ∧ 2 ≤ len ∧ len ≤ 273) ∨ (len = 1 ∧ d - 1 = s.rep.r0.toNat))
      ∧ d ≤ dictLen s ∧ len ≤ s.B ∧ ∀ i < len, ringAt s (s.H + i) = ringAt s (s.H - d.toNat + i) := by
  rw [matchOk, Bool.and_eq_true, Bool.and_eq_true, Bool.and_eq_true, formatOk_iff, decide_eq_true_eq,
    decide_eq_true_eq, and_assoc, and_assoc]
  refine and_congr_right fun hformat => and_congr_right fun _ => and_congr_right fun hlen => ?_
  obtain ⟨k, rfl⟩ := Int.eq_ofNat_of_zero_le (a := d) (by omega)
  exact bytesRepeat_iff s hlen

/-- The 0-based distance is `d - 1` modulo 2^32. -/
theorem zeroBased_eq {d : Int} {d0 : Word32} (h : (d0.toNat : Int) = (d - 1) % 2 ^ 32) : zeroBased d = d0 := by
  refine BitVec.eq_of_toNat_eq ?_
  rw [zeroBased, BitVec.toNat_ofInt]
  omega

/-! ## The encode commands (R134, R135, R137) -/

section
variable {s : State} (h : encodeReady s)
include h

theorem exec_encLit_of_encodeReady : exec .encLit s = .next (encLitBody s) := runCommon_encodeReady _ h

theorem exec_encMatch_of_encodeReady (d : Word64) (len : Word32) :
    exec (.encMatch d len) s = .next (encMatchBody d len s) := runCommon_encodeReady _ h

theorem exec_encEos_of_encodeReady : exec .encEos s = .next (encEosBody s) := runCommon_encodeReady _ h

end

/-- Settles O50: the three outcomes are the branches of ENC_LIT's own rule. -/
theorem encLitCodesTheHead : Obligations.EncLitCodesTheHead := by
  rintro s need c hready rfl rfl
  rw [exec_encLit_of_encodeReady hready, encLitBody]
  refine ⟨fun hB => ?_, fun hB hlow => ?_, fun hB hroom => ?_⟩
  · rw [if_pos hB]
  · rw [if_neg (Nat.not_lt.2 hB), if_neg ((marginOk_iff s).not.2 (Int.not_le.2 hlow))]
  · rw [if_neg (Nat.not_lt.2 hB), if_pos ((marginOk_iff s).2 hroom)]
    rfl

/-- Settles O51: the operand checks and the packet are those of ENC_MATCH's own rule, written out. -/
theorem encMatchCodesTheMatch : Obligations.EncMatchCodesTheMatch := by
  rintro s dw lw d len d0 need ok p c hready rfl rfl hd0 rfl hok hp rfl
  rw [← matchOk_iff] at hok
  rw [← matchPacketFor_eq, ← zeroBased_eq hd0] at hp
  subst hp
  rw [exec_encMatch_of_encodeReady hready, encMatchBody]
  refine ⟨fun hbad => ?_, fun hgood hlow => ?_, fun hgood hroom => ?_⟩
  · rw [if_neg (hok.not.1 hbad)]
  · rw [if_pos (hok.1 hgood), if_neg ((marginOk_iff s).not.2 (Int.not_le.2 hlow))]
  · rw [if_pos (hok.1 hgood), if_pos ((marginOk_iff s).2 hroom)]
    rfl

/-- Coding the end marker (R137): the marker's decisions, a match's move of lzState, the sentinel on the cache. -/
theorem codePacket_eos (s : State) : codePacket .eos s = { s with
    coder := codeAll (packetDecisions (contextOf s) .eos) s.coder
    lzState := BitVec.ofNat 8 (updMatch s.lzState.toNat)
    rep := ⟨0xFFFFFFFF#32, s.rep.r0, s.rep.r1, s.rep.r2⟩ } := rfl

/-- Settles O52: the two outcomes are the branches of ENC_EOS's own rule. -/
theorem encEosCodesTheMarker : Obligations.EncEosCodesTheMarker := by
  intro s c hready hc
  rw [exec_encEos_of_encodeReady hready, encEosBody]
  refine ⟨fun hlow => ?_, fun hroom => ?_⟩
  · rw [if_neg ((eosMarginOk_iff s).not.2 (Int.not_le.2 hlow))]
  · rw [if_pos ((eosMarginOk_iff s).2 hroom), respondCoded, sinkStatus, codePacket_eos, ← hc]

end Sys2Proof.Machine

/-! # The margins (43_range_coder.md R113 to R119, 44_lzma_model.md R138, 60_exceptions.md R157)

95_test_vectors.md section 5 bounds the ShiftLows of an operation by what its decisions cost, in bits. Here a cost is a
whole number of fortieths of a bit: `Codes n` says that a coder has lost at most `n` of them. -/

namespace Sys2Proof.Machine

/-! ## HEADROOM pays for ShiftLows (44_lzma_model.md R138) -/

/-- `k` ShiftLows have led from `c` to `d`: as long as HEADROOM, with the five ShiftLows of a flush that it reserves,
covers them, HEADROOM falls by `k` and no byte is dropped. -/
def Spends (k : Nat) (c d : Coder) : Prop :=
  (k : Int) ≤ headroom c + 5 → headroom d = headroom c - k ∧ d.sinkBroken = c.sinkBroken

theorem Spends.of_sameSink {c d : Coder} (hsize : d.rcCacheSize = c.rcCacheSize) (hrem : d.sinkRem = c.sinkRem)
    (hbroken : d.sinkBroken = c.sinkBroken) : Spends 0 c d :=
  fun _ => ⟨by simp [headroom, hsize, hrem], hbroken⟩

theorem Spends.trans {k m : Nat} {c d e : Coder} (h : Spends k c d) (h' : Spends m d e) : Spends (k + m) c e := by
  intro hroom
  obtain ⟨hhead, hbroken⟩ := h (by omega)
  obtain ⟨hhead', hbroken'⟩ := h' (by omega)
  exact ⟨by omega, hbroken'.trans hbroken⟩

theorem spends_shiftLow {c : Coder} (hsize : 1 ≤ c.rcCacheSize) : Spends 1 c (shiftLow c) := by
  intro hroom
  have hfit : c.rcCacheSize ≤ c.sinkRem := by rw [headroom] at hroom; omega
  refine ⟨headroom_shiftLow c hsize hfit, ?_⟩
  rw [shiftLow_sinkBroken, decide_eq_false (by omega), Bool.and_false, Bool.or_false]

theorem spends_iterate_shiftLow (k : Nat) {c : Coder} (h : HoldsCarry c) : Spends k c (shiftLow^[k] c) := by
  induction k generalizing c with
  | zero => exact .of_sameSink rfl rfl rfl
  | succ k ih =>
    rw [Function.iterate_succ_apply, Nat.add_comm]
    exact (spends_shiftLow h.cacheSize).trans (ih h.shiftLow)

/-- A flush that the sink has room for drops no byte (43_range_coder.md R119). -/
theorem rcFlushBody_sinkBroken {c : Coder} (h : CoderInv c) (hroom : flushCost c ≤ c.sinkRem) :
    (rcFlushBody c).sinkBroken = c.sinkBroken := by
  have hfive : rcFlushBody c = rcInit (shiftLow^[5] c) := rfl
  have hhead : 0 ≤ headroom c := by rw [flushCost] at hroom; rw [headroom]; omega
  rw [hfive, rcInit_sinkBroken]
  exact (spends_iterate_shiftLow 5 h.holdsCarry (by omega)).2

/-! ## What decisions cost (95_test_vectors.md section 5, steps 1 to 4) -/

/-- With `k` ShiftLows the range has gone from that of `c` to that of `d`, and lost at most `n` fortieths of a bit. -/
def Codes (n : Nat) (c d : Coder) : Prop :=
  ∃ k, Spends k c d ∧ (c.rcRange.toNat * 256 ^ k) ^ 40 ≤ d.rcRange.toNat ^ 40 * 2 ^ n

theorem Codes.trans {n m : Nat} {c d e : Coder} (h : Codes n c d) (h' : Codes m d e) : Codes (n + m) c e := by
  obtain ⟨k, hspends, hrange⟩ := h
  obtain ⟨l, hspends', hrange'⟩ := h'
  refine ⟨k + l, hspends.trans hspends', ?_⟩
  calc (c.rcRange.toNat * 256 ^ (k + l)) ^ 40
      = (c.rcRange.toNat * 256 ^ k) ^ 40 * (256 ^ l) ^ 40 := by rw [pow_add, ← mul_assoc, mul_pow]
    _ ≤ d.rcRange.toNat ^ 40 * 2 ^ n * (256 ^ l) ^ 40 := Nat.mul_le_mul_right _ hrange
    _ = (d.rcRange.toNat * 256 ^ l) ^ 40 * 2 ^ n := by rw [mul_pow]; ring
    _ ≤ e.rcRange.toNat ^ 40 * 2 ^ m * 2 ^ n := Nat.mul_le_mul_right _ hrange'
    _ = e.rcRange.toNat ^ 40 * 2 ^ (n + m) := by rw [pow_add]; ring

/-- Normalize costs nothing, since each of its ShiftLows moves the range up a whole byte: a decision costs what its
interval step from `c` to `d` does. -/
theorem Codes.normalize {n : Nat} {c d : Coder} (fuel : Nat) (hcache : 1 ≤ c.rcCacheSize)
    (hsize : d.rcCacheSize = c.rcCacheSize) (hrem : d.sinkRem = c.sinkRem) (hbroken : d.sinkBroken = c.sinkBroken)
    (hrange : 65536 ≤ d.rcRange.toNat) (hloses : c.rcRange.toNat ^ 40 ≤ d.rcRange.toNat ^ 40 * 2 ^ n) :
    Codes n c (normalize (fuel + 1) d) := by
  have hstep : Spends 0 c d := .of_sameSink hsize hrem hbroken
  by_cases htop : d.rcRange.toNat < Config.top
  · have hshift : Spends 0 c { d with rcRange := rangeShifted d.rcRange } := .of_sameSink hsize hrem hbroken
    rw [normalize_one fuel hrange htop]
    refine ⟨0 + 1, hshift.trans (spends_shiftLow (hsize ▸ hcache)), ?_⟩
    rw [shiftLow_rcRange, rangeShifted_toNat htop, mul_pow, mul_pow, Nat.mul_right_comm]
    exact Nat.mul_le_mul_right _ hloses
  · rw [normalize_of_top_le _ (Nat.not_lt.1 htop)]
    exact ⟨0, hstep, by rwa [pow_zero, mul_one]⟩

/-- A range that shrinks by at most the ratio `a / b` loses no more bits than that ratio does. -/
theorem pow_forty_le_of_ratio {r r' a b n : Nat} (ha : 0 < a) (hratio : r * a ≤ r' * b)
    (hcost : b ^ 40 ≤ a ^ 40 * 2 ^ n) : r ^ 40 ≤ r' ^ 40 * 2 ^ n := by
  refine Nat.le_of_mul_le_mul_right ?_ (pow_pos ha 40)
  calc r ^ 40 * a ^ 40 = (r * a) ^ 40 := (mul_pow ..).symm
    _ ≤ (r' * b) ^ 40 := Nat.pow_le_pow_left hratio 40
    _ = r' ^ 40 * b ^ 40 := mul_pow ..
    _ ≤ r' ^ 40 * (a ^ 40 * 2 ^ n) := Nat.mul_le_mul_left _ hcost
    _ = r' ^ 40 * 2 ^ n * a ^ 40 := by ring

/-- What a decision costs at most, in fortieths of a bit: no cell leaves less than 31 of 2048 to either bit. -/
def Decision.cost : Decision → Nat
  | .adaptive _ _ => 242
  | .direct _ => 41

/-- What decisions cost at most, in fortieths of a bit. -/
def codingCost (ds : List Decision) : Nat := (ds.map Decision.cost).sum

theorem le_narrow_rcRange {c : Coder} {p : Prob} (b : Bool) (hp : probInRange p = true) :
    c.rcRange.toNat / 2048 * 31 ≤ (narrow (probBound c p) b c).rcRange.toNat := by
  simp only [probInRange, Bool.and_eq_true, decide_eq_true_eq] at hp
  have hlo : c.rcRange.toNat / 2048 * 31 ≤ probBound c p := Nat.mul_le_mul_left _ hp.1
  have hhi : probBound c p ≤ c.rcRange.toNat / 2048 * 2017 := Nat.mul_le_mul_left _ hp.2
  rw [narrow_rcRange_toNat b (by omega)]
  split <;> omega

theorem codes_encBit {c : Coder} (h : CoderInv c) (a : Nat) (b : Bool) : Codes 242 c (encBit a b c) := by
  have htop : 16777216 ≤ c.rcRange.toNat := h.range
  have hp := ((coderInv_iff c).1 h).2.1.read_inRange a
  have hnarrow := le_narrow_rcRange (c := c) b hp
  have hsame := narrow_eq b (probBound c (c.probs.read a)) c
  refine Codes.normalize 3 h.cacheSize (by rw [hsame]) (by rw [hsame]) (by rw [hsame]) ?_ ?_
  · simp only
    omega
  · exact pow_forty_le_of_ratio (a := 31 * 8191) (b := 2 ^ 24) (by norm_num) (by simp only; omega) (by norm_num)

theorem codes_encDirectBit {c : Coder} (h : CoderInv c) (b : Bool) : Codes 41 c (encDirectBit b c) := by
  have htop : 16777216 ≤ c.rcRange.toNat := h.range
  have hhalf : (BitVec.ofNat 32 (c.rcRange.toNat / 2)).toNat = c.rcRange.toNat / 2 := Nat.mod_eq_of_lt (by omega)
  refine Codes.normalize 3 h.cacheSize rfl rfl rfl ?_ ?_ <;> simp only [hhalf]
  · omega
  · exact pow_forty_le_of_ratio (a := 2 ^ 24 - 1) (b := 2 ^ 25) (by norm_num) (by omega) (by norm_num)

theorem codes_codeOne {c : Coder} (h : CoderInv c) (d : Decision) : Codes d.cost c (codeOne c d) := by
  cases d with
  | adaptive cell b => exact codes_encBit h cell.addr b
  | direct b => exact codes_encDirectBit h b

theorem codes_codeAll {c : Coder} (h : CoderInv c) (ds : List Decision) : Codes (codingCost ds) c (codeAll ds c) := by
  induction ds generalizing c with
  | nil => exact ⟨0, .of_sameSink rfl rfl rfl, by simp [codeAll, codingCost]⟩
  | cons d ds ih => exact (codes_codeOne h d).trans (ih (h.codeOne d))

/-- `k` ShiftLows cost more than `k - 1` bytes: the range, between 2^24 and 2^32, gains less than one byte itself. -/
theorem Codes.exists_spends {n m : Nat} {c d : Coder} (h : Codes n c d) (htop : 2 ^ 24 ≤ c.rcRange.toNat)
    (hn : n ≤ 320 * m) : ∃ k ≤ m, Spends k c d := by
  obtain ⟨k, hspends, hrange⟩ := h
  have hlt : 2 ^ (960 + 320 * k) < 2 ^ (1280 + n) := by
    calc 2 ^ (960 + 320 * k) = (2 ^ 24 * 256 ^ k) ^ 40 := by
          rw [show (256 : Nat) = 2 ^ 8 by norm_num, ← pow_mul, ← pow_add, ← pow_mul]; congr 1; omega
      _ ≤ (c.rcRange.toNat * 256 ^ k) ^ 40 := Nat.pow_le_pow_left (Nat.mul_le_mul_right _ htop) 40
      _ ≤ d.rcRange.toNat ^ 40 * 2 ^ n := hrange
      _ < (2 ^ 32) ^ 40 * 2 ^ n :=
        Nat.mul_lt_mul_of_pos_right (Nat.pow_lt_pow_left d.rcRange.isLt (by norm_num)) (by positivity)
      _ = 2 ^ (1280 + n) := by rw [← pow_mul, ← pow_add]
  have hexp := (Nat.pow_lt_pow_iff_right (by norm_num)).1 hlt
  exact ⟨k, by omega, hspends⟩

/-- Decisions that cost at most `m` bytes fit a HEADROOM of `m`, and leave the rest of it. -/
theorem CoderInv.codeAll_fits {c : Coder} (h : CoderInv c) {ds : List Decision} {m : Nat}
    (hcost : codingCost ds ≤ 320 * m) (hm : (m : Int) ≤ headroom c) :
    (Machine.codeAll ds c).sinkBroken = c.sinkBroken ∧ headroom c - m ≤ headroom (Machine.codeAll ds c) := by
  obtain ⟨k, hk, hspends⟩ := (codes_codeAll h ds).exists_spends h.range hcost
  obtain ⟨hhead, hbroken⟩ := hspends (by omega)
  exact ⟨hbroken, by omega⟩

/-! ## What a packet costs (95_test_vectors.md section 5, step 5) -/

@[simp] theorem codingCost_cons (d : Decision) (ds : List Decision) :
    codingCost (d :: ds) = d.cost + codingCost ds := rfl

@[simp] theorem codingCost_nil : codingCost [] = 0 := rfl

@[simp] theorem codingCost_append (ds es : List Decision) : codingCost (ds ++ es) = codingCost ds + codingCost es := by
  simp [codingCost]

@[simp] theorem codingCost_treeDecisions (cell : Nat → ProbCell) (m : Nat) (bits : List Bool) :
    codingCost (treeDecisions cell m bits) = 242 * bits.length := by
  induction bits generalizing m with
  | nil => rfl
  | cons b bs ih => rw [treeDecisions, codingCost_cons, ih, Decision.cost, List.length_cons]; omega

@[simp] theorem codingCost_treeMsb (cell : Nat → ProbCell) (n v : Nat) : codingCost (treeMsb cell n v) = 242 * n := by
  rw [treeMsb, codingCost_treeDecisions, bitsMsb_length]

@[simp] theorem codingCost_treeLsb (cell : Nat → ProbCell) (n v : Nat) : codingCost (treeLsb cell n v) = 242 * n := by
  rw [treeLsb, codingCost_treeDecisions, bitsLsb_length]

@[simp] theorem codingCost_directMsb (n v : Nat) : codingCost (directMsb n v) = 41 * n := by
  rw [directMsb]
  induction n with
  | zero => rfl
  | succ n ih => rw [bitsMsb, List.map_cons, codingCost_cons, ih, Decision.cost]; omega

theorem codingCost_literalDecisions (k : Context) (x : Byte) : codingCost (literalDecisions k x) = 242 * 8 := by
  rw [literalDecisions_eq_map]
  simp [codingCost, Function.comp_def, literalDecisionAt, Decision.cost]

theorem codingCost_lenDecisions_le (c : LenCoder) (len ps : Nat) : codingCost (lenDecisions c len ps) ≤ 242 * 10 := by
  unfold lenDecisions
  split
  · simp [Decision.cost]
  · split <;> simp [Decision.cost]

/-- The worst slot is 63: its six bits, 26 direct bits and the four of ALIGN. -/
theorem codingCost_distDecisions_le {d0 : Nat} (h : d0 < 2 ^ 32) (len : Nat) :
    codingCost (distDecisions d0 len) ≤ 242 * 10 + 41 * 26 := by
  have hslot := distSlot_lt h
  rw [distDecisions, codingCost_append, codingCost_treeMsb]
  unfold distTailDecisions
  split
  · simp
  · split <;> simp [slotFooterBits] <;> omega

theorem codingCost_headDecisions_le (k : Context) (p : Packet) : codingCost (headDecisions k p) ≤ 242 * 5 := by
  unfold headDecisions
  split <;> simp [Decision.cost]

/-- The end marker, whose length code is a short one, costs no more than 16 bytes. -/
theorem codingCost_eos_le (k : Context) : codingCost (packetDecisions k .eos) ≤ 320 * 16 := by
  have hdist := codingCost_distDecisions_le Config.eosDistance.isLt 2
  obtain ⟨hshort, -, -⟩ := lenDecisions_cases .len 2 k.ps
  simp only [packetDecisions, headDecisions, tailDecisions, hshort (by norm_num), codingCost_cons, codingCost_nil,
    codingCost_append, codingCost_treeMsb, Decision.cost]
  omega

/-- No packet costs more than 20 bytes, whatever its fields are. -/
theorem codingCost_packetDecisions_le (k : Context) (p : Packet) : codingCost (packetDecisions k p) ≤ 320 * 20 := by
  have hhead := codingCost_headDecisions_le k p
  rw [packetDecisions, codingCost_append]
  cases p with
  | lit x => rw [tailDecisions, codingCost_literalDecisions]; omega
  | simpleMatch d0 len =>
    have hlen := codingCost_lenDecisions_le .len len k.ps
    have hdist := codingCost_distDecisions_le d0.isLt len
    simp only [headDecisions, tailDecisions, codingCost_cons, codingCost_nil, codingCost_append, Decision.cost]
    omega
  | shortRep => rw [tailDecisions, codingCost_nil]; omega
  | longRep g len =>
    have hlen := codingCost_lenDecisions_le .repLen len k.ps
    rw [tailDecisions]
    omega
  | eos =>
    have heos := codingCost_eos_le k
    rw [packetDecisions, codingCost_append] at heos
    omega

/-! ## A machine with safe margins (44_lzma_model.md R138, 60_exceptions.md R157) -/

/-- The sink is whole, and the margins cover the worst case of an operation and of the end marker. -/
structure SafeMargins (s : State) : Prop where
  coder     : CoderInv s.coder
  whole     : s.coder.sinkBroken = false
  opMargin  : 20 ≤ s.cfg.opMargin.toNat
  eosMargin : 16 ≤ s.cfg.eosMargin.toNat

section
variable {s : State}

theorem SafeMargins.congr {t : State} (h : SafeMargins s) (hcoder : t.coder = s.coder) (hcfg : t.cfg = s.cfg) :
    SafeMargins t :=
  ⟨hcoder ▸ h.coder, hcoder ▸ h.whole, hcfg ▸ h.opMargin, hcfg ▸ h.eosMargin⟩

theorem SafeMargins.headroom_of_marginOk (h : SafeMargins s) (hm : marginOk s = true) : 20 ≤ headroom s.coder := by
  have hneed := (marginOk_iff s).1 hm
  have hop := h.opMargin
  split at hneed <;> omega

/-- A packet for which HEADROOM is enough takes no more than it costs. -/
theorem SafeMargins.coded (h : SafeMargins s) {p : Packet} {m : Nat}
    (hcost : codingCost (packetDecisions (contextOf s) p) ≤ 320 * m) (hm : (m : Int) ≤ headroom s.coder) :
    SafeMargins (codePacket p s) ∧ headroom s.coder - m ≤ headroom (codePacket p s).coder := by
  obtain ⟨hbroken, hhead⟩ := h.coder.codeAll_fits hcost hm
  exact ⟨⟨h.coder.codeAll _, hbroken.trans h.whole, h.opMargin, h.eosMargin⟩, hhead⟩

theorem SafeMargins.codePacket (h : SafeMargins s) (hm : marginOk s = true) (p : Packet) :
    SafeMargins (codePacket p s) ∧ headroom s.coder - 20 ≤ headroom (codePacket p s).coder :=
  h.coded (codingCost_packetDecisions_le _ p) (h.headroom_of_marginOk hm)

theorem SafeMargins.codeEos (h : SafeMargins s) (hm : eosMarginOk s = true) :
    SafeMargins (Machine.codePacket .eos s) := by
  have heos := h.eosMargin
  have hroom := (eosMarginOk_iff s).1 hm
  exact (h.coded (codingCost_eos_le _) (by omega)).1

theorem SafeMargins.flush (h : SafeMargins s) (hroom : flushCost s.coder ≤ s.coder.sinkRem) :
    SafeMargins { s with coder := rcFlushBody s.coder } :=
  ⟨h.coder.rcFlushBody, (rcFlushBody_sinkBroken h.coder hroom).trans h.whole, h.opMargin, h.eosMargin⟩

/-! ## The compress loop (45_control.md R144, R145) -/

theorem SafeMargins.loopTurn (h : SafeMargins s) (hm : marginOk s = true) (T : HashTable) (P : Policy) :
    SafeMargins (loopTurn T P s) := by
  have hhead : SafeMargins (indexHead T s) := h.congr (indexHead_coder s T) (indexHead_cfg s T)
  have hok : marginOk (indexHead T s) = true := by rwa [marginOk, indexHead_coder, indexHead_cfg]
  unfold Machine.loopTurn codeOp
  split <;> exact (hhead.codePacket hok _).1.congr (skipBody_coder ..) (consumes_skipBody ..).cfg

theorem SafeMargins.compressLoop (h : SafeMargins s) (T : HashTable) (P : Policy) (all : Bool)
    (maxOps fuel ops : Nat) : SafeMargins (compressLoop T P all maxOps fuel ops s).state := by
  induction fuel generalizing ops s with
  | zero => exact h
  | succ n ih =>
    unfold Machine.compressLoop
    split
    · split
      · next hm =>
        split
        · exact h.loopTurn hm T P
        · exact ih (h.loopTurn hm T P) (ops + 1)
      · exact h
    · exact h

theorem SafeMargins.closeTail {e : LoopEnd} (h : SafeMargins e.state) : SafeMargins (closeTail e).state := by
  have hmark : SafeMargins (closeEos e).state := by
    unfold closeEos
    split
    · split
      · next hm => exact h.codeEos hm
      · exact h
    · exact h
  unfold Machine.closeTail
  split
  · exact h
  · unfold closeFlush
    split
    · next hroom => exact hmark.flush hroom
    · exact hmark

/-! ## Commands -/

/-- A command of R151 step 7 whose own rule leaves the sink whole leaves it whole. -/
theorem whole_of_runCommon {c : Checks} {body : State → State} {t : State} (hs : s.coder.sinkBroken = false)
    (hb : (body s).coder.sinkBroken = false) (h : runCommon c body s = .next t) : t.coder.sinkBroken = false := by
  rcases runCommon_cases c body s with ⟨st, -, he⟩ | ⟨-, he⟩ <;>
    obtain rfl := Host.Outcome.next.inj (he.symm.trans h)
  · exact hs
  · exact hb

theorem SafeMargins.whole_of_init {t : State} (h : SafeMargins s) (hexec : exec .init s = .next t) :
    t.coder.sinkBroken = false := by
  rcases runs_of_exec hexec with ha | ⟨u, he, ha⟩
  · exact ha.coder_eq ▸ h.whole
  · rw [ha.coder_eq]
    cases he with
    | init => rfl
    | packet hp => cases hp

/-- SINK_OPEN starts a whole sink. -/
theorem SafeMargins.whole_sinkOpenBody (h : SafeMargins s) (limit : Word64) :
    (sinkOpenBody limit s).coder.sinkBroken = false := by
  unfold sinkOpenBody
  split
  · rw [raiseFatal_coder]
    exact h.whole
  · rfl

theorem SafeMargins.whole_encEosBody (h : SafeMargins s) : (encEosBody s).coder.sinkBroken = false := by
  unfold encEosBody
  split
  · next hm => exact (h.codeEos hm).whole
  · exact h.whole

theorem SafeMargins.whole_rcFlushRule (h : SafeMargins s) : (rcFlushRule s).coder.sinkBroken = false := by
  unfold rcFlushRule
  split
  · exact h.whole
  · next hroom => exact (h.flush (Nat.not_lt.1 hroom)).whole

/-- COPYN emits only what the sink has room for (40_dictionary.md R86). -/
theorem SafeMargins.whole_copyNBody (h : SafeMargins s) (n : Word32) : (copyNBody n s).coder.sinkBroken = false := by
  unfold copyNBody
  split
  · exact h.whole
  · next hroom =>
    rw [respond_coder, emitAll_sinkBroken, h.whole, copyBytes, ringSeg_length, decide_eq_false hroom, Bool.or_false]

/-- The sink is whole after an encode command, and one that has answered OK leaves room for the end marker, where the
session asks for one, and for the flush. -/
def LeavesRoom (s t : State) : Prop :=
  t.coder.sinkBroken = false ∧ (t.lastStatus = .ok →
    (if s.cfg.eos.toNat = 1 then (s.cfg.eosMargin.toNat : Int) else 0) ≤ headroom t.coder)

/-- An answer other than OK that leaves the coder. -/
theorem SafeMargins.leavesRoom_of_not_ok {t : State} (h : SafeMargins s) (hcoder : t.coder = s.coder)
    (hst : t.lastStatus ≠ .ok) : LeavesRoom s t :=
  ⟨hcoder ▸ h.whole, fun hok => absurd hok hst⟩

/-- A packet coded after MarginCheck. -/
theorem SafeMargins.leavesRoom_of_coded {t : State} (h : SafeMargins s) (hm : marginOk s = true) (p : Packet)
    (hcoder : t.coder = (Machine.codePacket p s).coder) : LeavesRoom s t := by
  obtain ⟨hsafe, hhead⟩ := h.codePacket hm p
  have hneed := (marginOk_iff s).1 hm
  have hop := h.opMargin
  rw [LeavesRoom, hcoder]
  exact ⟨hsafe.whole, fun _ => by omega⟩

theorem commonCheck_ne_ok (c : Checks) (s : State) : commonCheck c s ≠ some .ok := by
  unfold commonCheck
  split_ifs <;> simp

theorem SafeMargins.leavesRoom_of_runCommon {c : Checks} {body : State → State} {t : State} (h : SafeMargins s)
    (hb : LeavesRoom s (body s)) (hrun : runCommon c body s = .next t) : LeavesRoom s t := by
  rcases runCommon_cases c body s with ⟨st, hst, he⟩ | ⟨-, he⟩ <;>
    obtain rfl := Host.Outcome.next.inj (he.symm.trans hrun)
  · exact h.leavesRoom_of_not_ok rfl fun hok => commonCheck_ne_ok c s (hst.trans (congrArg some hok))
  · exact hb

theorem SafeMargins.leavesRoom_encLitBody (h : SafeMargins s) : LeavesRoom s (encLitBody s) := by
  unfold encLitBody
  split
  · exact h.leavesRoom_of_not_ok (raiseFatal_coder ..) (by simp)
  · split
    · next hm => exact h.leavesRoom_of_coded hm _ rfl
    · exact h.leavesRoom_of_not_ok rfl (by simp)

theorem SafeMargins.leavesRoom_encMatchBody (h : SafeMargins s) (d : Word64) (len : Word32) :
    LeavesRoom s (encMatchBody d len s) := by
  unfold encMatchBody
  split
  · split
    · next hm => exact h.leavesRoom_of_coded hm _ rfl
    · exact h.leavesRoom_of_not_ok rfl (by simp)
  · exact h.leavesRoom_of_not_ok (raiseFatal_coder ..) (by simp)

end

/-- Settles O54: a decision costs at most 6.05 bits and a direct bit 1.025, so no packet takes more than 20 ShiftLows
and the end marker no more than 16; what the margins reserve beyond that is left. -/
theorem safeMarginsNeverOverflow : Obligations.SafeMarginsNeverOverflow := by
  intro i s t hinv hi hop heos hwhole hexec
  have h : SafeMargins s := ⟨hinv.coder, hwhole, hop, heos⟩
  cases i with
  | encLit =>
    obtain ⟨hsink, hroom⟩ := h.leavesRoom_of_runCommon h.leavesRoom_encLitBody hexec
    exact ⟨hsink, fun _ => hroom⟩
  | encMatch d len =>
    obtain ⟨hsink, hroom⟩ := h.leavesRoom_of_runCommon (h.leavesRoom_encMatchBody d len) hexec
    exact ⟨hsink, fun _ => hroom⟩
  | init => exact ⟨h.whole_of_init hexec, by simp⟩
  | sinkOpen limit => exact ⟨whole_of_runCommon hwhole (h.whole_sinkOpenBody limit) hexec, by simp⟩
  | copyN n => exact ⟨whole_of_runCommon hwhole (h.whole_copyNBody n) hexec, by simp⟩
  | encEos => exact ⟨whole_of_runCommon hwhole h.whole_encEosBody hexec, by simp⟩
  | rcFlush => exact ⟨whole_of_runCommon hwhole h.whole_rcFlushRule hexec, by simp⟩
  | compress all n => exact ⟨whole_of_runCommon hwhole (h.compressLoop _ _ all _ _ 0).whole hexec, by simp⟩
  | close => exact ⟨whole_of_runCommon hwhole (h.compressLoop _ _ true 0 _ 0).closeTail.whole hexec, by simp⟩
  | regRead | regWrite | write | byteAt | segment | matchLen | discard | hash | find | skip =>
    exact ⟨(runs_of_exec hexec).respects.coder (by simp) hi ▸ hwhole, by simp⟩
  | pktLit | pktMatch | pktShortRep | pktLongRep0 | pktLongRep1 | pktLongRep2 | pktLongRep3 | pktEos => contradiction

end Sys2Proof.Machine

/-! # The control commands (45_control.md R139 to R145) -/

namespace Sys2Proof.Machine

/-! ## INIT (R139, R140) -/

/-- INIT's validation as R139 states it. -/
theorem Cfg.legal_iff (c : Cfg) : c.legal = true ↔
    c.mf.toNat = 0 ∧ 1 ≤ c.dictCap.toNat ∧ 273 ≤ c.laCap.toNat
      ∧ c.dictCap.toNat + c.laCap.toNat ≤ 2 ^ 32 - 1 ∧ c.lc.toNat + c.lp.toNat ≤ 4 ∧ c.pb.toNat ≤ 4
      ∧ c.wordLen.toNat ∈ [2, 3, 4] ∧ 2 ≤ c.niceLen.toNat ∧ c.niceLen.toNat ≤ 273
      ∧ 1 ≤ c.depth.toNat ∧ c.depth.toNat ≤ 2 ^ 32 - 1 ∧ c.eos.toNat ∈ [0, 1]
      ∧ c.opMargin.toNat ≤ 2 ^ 63 - 1 ∧ c.eosMargin.toNat ≤ 2 ^ 63 - 1 := by
  have heos : c.eos.toNat ≤ 1 ↔ c.eos.toNat ∈ [0, 1] := by
    simp only [List.mem_cons, List.not_mem_nil, or_false]
    omega
  rw [← heos]
  simp only [Cfg.legal, Bool.and_eq_true, Bool.or_eq_true, decide_eq_true_eq, beq_iff_eq, and_assoc, or_assoc,
    List.mem_cons, List.not_mem_nil, or_false]
  exact Iff.rfl

theorem exec_init_of_not_faulted {s : State} (h : s.faulted = false) : exec .init s = .next (initBody s) :=
  runEarly_of_not_faulted initBody h

/-- Settles O16: R139's checks are `Cfg.legal`, and R140's values are those that `startSession` writes. -/
theorem initStartsASession : Obligations.InitStartsASession := by
  intro s ok hfault hok
  rw [← Cfg.legal_iff] at hok
  rw [exec_init_of_not_faulted hfault, initBody]
  refine ⟨fun hbad => by rw [if_neg (hok.not.1 hbad)], fun hgood => ⟨_, by rw [if_pos (hok.1 hgood)], ?_⟩⟩
  exact ⟨rfl, rfl, rfl, rfl, rfl, rfl, rfl, rfl, rfl, rfl, rfl, fun _ => rfl, rfl, rfl, rfl, rfl, rfl, rfl, rfl, rfl,
    rfl, hfault, rfl, rfl, rfl, rfl, rfl⟩

/-! ## REG_WRITE (R142) -/

/-- The twelve configuration fields in register order (10_state.md R17). -/
def Cfg.fields (c : Cfg) : List Word64 :=
  [c.dictCap, c.laCap, c.lc, c.lp, c.pb, c.mf, c.wordLen, c.niceLen, c.depth, c.eos, c.opMargin, c.eosMargin]

theorem Cfg.get_eq_fields (c : Cfg) : ∀ n, c.get n = c.fields.getD n 0
  | 0 | 1 | 2 | 3 | 4 | 5 | 6 | 7 | 8 | 9 | 10 | 11 | _ + 12 => rfl

theorem Cfg.fields_set (c : Cfg) (v : Word64) : ∀ n, (c.set n v).fields = c.fields.set n v
  | 0 | 1 | 2 | 3 | 4 | 5 | 6 | 7 | 8 | 9 | 10 | 11 | _ + 12 => rfl

theorem Cfg.get_set_same (c : Cfg) (v : Word64) {n : Nat} (h : n ≤ 11) : (c.set n v).get n = v := by
  have hn : n < c.fields.length := Nat.lt_succ_of_le h
  rw [Cfg.get_eq_fields, Cfg.fields_set, List.getD_eq_getElem?_getD, List.getElem?_set_self hn, Option.getD_some]

theorem Cfg.get_set_other (c : Cfg) (v : Word64) {n m : Nat} (h : n ≠ m) : (c.set n v).get m = c.get m := by
  rw [Cfg.get_eq_fields, Cfg.get_eq_fields, Cfg.fields_set, List.getD_eq_getElem?_getD, List.getElem?_set_ne h,
    List.getD_eq_getElem?_getD]

theorem regWritable_iff (r : Byte) : regWritable r = true ↔ r.toNat ≤ 0x0B := decide_eq_true_iff

theorem regValue_pending {r : Byte} (h : r.toNat ≤ 0x0B) (s : State) : regValue s r = s.cfgPending.get r.toNat :=
  if_pos h

/-- Settles O19: the register is a place in the list of fields, and a list's places do not touch each other. -/
theorem regWriteStores : Obligations.RegWriteStores := by
  intro s r v hfault
  have hexec : exec (.regWrite r v) s = .next (regWriteBody r v s) := runEarly_of_not_faulted _ hfault
  rw [hexec, regWriteBody]
  refine ⟨fun hr => ⟨_, by rw [if_pos ((regWritable_iff r).2 hr)], rfl, ?_, fun q hq hne => ?_⟩, fun hr => ?_⟩
  · rw [regValue_pending hr]
    exact Cfg.get_set_same s.cfgPending v hr
  · rw [regValue_pending hq, regValue_pending hq]
    exact Cfg.get_set_other s.cfgPending v fun heq => hne (BitVec.eq_of_toNat_eq heq.symm)
  · rw [if_neg ((regWritable_iff r).not.2 (Nat.not_le.2 hr))]

end Sys2Proof.Machine

/-! # The compress loop (45_control.md R143, R144) -/

namespace Sys2Proof.Machine

/-! ## The operation of a turn (R143) -/

/-- The bytes an operation codes: those of its match, or the literal's one. -/
def opLen (op : Option (Nat × Nat)) : Nat := op.elim 1 Prod.snd

/-- The coding of an operation, before its bytes are skipped (44_lzma_model.md R134, R135). -/
def opCore (op : Option (Nat × Nat)) (s : State) : State :=
  op.elim (encLitCore s) fun m => encMatchCore m.1 m.2 s

theorem codeOp_eq (T : HashTable) (op : Option (Nat × Nat)) (s : State) :
    codeOp T op s = skipBody T (opLen op) (opCore op s) := by
  cases op <;> rfl

section
variable (T : HashTable) (s : State)

/-- The operation that a turn codes from `s`. -/
def turnOp (P : Policy) : Option (Nat × Nat) := chooseOp P (findList T s) (indexHead T s)

theorem loopTurn_eq (P : Policy) :
    loopTurn T P s = skipBody T (opLen (turnOp T s P)) (opCore (turnOp T s P) (indexHead T s)) :=
  codeOp_eq T (turnOp T s P) (indexHead T s)

/-- Indexing the head changes nothing that R135's checks read. -/
theorem matchOk_indexHead (d : Int) (len : Nat) : matchOk (indexHead T s) d len = matchOk s d len :=
  matchOk_congr (indexHead_ring ..) (indexHead_cfg ..) (indexHead_H ..) (indexHead_B ..) (indexHead_rep ..) d len

/-- A turn's match is POLICY's, which R135's checks admit, or one of FIND's list. -/
theorem turnOp_cases {P : Policy} {m : Nat × Nat} (h : turnOp T s P = some m) :
    matchOk s m.1 m.2 = true ∨ m ∈ findList T s := by
  obtain ⟨hlit, hmatch⟩ := chooseOp_eq P (findList T s) (indexHead T s)
  cases hP : P (findList T s) with
  | none => cases (hlit hP).symm.trans h
  | some a =>
    obtain ⟨hgood, hbad⟩ := hmatch a hP
    cases hok : matchOk (indexHead T s) a.1 a.2 with
    | true =>
      obtain rfl := Option.some.inj ((hgood hok).symm.trans h)
      exact .inl (matchOk_indexHead T s _ _ ▸ hok)
    | false => exact .inr (List.mem_of_getLast? ((hbad hok).symm.trans h))

theorem opLen_turnOp_pos (P : Policy) : 1 ≤ opLen (turnOp T s P) := by
  cases hop : turnOp T s P with
  | none => exact Nat.le_refl 1
  | some m =>
    rcases turnOp_cases T s hop with hok | hmem
    · obtain ⟨hformat, -⟩ := (matchOk_iff s m.1 m.2).1 hok
      change 1 ≤ m.2
      omega
    · exact ((search_kept T s).bounds m hmem).1.le

theorem opLen_turnOp_le (P : Policy) (hB : 1 ≤ s.B) : opLen (turnOp T s P) ≤ s.B := by
  cases hop : turnOp T s P with
  | none => exact hB
  | some m => exact chooseOp_len_le T s P hop

/-! ## One turn (R144) -/

@[simp] theorem skipBody_H (n : Nat) : (skipBody T n s).H = s.H + min n s.B := by
  obtain ⟨ix, b, heq, -, -⟩ := skipBody_spec T s n
  rw [heq, advance_H]

@[simp] theorem skipBody_B (n : Nat) : (skipBody T n s).B = s.B - min n s.B := by
  obtain ⟨ix, b, heq, -, -⟩ := skipBody_spec T s n
  rw [heq, advance_B]

@[simp] theorem skipBody_pend (n : Nat) : (skipBody T n s).pend = s.pend - min n s.B := by
  obtain ⟨ix, b, heq, -, -⟩ := skipBody_spec T s n
  rw [heq, advance_pend]

@[simp] theorem opCore_H (op : Option (Nat × Nat)) : (opCore op s).H = s.H := by cases op <;> rfl
@[simp] theorem opCore_B (op : Option (Nat × Nat)) : (opCore op s).B = s.B := by cases op <;> rfl
@[simp] theorem opCore_faulted (op : Option (Nat × Nat)) : (opCore op s).faulted = s.faulted := by cases op <;> rfl
@[simp] theorem opCore_initDone (op : Option (Nat × Nat)) : (opCore op s).initDone = s.initDone := by cases op <;> rfl
@[simp] theorem opCore_pend (op : Option (Nat × Nat)) : (opCore op s).pend = opLen op := by cases op <;> rfl

/-- A turn with look-ahead left moves the bytes of its operation into history, and leaves none pending. -/
theorem loopTurn_moves (P : Policy) (hB : 1 ≤ s.B) :
    (loopTurn T P s).H = s.H + opLen (turnOp T s P) ∧ (loopTurn T P s).B = s.B - opLen (turnOp T s P)
      ∧ (loopTurn T P s).pend = 0 := by
  have hle := opLen_turnOp_le T s P hB
  rw [loopTurn_eq]
  simp [Nat.min_eq_left hle]

end

/-! ## The loop (R144) -/

theorem loopGoes_iff (all : Bool) (maxOps ops : Nat) (s : State) : loopGoes all maxOps ops s = true ↔
    (if all then 1 else 273) ≤ s.B ∧ (maxOps = 0 ∨ ops < maxOps) := by
  simp only [loopGoes, Bool.and_eq_true, Bool.or_eq_true, decide_eq_true_eq]
  exact Iff.rfl

theorem one_le_B_of_loopGoes {all : Bool} {maxOps ops : Nat} {s : State} (h : loopGoes all maxOps ops s = true) :
    1 ≤ s.B := by
  obtain ⟨hB, -⟩ := (loopGoes_iff ..).1 h
  split at hB <;> omega

section
variable (T : HashTable) (P : Policy) (all : Bool) (maxOps : Nat)

/-- The loop goes on for a turn from `s` after `ops` operations, the sink being whole. -/
structure TurnBegins (ops : Nat) (s : State) : Prop where
  goes   : loopGoes all maxOps ops s = true
  margin : marginOk s = true
  whole  : s.coder.sinkBroken = false

/-- Why the loop ends in `s` after `ops` operations. -/
inductive LoopStops (ops : Nat) (s : State) : Status → Prop
  | done (hgo : loopGoes all maxOps ops s = false) (hs : s.coder.sinkBroken = false) : LoopStops ops s .ok
  | margin (hgo : loopGoes all maxOps ops s = true) (hm : marginOk s = false) (hs : s.coder.sinkBroken = false) :
    LoopStops ops s .limit
  | broken (hops : 0 < ops) (hs : s.coder.sinkBroken = true) : LoopStops ops s .sinkOverflow

/-- From `s`, after `ops` operations, the loop runs `k` turns and ends with `st`. -/
structure RunsTurns (ops : Nat) (s : State) (k : Nat) (st : Status) : Prop where
  bound : k ≤ s.B
  turns : ∀ j < k, TurnBegins all maxOps (ops + j) ((loopTurn T P)^[j] s)
  stops : LoopStops all maxOps (ops + k) ((loopTurn T P)^[k] s) st

variable {T P all maxOps}

theorem RunsTurns.zero {ops : Nat} {s : State} {st : Status} (h : LoopStops all maxOps ops s st) :
    RunsTurns T P all maxOps ops s 0 st :=
  ⟨Nat.zero_le _, fun _ hj => absurd hj (Nat.not_lt_zero _), h⟩

/-- A turn before those that run: it takes a byte of look-ahead at the least. -/
theorem RunsTurns.succ {ops k : Nat} {s : State} {st : Status} (hbegin : TurnBegins all maxOps ops s)
    (h : RunsTurns T P all maxOps (ops + 1) (loopTurn T P s) k st) : RunsTurns T P all maxOps ops s (k + 1) st := by
  obtain ⟨hbound, hturns, hstops⟩ := h
  have hB := one_le_B_of_loopGoes hbegin.goes
  have hpos := opLen_turnOp_pos T s P
  obtain ⟨-, hleft, -⟩ := loopTurn_moves T s P hB
  refine ⟨by omega, fun j hj => ?_, ?_⟩
  · cases j with
    | zero => exact hbegin
    | succ j => exact Nat.succ_add_eq_add_succ ops j ▸ hturns j (Nat.lt_of_succ_lt_succ hj)
  · exact Nat.succ_add_eq_add_succ ops k ▸ hstops

/-- Given as many turns as there are bytes of look-ahead, the loop runs until one of R144's conditions ends it. -/
theorem exists_runsTurns {fuel ops : Nat} {s : State} (hfuel : s.B ≤ fuel) (hwhole : s.coder.sinkBroken = false) :
    ∃ k st, compressLoop T P all maxOps fuel ops s = ⟨st, ops + k, (loopTurn T P)^[k] s⟩
      ∧ RunsTurns T P all maxOps ops s k st := by
  induction fuel generalizing ops s with
  | zero =>
    have hstop : loopGoes all maxOps ops s = false :=
      Bool.eq_false_iff.2 fun hgo => by have := one_le_B_of_loopGoes hgo; omega
    exact ⟨0, _, rfl, .zero (.done hstop hwhole)⟩
  | succ fuel ih =>
    rw [compressLoop]
    cases hgo : loopGoes all maxOps ops s with
    | false => exact ⟨0, _, rfl, .zero (.done hgo hwhole)⟩
    | true =>
      cases hm : marginOk s with
      | false => exact ⟨0, _, rfl, .zero (.margin hgo hm hwhole)⟩
      | true =>
        have hbegin : TurnBegins all maxOps ops s := ⟨hgo, hm, hwhole⟩
        have hpos := opLen_turnOp_pos T s P
        obtain ⟨-, hleft, -⟩ := loopTurn_moves T s P (one_le_B_of_loopGoes hgo)
        cases hb : (loopTurn T P s).coder.sinkBroken with
        | true => exact ⟨1, _, rfl, .succ hbegin (.zero (.broken (Nat.succ_pos ops) hb))⟩
        | false =>
          obtain ⟨k, st, heq, hk⟩ := ih (ops := ops + 1) (by omega) hb
          exact ⟨k + 1, st, Nat.succ_add_eq_add_succ ops k ▸ heq, .succ hbegin hk⟩

/-- CompressLoop from the first operation on (R144). -/
theorem exists_runLoop_eq {s : State} (hwhole : s.coder.sinkBroken = false) :
    ∃ k st, runLoop T P all maxOps s = ⟨st, k, (loopTurn T P)^[k] s⟩ ∧ RunsTurns T P all maxOps 0 s k st := by
  obtain ⟨k, st, heq, hruns⟩ :=
    exists_runsTurns (T := T) (P := P) (all := all) (maxOps := maxOps) (ops := 0) (Nat.le_refl s.B) hwhole
  exact ⟨k, st, by rw [runLoop, heq, Nat.zero_add], hruns⟩

end

theorem exec_compress_of_encodeReady {s : State} (h : encodeReady s) (all : Bool) (maxOps : Word32) :
    exec (.compress all maxOps) s = .next (compressBody Config.hashTable Config.policy all maxOps s) :=
  runCommon_encodeReady _ h

/-- The turn as O55 writes it out. -/
theorem loopTurn_eq_elim (T : HashTable) (P : Policy) (s : State) : loopTurn T P s =
    (chooseOp P (findList T s) (indexHead T s)).elim (skipBody T 1 (encLitCore (indexHead T s)))
      (fun m => skipBody T m.2 (encMatchCore m.1 m.2 (indexHead T s))) := by
  rw [loopTurn]
  cases chooseOp P (findList T s) (indexHead T s) <;> rfl

/-- Settles O55: every turn takes a byte of look-ahead, so the turns that B allows reach one of R144's three ends. -/
theorem compressRunsTurns : Obligations.CompressRunsTurns := by
  intro s all maxOps turn goes hready hturn hgoes
  obtain rfl : turn = loopTurn Config.hashTable Config.policy :=
    funext fun v => (hturn v).trans (loopTurn_eq_elim _ _ v).symm
  have hgo (n : Nat) (v : State) : goes n v ↔ loopGoes all maxOps.toNat n v = true :=
    (hgoes n v).trans (loopGoes_iff ..).symm
  obtain ⟨k, st, hloop, hbound, hturns, hstops⟩ := exists_runLoop_eq (T := Config.hashTable) (P := Config.policy)
    (all := all) (maxOps := maxOps.toNat) hready.1.2
  rw [Nat.zero_add] at hstops
  refine ⟨k, st, hbound, ?_, fun j hj => ?_, ?_⟩
  · rw [exec_compress_of_encodeReady hready, compressBody, hloop]
  · obtain ⟨hgoing, hmargin, hwhole⟩ := hturns j hj
    rw [Nat.zero_add] at hgoing
    exact ⟨(hgo ..).2 hgoing, hmargin, hwhole⟩
  · rw [hgo]
    cases hstops with
    | done hend hs => exact .inl ⟨rfl, Bool.eq_false_iff.1 hend, hs⟩
    | margin hgoing hm hs => exact .inr (.inl ⟨rfl, hgoing, hm, hs⟩)
    | broken hops hs => exact .inr (.inr ⟨rfl, hops, hs⟩)

end Sys2Proof.Machine

/-! # COMPRESS of one operation as the host's own commands (45_control.md R143, R144, 60_exceptions.md R167) -/

namespace Sys2Proof.Machine

/-! ## What the talk does not reach

STATUS.LAST and the responses are written, and nothing but REG_READ reads them. -/

section
variable (T : HashTable) (s : State)

theorem insertWord_withoutTalk (p : Nat) : insertWord T (withoutTalk s) p = insertWord T s p := by
  funext ix k
  simp [insertWord, keyAt, ringSeg_congr (t := withoutTalk s) (s := s) rfl rfl]

theorem withoutTalk_insertPos (p : Nat) : withoutTalk (insertPos T p s) = insertPos T p (withoutTalk s) := by
  rw [insertPos, insertPos, insertWord_withoutTalk]
  rfl

theorem withoutTalk_insertRange (p n : Nat) :
    withoutTalk (insertRange T p n s) = insertRange T p n (withoutTalk s) := by
  induction n generalizing p s with
  | zero => rfl
  | succ n ih => rw [insertRange, ih, withoutTalk_insertPos, insertRange]

theorem withoutTalk_skipBody (n : Nat) : withoutTalk (skipBody T n s) = skipBody T n (withoutTalk s) := by
  rw [skipBody, skipBody, ← withoutTalk_insertRange T s]
  rfl

theorem withoutTalk_codePacket (p : Packet) : withoutTalk (codePacket p s) = codePacket p (withoutTalk s) := rfl

theorem withoutTalk_opCore (op : Option (Nat × Nat)) :
    withoutTalk (opCore op s) = opCore op (withoutTalk s) := by
  cases op with
  | none => rfl
  | some m => rfl

end

/-! ## One operation (R144) -/

/-- The command that codes an operation. -/
def opInstr (op : Option (Nat × Nat)) : Instr :=
  op.elim .encLit fun m => .encMatch (BitVec.ofNat 64 m.1) (BitVec.ofNat 32 m.2)

/-- The formats of R135 keep a match's operands well within their fields. -/
theorem operands_of_matchOk {s : State} {m : Nat × Nat} (h : matchOk s m.1 m.2 = true) :
    (BitVec.ofNat 64 m.1).toInt = m.1 ∧ (BitVec.ofNat 32 m.2).toNat = m.2 := by
  obtain ⟨hformat, -⟩ := (matchOk_iff s m.1 m.2).1 h
  have hrep := s.rep.r0.isLt
  have hdist : m.1 < 2 ^ 63 := by omega
  refine ⟨?_, ?_⟩
  · rw [BitVec.toInt_ofNat', Int.bmod_eq_of_le] <;> omega
  · rw [BitVec.toNat_ofNat]
    omega

/-- With the margin met, the command codes the operation and answers what it did to the sink. -/
theorem exec_opInstr {s : State} {op : Option (Nat × Nat)} (h : encodeReady s) (hB : 1 ≤ s.B)
    (hm : marginOk s = true) (hop : ∀ m, op = some m → matchOk s m.1 m.2 = true) :
    exec (opInstr op) s = .next (respondCoded (opLen op) (opCore op s)) := by
  cases op with
  | none => rw [opInstr, Option.elim_none, exec_encLit_of_encodeReady h, encLitBody, if_neg (by omega), if_pos hm]; rfl
  | some m =>
    have hok := hop m rfl
    obtain ⟨hd, hlen⟩ := operands_of_matchOk hok
    rw [opInstr, Option.elim_some, exec_encMatch_of_encodeReady h, encMatchBody, hd, hlen, if_pos hok, if_pos hm]
    rfl

/-- The matches of FIND's list pass R135's checks (42_match_finder.md R107). -/
theorem matchOk_of_mem_findList {T : HashTable} {s : State} {m : Nat × Nat} (hi : s.initDone = true) (h : Inv s)
    (hm : m ∈ findList T s) : matchOk s m.1 m.2 = true := by
  obtain ⟨hlo, hhi, hB, hnear, hfar, -, hbytes, hdist, -⟩ := (findResultsAreMatches T s hi h).1 m hm
  exact (matchOk_iff s m.1 m.2).2 ⟨.inl (by omega), by omega, hB, hbytes⟩

theorem matchOk_turnOp {T : HashTable} {P : Policy} {s : State} {m : Nat × Nat} (hi : s.initDone = true) (h : Inv s)
    (hop : turnOp T s P = some m) : matchOk s m.1 m.2 = true :=
  (turnOp_cases T s hop).elim id (matchOk_of_mem_findList hi h)

/-- A cap of one operation ends the loop after its first turn. -/
theorem runLoop_one {T : HashTable} {P : Policy} {s : State} (hB : 1 ≤ s.B) (hm : marginOk s = true) :
    runLoop T P true 1 s = ⟨sinkStatus (loopTurn T P s), 1, loopTurn T P s⟩ := by
  obtain ⟨n, hn⟩ := Nat.exists_eq_add_of_le' hB
  have hgo : loopGoes true 1 0 s = true := (loopGoes_iff ..).2 ⟨hB, by omega⟩
  have hstop (t : State) : loopGoes true 1 1 t = false := Bool.eq_false_iff.2 fun h => by
    obtain ⟨-, hcap⟩ := (loopGoes_iff ..).1 h
    omega
  have hend (t : State) : compressLoop T P true 1 n 1 t = ⟨.ok, 1, t⟩ := by
    cases n with
    | zero => rfl
    | succ n => rw [compressLoop, hstop, if_neg Bool.false_ne_true]
  rw [runLoop, hn, compressLoop, if_pos hgo, if_pos hm, hend, sinkStatus]
  split <;> rfl

/-- COMPRESS of one operation answers its bytes and what the turn did to the sink. -/
theorem exec_compress_one {s : State} (h : encodeReady s) (hB : 1 ≤ s.B) (hm : marginOk s = true) :
    exec (.compress true 1) s = .next (respond (sinkStatus (loopTurn Config.hashTable Config.policy s)) 1
      (BitVec.ofNat 64 (opLen (turnOp Config.hashTable s Config.policy))) []
      (loopTurn Config.hashTable Config.policy s)) := by
  obtain ⟨hH, -, -⟩ := loopTurn_moves Config.hashTable s Config.policy hB
  have hcap : (1 : Word32).toNat = 1 := rfl
  rw [exec_compress_of_encodeReady h, compressBody, hcap, runLoop_one hB hm, hH, Nat.add_sub_cancel_left]

/-- R135's checks of a distance that FIND or POLICY gives, as numbers. -/
theorem matchOk_iff_nat (s : State) (m : Nat × Nat) : matchOk s m.1 m.2 = true ↔
    ((1 ≤ m.1 ∧ m.1 ≤ 2 ^ 32 - 1 ∧ 2 ≤ m.2 ∧ m.2 ≤ 273) ∨ (m.2 = 1 ∧ m.1 = s.rep.r0.toNat + 1))
      ∧ m.1 ≤ dictLen s ∧ m.2 ≤ s.B ∧ ∀ i < m.2, ringAt s (s.H + i) = ringAt s (s.H - m.1 + i) := by
  rw [matchOk_iff]
  exact and_congr (by omega) (and_congr (by omega) Iff.rfl)

section
variable (T : HashTable) (P : Policy) {s : State}

/-- The host's FIND leaves everything that lets the turn's operation through. -/
theorem exec_turnOp_findBody (h : encodeReady s) (hinv : Inv s) (hB : 1 ≤ s.B) (hm : marginOk s = true) :
    exec (opInstr (turnOp T s P)) (findBody T s) =
      .next (respondCoded (opLen (turnOp T s P)) (opCore (turnOp T s P) (findBody T s))) := by
  have hsame (d : Int) (len : Nat) : matchOk (findBody T s) d len = matchOk s d len := by
    apply matchOk_congr <;> simp [findBody]
  refine exec_opInstr (by simpa [encodeReady, sinkReady, ready, findBody] using h) (by simpa [findBody] using hB)
    (by simpa [marginOk, findBody] using hm) fun m hop => ?_
  rw [hsame]
  exact matchOk_turnOp h.1.1.2 hinv hop

/-- A turn of the loop is the host's FIND, encode and SKIP but for what these answer. -/
theorem withoutTalk_loopTurn (n : Nat) : withoutTalk (loopTurn T P s) = withoutTalk
    (skipBody T (opLen (turnOp T s P)) (respondCoded n (opCore (turnOp T s P) (findBody T s)))) := by
  rw [loopTurn_eq, withoutTalk_skipBody, withoutTalk_skipBody, respondCoded, withoutTalk_respond, withoutTalk_opCore,
    withoutTalk_opCore, findBody, withoutTalk_respond]

/-- Skipping leaves the sink as the host's encode left it. -/
theorem sinkStatus_loopTurn : sinkStatus (loopTurn T P s) = sinkStatus (opCore (turnOp T s P) (findBody T s)) := by
  have hcoder := congrArg State.coder (withoutTalk_loopTurn T P (s := s) 0)
  rw [withoutTalk_coder, withoutTalk_coder, skipBody_coder, respondCoded, respond_coder] at hcoder
  rw [sinkStatus, hcoder, sinkStatus]

end

/-- The operation of a turn is within LEN. -/
theorem opLen_turnOp_toNat {T : HashTable} {P : Policy} {s : State} (hi : s.initDone = true) (h : Inv s) :
    (BitVec.ofNat 32 (opLen (turnOp T s P))).toNat = opLen (turnOp T s P) := by
  cases hop : turnOp T s P with
  | none => rfl
  | some m => exact (operands_of_matchOk (matchOk_turnOp hi h hop)).2

/-- Settles O56: the turn and the host's commands are FIND's last step, the coding of one operation and SkipBody, which
the talk between the host's commands does not reach. -/
theorem compressTurnIsHostStep : Obligations.CompressTurnIsHostStep := by
  rintro s res choice valid hinv hready hB hm rfl hchoice hvalid
  obtain ⟨hlit, hmatch⟩ := chooseOp_eq Config.policy (findList Config.hashTable s) (indexHead Config.hashTable s)
  rw [← hchoice] at hlit hmatch
  have hok (m : Nat × Nat) : valid m ↔ matchOk (indexHead Config.hashTable s) m.1 m.2 = true := by
    rw [hvalid, matchOk_indexHead, matchOk_iff_nat]
  refine ⟨hlit, fun m hP => ⟨fun hv => (hmatch m hP).1 ((hok m).1 hv),
    fun hv => (hmatch m hP).2 (Bool.eq_false_iff.2 fun h => hv ((hok m).2 h))⟩, ?_⟩
  obtain rfl : choice = turnOp Config.hashTable s Config.policy := hchoice
  obtain ⟨hsession, -⟩ := hready.1
  have hlen := opLen_turnOp_toNat (T := Config.hashTable) (P := Config.policy) hsession.2 hinv
  have henc := exec_turnOp_findBody Config.hashTable Config.policy hready hinv hB hm
  have hcompress := exec_compress_one hready hB hm
  obtain ⟨hH, -, hpend⟩ := loopTurn_moves Config.hashTable s Config.policy hB
  have htalk := withoutTalk_loopTurn Config.hashTable Config.policy (s := s)
    (opLen (turnOp Config.hashTable s Config.policy))
  have hsilent := silent_loopTurn Config.hashTable Config.policy s
  have hstatus := sinkStatus_loopTurn Config.hashTable Config.policy (s := s)
  generalize loopTurn Config.hashTable Config.policy s = t at *
  generalize turnOp Config.hashTable s Config.policy = op at *
  refine ⟨_, _, _, _, opInstr op, BitVec.ofNat 32 (opLen op), exec_find_of_ready hsession, ?_, ?_, henc, ?_, ?_,
    exec_skip_of_ready ?_ _, hcompress, ?_, ?_, ?_, ?_⟩
  · rintro rfl
    exact ⟨rfl, rfl⟩
  · rintro m rfl
    exact ⟨rfl, hlen⟩
  · rw [respondCoded, respond_lastStatus, sinkStatus]
    split <;> simp
  · rw [hlen, respondCoded, respond_pend, opCore_pend]
  · simpa [ready, respondCoded, findBody] using hsession
  · rw [withoutTalk_respond, withoutTalk_respond, hlen, ← htalk]
  · rw [respond_pend, hlen]
    exact (congrArg State.pend htalk).symm.trans hpend
  · rw [respond_H, hH, hlen]
  · rw [respond_responses, hsilent.1, hstatus, ← BitVec.ofNat_toNat, hlen]
    rfl

end Sys2Proof.Machine

/-! # CLOSE as the host's own commands (45_control.md R145) -/

namespace Sys2Proof.Machine

/-! ## A broken sink is a full one (43_range_coder.md R118) -/

/-- A sink breaks only when it has no room left, and none comes back. -/
def BrokenIsFull (c : Coder) : Prop := c.sinkBroken = true → c.sinkRem = 0

theorem BrokenIsFull.shiftLow {c : Coder} (h : BrokenIsFull c) : BrokenIsFull (shiftLow c) := by
  rw [BrokenIsFull, shiftLow_sinkBroken, shiftLow_sinkRem]
  intro hbroken
  rcases Bool.or_eq_true_iff.1 hbroken with hbefore | hnow
  · rw [h hbefore]
    split <;> omega
  · obtain ⟨hsettled, hover⟩ := Bool.and_eq_true_iff.1 hnow
    rw [if_pos hsettled]
    exact Nat.sub_eq_zero_of_le (of_decide_eq_true hover).le

theorem BrokenIsFull.normalize {c : Coder} (fuel : Nat) (h : BrokenIsFull c) : BrokenIsFull (normalize fuel c) := by
  induction fuel generalizing c with
  | zero => exact h
  | succ fuel ih =>
    unfold Machine.normalize
    split
    · exact ih (BrokenIsFull.shiftLow h)
    · exact h

/-- A decision narrows the interval, which the sink does not see, and normalises. -/
theorem BrokenIsFull.codeOne {c : Coder} (d : Decision) (h : BrokenIsFull c) : BrokenIsFull (codeOne c d) := by
  cases d with
  | adaptive cell b => cases b <;> exact BrokenIsFull.normalize 4 h
  | direct b => exact BrokenIsFull.normalize 4 h

theorem brokenIsFull_codePacket {s : State} (p : Packet) (h : s.coder.sinkBroken = false) :
    BrokenIsFull (codePacket p s).coder :=
  codeAll_induction (fun d _ _ hc => hc.codeOne d) fun hbroken => absurd hbroken (Bool.eq_false_iff.1 h)

/-! ## The marker and the flush (R145) -/

/-- The status of the sequence, once a command has answered `new`: LIMIT stays (R145). -/
def limitOr (new old : Status) : Status := if new = .limit then .limit else old

theorem limitOr_of_ne {new : Status} (h : new ≠ .limit) (old : Status) : limitOr new old = old := if_neg h

/-- LIMIT from any of the loop, the marker and the flush is the answer, and OK from all three. -/
theorem limitOr_limitOr {loop : Status} (h : loop = .ok ∨ loop = .limit) (flush mark : Status) :
    limitOr flush (limitOr mark loop) =
      if loop = .limit ∨ mark = .limit ∨ flush = .limit then .limit else .ok := by
  by_cases hflush : flush = .limit
  · simp [limitOr, hflush]
  · by_cases hmark : mark = .limit
    · simp [limitOr, hflush, hmark]
    · rcases h with rfl | rfl <;> simp [limitOr, hflush, hmark]

theorem sinkStatus_ne_limit (s : State) : sinkStatus s ≠ .limit := by
  rw [sinkStatus]
  split <;> simp

section
variable {v : State} {e : LoopEnd} (htalk : withoutTalk v = withoutTalk e.state)
include htalk

/-- After the loop the host issues ENC_EOS where the session asks for a marker. -/
theorem exists_encEos_eq_closeEos (h : encodeReady v) : ∃ w : State,
    (v.cfg.eos.toNat = 1 → exec .encEos v = .next w) ∧ (v.cfg.eos.toNat ≠ 1 → w = { v with lastStatus := .ok })
      ∧ withoutTalk w = withoutTalk (closeEos e).state ∧ ready w ∧ BrokenIsFull w.coder
      ∧ (closeEos e).status = limitOr w.lastStatus e.status := by
  obtain ⟨hready, hwhole⟩ := h.1
  have hfull : BrokenIsFull v.coder := fun hbroken => absurd hbroken (Bool.eq_false_iff.1 hwhole)
  have hcfg : v.cfg = e.state.cfg := (congrArg State.cfg htalk :)
  have hcoder : v.coder = e.state.coder := (congrArg State.coder htalk :)
  have hroom : eosMarginOk e.state = eosMarginOk v := by rw [eosMarginOk, eosMarginOk, hcfg, hcoder]
  rw [closeEos, ← hcfg, hroom]
  by_cases heos : v.cfg.eos.toNat = 1
  · rw [if_pos heos, exec_encEos_of_encodeReady h, encEosBody]
    by_cases hm : eosMarginOk v = true
    · rw [if_pos hm, if_pos hm]
      have hcoded : withoutTalk (codePacket .eos v) = withoutTalk (codePacket .eos e.state) := by
        rw [withoutTalk_codePacket, htalk, withoutTalk_codePacket]
      have hcodedReady : ready (codePacket .eos v) := by simpa [ready] using hready
      have hcodedFull := brokenIsFull_codePacket .eos hwhole
      generalize codePacket .eos v = u at *
      exact ⟨_, fun _ => rfl, fun hne => absurd heos hne, hcoded, hcodedReady, hcodedFull,
        (limitOr_of_ne (sinkStatus_ne_limit u) _).symm⟩
    · rw [if_neg hm, if_neg hm]
      exact ⟨_, fun _ => rfl, fun hne => absurd heos hne, htalk, hready, hfull, rfl⟩
  · rw [if_neg heos]
    exact ⟨{ v with lastStatus := .ok }, fun heq => absurd heq heos, fun _ => rfl, htalk, hready, hfull, rfl⟩

/-- Then the host issues RC_FLUSH, which a sink that the marker broke refuses and has no room for. -/
theorem exists_rcFlush_eq_closeFlush (h : ready v) (hfull : BrokenIsFull v.coder) : ∃ w : State,
    exec .rcFlush v = .next w ∧ withoutTalk w = withoutTalk (closeFlush e).state
      ∧ (w.coder.sinkBroken = false → (closeFlush e).status = limitOr w.lastStatus e.status) := by
  have hcoder : v.coder = e.state.coder := (congrArg State.coder htalk :)
  rw [closeFlush, ← hcoder]
  cases hbroken : v.coder.sinkBroken with
  | true =>
    have hno : ¬ flushCost v.coder ≤ v.coder.sinkRem := by
      rw [hfull hbroken, flushCost]
      omega
    refine ⟨respond .sinkOverflow 0 0 [] v, runCommon_of_some _ ?_, ?_, fun hwhole => ?_⟩
    · simp [commonCheck, h.1, h.2, hbroken]
    · rw [if_neg hno]
      exact htalk
    · exact absurd hbroken (Bool.eq_false_iff.1 hwhole)
  | false =>
    rw [exec_rcFlush_of_sinkReady ⟨h, hbroken⟩, rcFlushRule]
    by_cases hroom : flushCost v.coder ≤ v.coder.sinkRem
    · rw [if_pos hroom, if_neg (Nat.not_lt.2 hroom)]
      refine ⟨_, rfl, ?_, fun _ => rfl⟩
      exact congrArg (fun u : State => { u with coder := rcFlushBody v.coder }) htalk
    · rw [if_neg hroom, if_pos (Nat.not_le.1 hroom)]
      exact ⟨_, rfl, htalk, fun _ => rfl⟩

end

/-! ## The loop's end (R144) -/

section
variable (T : HashTable) (s : State)

@[simp] theorem skipBody_faulted (n : Nat) : (skipBody T n s).faulted = s.faulted := by
  obtain ⟨ix, b, heq, -, -⟩ := skipBody_spec T s n
  rw [heq, advance_faulted]

@[simp] theorem skipBody_initDone (n : Nat) : (skipBody T n s).initDone = s.initDone :=
  (consumes_skipBody T n s).initDone

/-- The loop leaves nothing pending, and a whole sink unless it answers SINK_OVERFLOW. -/
theorem runLoop_ends (P : Policy) (all : Bool) (maxOps : Nat) (h : encodeReady s) :
    (runLoop T P all maxOps s).status = .sinkOverflow
      ∨ ((runLoop T P all maxOps s).status = .ok ∨ (runLoop T P all maxOps s).status = .limit)
        ∧ encodeReady (runLoop T P all maxOps s).state := by
  obtain ⟨⟨hready, hwhole⟩, hpend⟩ := h
  have hidle : ready (runLoop T P all maxOps s).state ∧ (runLoop T P all maxOps s).state.pend = 0 := by
    refine compressLoop_induction (Q := fun u => ready u ∧ u.pend = 0) (fun u hB hu => ⟨?_, ?_⟩) all maxOps _ _
      ⟨hready, hpend⟩
    · simpa [ready, loopTurn_eq] using hu.1
    · exact (loopTurn_moves T u P hB).2.2
  obtain ⟨k, st, hloop, -, -, hstops⟩ := exists_runLoop_eq (T := T) (P := P) (all := all) (maxOps := maxOps) hwhole
  rw [hloop] at hidle ⊢
  obtain ⟨hready', hpend'⟩ := hidle
  cases hstops with
  | done hgo hs => exact .inr ⟨.inl rfl, ⟨hready', hs⟩, hpend'⟩
  | margin hgo hm hs => exact .inr ⟨.inr rfl, ⟨hready', hs⟩, hpend'⟩
  | broken hops hs => exact .inl rfl

end

theorem exec_close_of_encodeReady {s : State} (h : encodeReady s) :
    exec .close s = .next (closeBody Config.hashTable Config.policy s) := runCommon_encodeReady _ h

theorem closeTail_ops (e : LoopEnd) : (closeTail e).ops = e.ops := by
  unfold closeTail closeFlush closeEos
  split_ifs <;> rfl

/-- Neither the marker nor the flush moves the head or answers. -/
theorem closeTail_frame (e : LoopEnd) :
    (closeTail e).state.H = e.state.H ∧ (closeTail e).state.responses = e.state.responses :=
  closeTail_induction (Q := fun u => u.H = e.state.H ∧ u.responses = e.state.responses) (fun _ hu => hu)
    (fun _ hu => hu) ⟨rfl, rfl⟩

/-- After a loop that broke the sink CLOSE does nothing more (R145). -/
theorem closeTail_of_sinkOverflow {e : LoopEnd} (h : e.status = .sinkOverflow) :
    closeTail e = e ∧ closeStatus e = .sinkOverflow := by
  refine ⟨if_pos h, ?_⟩
  rw [closeStatus, h]
  split <;> rfl

/-- Whatever state the loop has left, the host's two commands answer. -/
theorem exists_encEos_rcFlush (v : State) : ∃ w f : State, (v.cfg.eos.toNat = 1 → exec .encEos v = .next w)
    ∧ (v.cfg.eos.toNat ≠ 1 → w = { v with lastStatus := .ok }) ∧ exec .rcFlush w = .next f := by
  have hflush (u : State) : ∃ f, exec .rcFlush u = .next f := by
    obtain ⟨f, -, hf, -⟩ := oneResponsePerCommand .rcFlush u rfl
    exact ⟨f, hf⟩
  by_cases heos : v.cfg.eos.toNat = 1
  · obtain ⟨w, -, hw, -⟩ := oneResponsePerCommand .encEos v rfl
    obtain ⟨f, hf⟩ := hflush w
    exact ⟨w, f, fun _ => hw, fun hne => absurd heos hne, hf⟩
  · obtain ⟨f, hf⟩ := hflush { v with lastStatus := .ok }
    exact ⟨_, f, fun heq => absurd heq heos, fun _ => rfl, hf⟩

/-- Settles O57: the loop ends encode-ready or has broken the sink; in the first case each of CLOSE's two further steps
is the host's command, in the second CLOSE stops as well. -/
theorem closeIsHostSequence : Obligations.CloseIsHostSequence := by
  intro s hready
  have hcap : (0 : Word32).toNat = 0 := rfl
  have hcompress := exec_compress_of_encodeReady hready true 0
  have hclose := exec_close_of_encodeReady hready
  rw [compressBody, hcap] at hcompress
  rw [closeBody] at hclose
  have hends := runLoop_ends Config.hashTable s Config.policy true 0 hready
  obtain ⟨hsilent, -⟩ := silent_runLoop Config.hashTable Config.policy true 0 s
  generalize runLoop Config.hashTable Config.policy true 0 s = e at *
  obtain ⟨hH, hresponses⟩ := closeTail_frame e
  rw [closeTail_ops, hH] at hclose
  have hcResponses := respond_responses e.state e.status e.ops (BitVec.ofNat 64 (e.state.H - s.H)) []
  have htResponses := respond_responses (closeTail e).state (closeStatus (closeTail e)) e.ops
    (BitVec.ofNat 64 (e.state.H - s.H)) []
  rw [hsilent] at hcResponses
  rw [hresponses, hsilent] at htResponses
  rcases hends with hover | ⟨hstatus, hencode⟩
  · obtain ⟨htail, hst⟩ := closeTail_of_sinkOverflow hover
    obtain ⟨w, f, heos, hnone, hflush⟩ := exists_encEos_rcFlush
      (respond e.status e.ops (BitVec.ofNat 64 (e.state.H - s.H)) [] e.state)
    refine ⟨_, w, f, _, _, _, hcompress, hcResponses, heos, hnone, hflush, hclose, htResponses, rfl,
      fun _ => ⟨?_, ?_⟩, fun hne => absurd hover hne⟩
    · rw [withoutTalk_respond, withoutTalk_respond, htail]
    · rw [htail, hst]
  · have hne : e.status ≠ .sinkOverflow := by rcases hstatus with h | h <;> simp [h]
    have htail : closeTail e = closeFlush (closeEos e) := if_neg hne
    obtain ⟨w, heos, hnone, hwtalk, hwready, hwfull, hwstatus⟩ := exists_encEos_eq_closeEos
      (withoutTalk_respond e.status e.ops (BitVec.ofNat 64 (e.state.H - s.H)) [] e.state) hencode
    obtain ⟨f, hflush, hftalk, hfstatus⟩ := exists_rcFlush_eq_closeFlush hwtalk hwready hwfull
    rw [← htail] at hftalk hfstatus
    refine ⟨_, w, f, _, _, _, hcompress, hcResponses, heos, hnone, hflush, hclose, htResponses, rfl,
      fun hover => absurd hover hne, fun _ => ⟨hftalk.symm, ?_⟩⟩
    have hfcoder : f.coder = (closeTail e).state.coder := (congrArg State.coder hftalk :)
    rw [closeStatus, respond_coder]
    cases hbroken : (closeTail e).state.coder.sinkBroken with
    | true => rfl
    | false =>
      rw [hfstatus (hfcoder ▸ hbroken), hwstatus]
      exact limitOr_limitOr hstatus f.lastStatus w.lastStatus

end Sys2Proof.Machine

/-! # Words that the decoder refuses (60_exceptions.md R152) -/

namespace Sys2Proof

section
variable {u : FieldUse} {w : CommandWord} {payload : List Byte}

/-- A payload has the wrong length where the command carries one, or is there where it carries none (R64). -/
theorem payload_length_ne_iff :
    payload.length ≠ (if carriesPayload (opcOf w) then (lenOf w).toNat else 0) ↔
      ((opcOf w).toNat ∈ [0x10, 0x13, 0x20] ∧ payload.length ≠ (lenOf w).toNat)
        ∨ ((opcOf w).toNat ∉ [0x10, 0x13, 0x20] ∧ payload ≠ []) := by
  rw [← carriesPayload_iff]
  cases carriesPayload (opcOf w) <;> simp

theorem fieldCheck_ne_none_iff : fieldCheck u w payload ≠ none ↔
    rsvdOf w ≠ 0 ∨ (u.sub = false ∧ subOf w ≠ 0) ∨ (u.len = false ∧ lenOf w ≠ 0) ∨ (u.dist = false ∧ distOf w ≠ 0)
      ∨ ((opcOf w).toNat ∈ [0x10, 0x13, 0x20] ∧ payload.length ≠ (lenOf w).toNat)
      ∨ ((opcOf w).toNat ∉ [0x10, 0x13, 0x20] ∧ payload ≠ []) := by
  rw [← payload_length_ne_iff, ne_eq, fieldCheck_eq_none_iff]
  simp only [not_and_or, Classical.not_imp, ne_eq]

/-- A word is refused for its fields or its payload, or for what its command refuses. -/
theorem fieldsThen_eq_error_iff {r : Except DecodeError Instr} :
    (∃ e, fieldsThen u w payload r = .error e) ↔ fieldCheck u w payload ≠ none ∨ ∃ e, r = .error e := by
  rw [fieldsThen]
  cases fieldCheck u w payload <;> simp

/-- What its own check adds to the reasons that refuse a command. -/
theorem ite_eq_error_iff {b : Prop} [Decidable b] {i : Instr} {e : DecodeError} :
    (∃ e', (if b then .ok i else .error e : Except DecodeError Instr) = .error e') ↔ ¬ b := by
  split <;> simp_all

theorem regAssigned_iff (r : Byte) : regAssigned r = true ↔
    r.toNat ≤ 0x0B ∨ (0x10 ≤ r.toNat ∧ r.toNat ≤ 0x24) ∨ (0x30 ≤ r.toNat ∧ r.toNat ≤ 0x3B) := by
  rw [← Bool.not_eq_false, Machine.regAssigned_eq_false_iff, not_not]

end

/-- Settles O3: with its opcode known, a word is refused for its fields, for its payload, or for the register or flag
that its SUB fails to be. -/
theorem illegalWords : Obligations.IllegalWords := by
  intro w payload
  unfold decode
  split
  all_goals rename_i ho
  case h_20 => -- no opcode of the map
    exact iff_of_true ⟨_, rfl⟩ (.inl (by simp_all))
  case h_2 | h_3 | h_18 => -- REG_READ, REG_WRITE, COMPRESS: what SUB may be
    simp only [fieldsThen_eq_error_iff, fieldCheck_ne_none_iff, ite_eq_error_iff, regAssigned_iff,
      Machine.regWritable_iff, ho, List.mem_cons, List.not_mem_nil]
    grind
  all_goals simp [fieldsThen_eq_error_iff, fieldCheck_ne_none_iff, ho]

end Sys2Proof

/-! # The common checks and the fault latch (60_exceptions.md R149 to R151) -/

namespace Sys2Proof.Machine

/-! ## A word that does not decode (R151, R152) -/

theorem step_of_command {s : State} {w : CommandWord} {payload : List Byte} {rest : List HostEvent}
    (h : s.inbox = .command w payload :: rest) : step s = runCommand w payload { s with inbox := rest } := by
  rw [step, takeMove, h]

theorem runCommand_of_error {w : CommandWord} {payload : List Byte} {e : DecodeError}
    (h : decode w payload = .error e) (s : State) : runCommand w payload s = .next (runIllegal (opcOf w) s) := by
  rw [runCommand, h]

theorem runCommand_of_ok {w : CommandWord} {payload : List Byte} {i : Instr}
    (h : decode w payload = .ok i) (s : State) : runCommand w payload s = exec i s := by
  rw [runCommand, h]

theorem latchFault_of_faulted {s : State} (h : s.faulted = true) (st : Status) (o : Byte) : latchFault st o s = s :=
  if_pos h

/-- ILLEGAL sets a latch that is clear. -/
theorem runIllegal_of_unlatched {s : State} (h : s.faulted = false) {o : Byte} (ho : o ≠ 0x02#8) :
    runIllegal o s = respond .illegal 0 0 [] { s with faulted := true, faultCode := 5, faultOpc := o } := by
  simp [runIllegal, raiseFatal, latchFault, h, ho, Status.code]

/-- With REG_READ's opcode ILLEGAL leaves LAST. -/
theorem runIllegal_regRead_of_unlatched {s : State} (h : s.faulted = false) : runIllegal 0x02 s =
    respondQuietly .illegal 0 0 [] { s with faulted := true, faultCode := 5, faultOpc := 0x02 } := by
  simp [runIllegal, raiseFatal, latchFault, h, Status.code]

/-- A latch that is set turns the word away. -/
theorem runIllegal_of_latched {s : State} (h : s.faulted = true) {o : Byte} (ho : o ≠ 0x02#8) :
    runIllegal o s = respond .faulted 0 0 [] s := by
  simp [runIllegal, h, ho]

/-- REG_READ's opcode passes the latch, and the first fault stays (R149). -/
theorem runIllegal_regRead_of_latched {s : State} (h : s.faulted = true) :
    runIllegal 0x02 s = respondQuietly .illegal 0 0 [] s := by
  simp [runIllegal, raiseFatal, latchFault_of_faulted h]

theorem opcOf_eq_regRead_iff (w : CommandWord) : opcOf w = 0x02#8 ↔ (opcOf w).toNat = 0x02 :=
  (BitVec.toNat_inj (y := 0x02#8)).symm

/-- Settles O9: an undecodable word raises ILLEGAL, but is turned away by a latch that is set, which REG_READ's opcode
passes. -/
theorem stepWithoutACommand : Obligations.StepWithoutACommand := by
  refine ⟨fun s h => by rw [step, takeMove, h], fun s rest h => by rw [step, takeMove, h]; rfl,
    fun s w payload rest e hinbox hdecode => ?_⟩
  have hopc := opcOf_eq_regRead_iff w
  rw [step_of_command hinbox, runCommand_of_error hdecode]
  refine ⟨fun hf ho => ?_, fun hf ho => ?_, fun hf ho => ?_, fun hf ho => ?_⟩
  · exact congrArg _ (runIllegal_of_unlatched (s := { s with inbox := rest }) hf (hopc.not.2 ho))
  · rw [hopc.2 ho]
    exact congrArg _ (runIllegal_regRead_of_unlatched hf)
  · exact congrArg _ (runIllegal_of_latched (s := { s with inbox := rest }) hf (hopc.not.2 ho))
  · rw [hopc.2 ho]
    exact congrArg _ (runIllegal_regRead_of_latched hf)

/-! ## The checks of each command (R151) -/

/-- The checks a command makes in steps 5 and 6 of R151; COPYN alone asks for a fresh coder. -/
def checksOf (i : Instr) : Checks := ⟨i.needsSink, i.needsIdle, i matches .copyN _⟩

/-- A command past step 3 of R151 that the common checks refuse answers the refusal. -/
theorem exec_of_commonCheck {i : Instr} {s : State} {st : Status} (hi : i.isCommand = true)
    (hearly : i.runsEarly = false) (h : commonCheck (checksOf i) s = some st) :
    exec i s = .next (respond st 0 0 [] s) := by
  cases i with
  | init | regRead | regWrite => contradiction
  | pktLit | pktMatch | pktShortRep | pktLongRep0 | pktLongRep1 | pktLongRep2 | pktLongRep3 | pktEos => contradiction
  | skip n =>
    rw [exec, execSkip]
    exact runCommon_of_some _ h
  | _ => exact runCommon_of_some _ h

/-- Settles O15: the checks that come before the one that refuses are premises that it has passed. -/
theorem commonChecksInOrder : Obligations.CommonChecksInOrder := by
  intro i s hi hearly hf
  refine ⟨fun hinit => ?_, fun hinit hneeds hbroken => ?_, fun hinit hsink hidle hpend => ?_,
    fun n hcopy hinit hwhole hfresh => ?_⟩ <;> refine exec_of_commonCheck hi hearly ?_
  · simp [commonCheck, hf, hinit]
  · simp [commonCheck, checksOf, hf, hinit, hneeds, hbroken]
  · simp [commonCheck, checksOf, hf, hinit, hsink, hidle, hpend]
  · simp [commonCheck, checksOf, hcopy, hf, hinit, hwhole, hfresh, Instr.needsSink, Instr.needsIdle]

/-! ## While a fault is latched (R150) -/

/-- Every command but REG_READ is answered FAULTED. -/
theorem exec_of_faulted {i : Instr} {s : State} (h : s.faulted = true) (hi : i.isCommand = true)
    (ho : i.opcode ≠ 0x02#8) : exec i s = .next (respond .faulted 0 0 [] s) := by
  cases hearly : i.runsEarly with
  | false => exact exec_of_commonCheck hi hearly (by simp [commonCheck, h])
  | true =>
    cases i with
    | init => exact runEarly_faulted _ h
    | regWrite => exact runEarly_faulted _ h
    | regRead r => exact absurd (opcode_regRead r) ho
    | _ => cases hearly

theorem exists_regRead_of_opcode {i : Instr} (hi : i.isCommand = true) (ho : i.opcode = 0x02#8) :
    ∃ r, i = .regRead r := by
  cases i with
  | regRead r => exact ⟨r, rfl⟩
  | pktLit | pktMatch | pktShortRep | pktLongRep0 | pktLongRep1 | pktLongRep2 | pktLongRep3 | pktEos => cases hi
  | _ => simp at ho

/-- A word that decodes gives a command with the word's opcode. -/
theorem opcode_of_decode {w : CommandWord} {payload : List Byte} {i : Instr} (h : decode w payload = .ok i) :
    i.isCommand = true ∧ i.opcode = opcOf w := by
  obtain ⟨-, hi, hcode⟩ := decodeDropsNoBit w payload i h
  exact ⟨hi, by rw [Instr.opcode, hcode]⟩

/-- Every word but one with REG_READ's opcode is answered FAULTED. -/
theorem runCommand_of_faulted {s : State} (h : s.faulted = true) {w : CommandWord} (ho : opcOf w ≠ 0x02#8)
    (payload : List Byte) : runCommand w payload s = .next (respond .faulted 0 0 [] s) := by
  cases hdecode : decode w payload with
  | error e => rw [runCommand_of_error hdecode, runIllegal_of_latched h ho]
  | ok i =>
    obtain ⟨hi, hopc⟩ := opcode_of_decode hdecode
    rw [runCommand_of_ok hdecode, exec_of_faulted h hi (hopc ▸ ho)]

/-- An answer while a fault is latched touches the talk alone. -/
theorem Answered.withoutTalk_of_faulted {u t : State} (ha : Answered u t) (h : u.faulted = true) :
    withoutTalk t = withoutTalk u := by
  cases ha with
  | silent | quiet | spoken => rfl
  | fatal st o =>
    rw [raiseFatal, latchFault_of_faulted h]
    split <;> rfl

/-- REG_READ has no effect. -/
theorem answered_regReadBody (r : Byte) (s : State) : Answered s (regReadBody r s) := by
  rcases runs_regReadBody s r with ha | ⟨u, heffect, -⟩
  · exact ha
  · cases heffect with
    | packet hp => cases hp

/-- While a fault is latched every command word is answered, and has no effect. -/
theorem answered_of_faulted {s t : State} {w : CommandWord} {payload : List Byte} (h : s.faulted = true)
    (hrun : runCommand w payload s = .next t) : Answered s t := by
  cases hdecode : decode w payload with
  | error e =>
    rw [runCommand_of_error hdecode] at hrun
    exact Host.Outcome.next.inj hrun ▸ answered_runIllegal _ s
  | ok i =>
    rw [runCommand_of_ok hdecode] at hrun
    obtain ⟨hi, -⟩ := opcode_of_decode hdecode
    by_cases ho : i.opcode = 0x02#8
    · obtain ⟨r, rfl⟩ := exists_regRead_of_opcode hi ho
      exact Host.Outcome.next.inj hrun ▸ answered_regReadBody r s
    · rw [exec_of_faulted h hi ho] at hrun
      exact Host.Outcome.next.inj hrun ▸ .spoken ..

/-- Settles O14: a latched word is answered without an effect, and an answer leaves a latch that is set. -/
theorem faultLatchHolds : Obligations.FaultLatchHolds := by
  intro s hf
  refine ⟨fun w payload rest hinbox ho => ?_, fun r hr => exec_regRead_assigned hr s, fun t hstep => ?_⟩
  · rw [step_of_command hinbox]
    exact runCommand_of_faulted (s := { s with inbox := rest }) hf ((opcOf_eq_regRead_iff w).not.2 ho) payload
  · cases hinbox : s.inbox with
    | nil =>
      rw [step, takeMove, hinbox] at hstep
      obtain rfl := Host.Outcome.next.inj hstep
      exact .inr ⟨hf, rfl⟩
    | cons move rest =>
      cases move with
      | reset => exact .inl ⟨rest, rfl⟩
      | command w payload =>
        rw [step_of_command hinbox] at hstep
        have htalk := (answered_of_faulted (s := { s with inbox := rest }) hf hstep).withoutTalk_of_faulted hf
        have hinbox' : t.inbox = rest := (congrArg State.inbox htalk :)
        have hfaulted : t.faulted = s.faulted := (congrArg State.faulted htalk :)
        exact .inr ⟨hfaulted.trans hf, by rw [hinbox', htalk]⟩

/-! ## The statuses a command can end with (R148, R149, R153 to R157) -/

/-- The statuses of a command that has run its own rule: only COMPRESS and CLOSE answer LIMIT then, and SINK_OVERFLOW is
of a sink that was whole before. -/
def Served (i : Instr) (s : State) (st : Status) : Prop :=
  st = .ok ∨ st = .noSpace ∨ (st = .limit ∧ i.opcode.toNat ∈ [0x40, 0x41])
    ∨ (st = .sinkOverflow ∧ s.coder.sinkBroken = false)

/-- How a command can end: turned away with zeros and no effect, with a fatal status, or served with one response. -/
inductive Ends (i : Instr) (s : State) : State → Prop
  | refused (st : Status) (h : st.fatal = false) : Ends i s (respond st 0 0 [] s)
  | fatal (st : Status) (h : st.fatal = true) : Ends i s (raiseFatal st i.opcode s)
  | served {t : State} {r : Response} (hr : t.responses = s.responses ++ [r]) (h : Served i s r.status) : Ends i s t

section
variable {i : Instr} {s t u : State}

theorem Ends.ite {b : Prop} [Decidable b] (ht : b → Ends i s t) (hu : ¬ b → Ends i s u) :
    Ends i s (if b then t else u) := by
  split
  · next h => exact ht h
  · next h => exact hu h

/-- A fatal status with the command's opcode. -/
theorem ends_raiseFatal {st : Status} {o : Byte} (ho : i.opcode = o) (h : st.fatal = true) :
    Ends i s (raiseFatal st o s) :=
  ho ▸ .fatal st h

/-- An effect does not talk, so the response after it is the only one. -/
theorem Silent.ends (h : Silent s u) {st : Status} (hst : Served i s st) (n : Nat) (v : Word64) (items : List Word64) :
    Ends i s (respond st n v items u) :=
  .served (by rw [respond_responses, h.1]) hst

theorem Silent.ends_ok (h : Silent s u) (n : Nat) (v : Word64) (items : List Word64) :
    Ends i s (respond .ok n v items u) :=
  h.ends (.inl rfl) n v items

theorem served_noSpace_or_ok {b : Prop} [Decidable b] : Served i s (if b then .noSpace else .ok) := by
  split
  · exact .inr (.inl rfl)
  · exact .inl rfl

/-- No refusal of the common checks is fatal. -/
theorem fatal_of_commonCheck {c : Checks} {st : Status} (h : commonCheck c s = some st) : st.fatal = false := by
  unfold commonCheck at h
  split_ifs at h <;> cases h <;> rfl

theorem ends_of_runCommon {c : Checks} {body : State → State} (h : runCommon c body s = .next t)
    (hb : commonCheck c s = none → Ends i s (body s)) : Ends i s t := by
  rcases runCommon_cases c body s with ⟨st, hc, he⟩ | ⟨hc, he⟩
  · exact Host.Outcome.next.inj (he.symm.trans h) ▸ .refused st (fatal_of_commonCheck hc)
  · exact Host.Outcome.next.inj (he.symm.trans h) ▸ hb hc

theorem ends_of_runEarly {body : State → State} (h : runEarly body s = .next t) (hb : Ends i s (body s)) :
    Ends i s t := by
  cases hf : s.faulted with
  | true => exact Host.Outcome.next.inj ((runEarly_faulted body hf).symm.trans h) ▸ .refused .faulted rfl
  | false => exact Host.Outcome.next.inj ((runEarly_of_not_faulted body hf).symm.trans h) ▸ hb

/-- The checks of an encode command leave a session with a whole sink and nothing pending. -/
theorem encodeReady_of_commonCheck (h : commonCheck ⟨true, true, false⟩ s = none) : encodeReady s := by
  obtain ⟨hf, hinit, hsink, hidle, -⟩ := (commonCheck_eq_none_iff _ s).1 h
  exact ⟨⟨⟨hf, hinit⟩, hsink rfl⟩, hidle rfl⟩

/-- A sink that is broken after an encode command was whole before it. -/
theorem Silent.ends_coded (h : Silent s u) (hc : commonCheck ⟨true, true, false⟩ s = none) (n : Nat) :
    Ends i s (respondCoded n u) := by
  refine h.ends ?_ n 0 []
  rw [sinkStatus]
  split
  · exact .inr (.inr (.inr ⟨rfl, (encodeReady_of_commonCheck hc).1.2⟩))
  · exact .inl rfl

/-- What COMPRESS and CLOSE may answer. -/
theorem served_of_loop {st : Status} (hi : i.opcode.toNat ∈ [0x40, 0x41])
    (hc : commonCheck ⟨true, true, false⟩ s = none) (hst : st = .ok ∨ st = .limit ∨ st = .sinkOverflow) :
    Served i s st := by
  rcases hst with h | h | h
  · exact .inl h
  · exact .inr (.inr (.inl ⟨h, hi⟩))
  · exact .inr (.inr (.inr ⟨h, (encodeReady_of_commonCheck hc).1.2⟩))

theorem runLoop_status (hc : commonCheck ⟨true, true, false⟩ s = none) (T : HashTable) (P : Policy) (all : Bool)
    (maxOps : Nat) : (runLoop T P all maxOps s).status = .ok ∨ (runLoop T P all maxOps s).status = .limit
      ∨ (runLoop T P all maxOps s).status = .sinkOverflow := by
  rcases runLoop_ends T s P all maxOps (encodeReady_of_commonCheck hc) with hover | ⟨hok | hlimit, -⟩
  · exact .inr (.inr hover)
  · exact .inl hok
  · exact .inr (.inl hlimit)

end

/-- CLOSE answers its loop's status, LIMIT or SINK_OVERFLOW. -/
theorem closeStatus_closeTail (e : LoopEnd) : closeStatus (closeTail e) = e.status
    ∨ closeStatus (closeTail e) = .limit ∨ closeStatus (closeTail e) = .sinkOverflow := by
  unfold closeStatus closeTail closeFlush closeEos
  split_ifs <;> simp_all

/-- Every command is turned away, ends with a fatal status, or is served. -/
theorem ends_of_exec {i : Instr} {s t : State} (hi : i.isCommand = true) (h : exec i s = .next t) : Ends i s t := by
  have hs := Silent.refl s
  cases i with
  | init =>
    exact ends_of_runEarly h (.ite (fun hl => (Effect.init hl).silent.ends_ok ..) fun _ => .refused .config rfl)
  | regRead r =>
    exact Host.Outcome.next.inj h ▸
      .ite (fun _ => .served rfl (.inl rfl)) fun _ => ends_raiseFatal (opcode_regRead r) rfl
  | regWrite r v =>
    exact ends_of_runEarly h
      (.ite (fun _ => (Effect.regWrite r v).silent.ends_ok ..) fun _ => ends_raiseFatal (opcode_regWrite r v) rfl)
  | sinkOpen limit =>
    exact ends_of_runCommon h fun _ => .ite (fun _ => ends_raiseFatal (opcode_sinkOpen limit) rfl)
      fun hl => (Effect.sinkOpen limit (Int.not_lt.1 hl)).silent.ends_ok ..
  | write p => exact ends_of_runCommon h fun _ => (Effect.write p).silent.ends served_noSpace_or_ok ..
  | byteAt d => exact ends_of_runCommon h fun _ => hs.ends_ok ..
  | segment d n =>
    exact ends_of_runCommon h fun _ => .ite (fun _ => hs.ends_ok ..) fun _ => ends_raiseFatal (opcode_segment d n) rfl
  | matchLen d w =>
    exact ends_of_runCommon h fun _ => .ite (fun _ => hs.ends_ok ..) fun _ => ends_raiseFatal (opcode_matchLen d w) rfl
  | discard n => exact ends_of_runCommon h fun _ => (Effect.discard n).silent.ends_ok ..
  | copyN n =>
    exact ends_of_runCommon h fun _ => .ite (fun _ => .refused .limit rfl)
      fun _ => (Effect.copyN n).silent.ends served_noSpace_or_ok ..
  | hash k p =>
    exact ends_of_runCommon h fun _ => .ite (fun _ => hs.ends_ok ..) fun _ => ends_raiseFatal (opcode_hash k p) rfl
  | find => exact ends_of_runCommon h fun _ => Effect.find.silent.ends_ok ..
  | skip n =>
    rw [exec, execSkip] at h
    exact ends_of_runCommon h fun _ => (Effect.skip n).silent.ends_ok ..
  | encLit =>
    exact ends_of_runCommon h fun hc => .ite (fun _ => ends_raiseFatal opcode_encLit rfl) fun hB =>
      .ite (fun _ => (Effect.encLit (Nat.not_lt.1 hB)).silent.ends_coded hc 1) fun _ => .refused .limit rfl
  | encMatch d len =>
    exact ends_of_runCommon h fun hc => .ite (fun hok => .ite
      (fun _ => (Effect.encMatch d len hok).silent.ends_coded hc len.toNat) fun _ => .refused .limit rfl)
      fun _ => ends_raiseFatal (opcode_encMatch d len) rfl
  | encEos =>
    exact ends_of_runCommon h fun hc => .ite (fun _ => Effect.encEos.silent.ends_coded hc 0)
      fun _ => .refused .limit rfl
  | rcFlush =>
    exact ends_of_runCommon h fun _ => .ite (fun _ => .refused .limit rfl) fun _ => Effect.rcFlush.silent.ends_ok ..
  | compress all n =>
    refine ends_of_runCommon h fun hc => (Effect.compress all n).silent.ends (served_of_loop (by simp) hc ?_) ..
    exact runLoop_status hc ..
  | close =>
    refine ends_of_runCommon h fun hc => Effect.close.silent.ends (served_of_loop (by simp) hc ?_) ..
    rcases closeStatus_closeTail (runLoop Config.hashTable Config.policy true 0 s) with hst | hst
    · exact hst ▸ runLoop_status hc ..
    · exact .inr hst
  | pktLit | pktMatch | pktShortRep | pktLongRep0 | pktLongRep1 | pktLongRep2 | pktLongRep3 | pktEos => contradiction

section
variable {i : Instr} {s t : State} {r : Response}

theorem Served.not_fatal {st : Status} (h : Served i s st) : st.fatal = false := by
  rcases h with rfl | rfl | ⟨rfl, -⟩ | ⟨rfl, -⟩ <;> rfl

/-- A fatal end is `raiseFatal`'s. -/
theorem Ends.of_fatal (h : Ends i s t) (hr : t.responses = s.responses ++ [r]) (hst : r.status.fatal = true) :
    r = ⟨r.status, 0, 0, []⟩ ∧ t = raiseFatal r.status i.opcode s := by
  cases h with
  | refused st hnot =>
    obtain rfl := List.singleton_inj.1 (List.append_cancel_left hr)
    exact absurd hst (by simp [hnot])
  | fatal st =>
    rw [raiseFatal_responses] at hr
    obtain rfl := List.singleton_inj.1 (List.append_cancel_left hr)
    exact ⟨rfl, rfl⟩
  | served hr' hserved =>
    obtain rfl := List.singleton_inj.1 (List.append_cancel_left (hr'.symm.trans hr))
    exact absurd hst (by simp [hserved.not_fatal])

/-- An end that is neither fatal nor served is a refusal. -/
theorem Ends.of_not_served (h : Ends i s t) (hr : t.responses = s.responses ++ [r]) (hst : r.status.fatal = false)
    (hnot : ¬ Served i s r.status) : r = ⟨r.status, 0, 0, []⟩ ∧ t = respond r.status 0 0 [] s := by
  cases h with
  | refused st =>
    obtain rfl := List.singleton_inj.1 (List.append_cancel_left hr)
    exact ⟨rfl, rfl⟩
  | fatal st hfatal =>
    rw [raiseFatal_responses] at hr
    obtain rfl := List.singleton_inj.1 (List.append_cancel_left hr)
    exact absurd hfatal (by simp [hst])
  | served hr' hserved =>
    obtain rfl := List.singleton_inj.1 (List.append_cancel_left (hr'.symm.trans hr))
    exact absurd hserved hnot

end

/-- Settles O12: only `raiseFatal` gives a fatal status. -/
theorem fatalIsPrecise : Obligations.FatalIsPrecise := by
  intro i s t r hi hexec hr hst
  obtain ⟨hzeros, rfl⟩ := (ends_of_exec hi hexec).of_fatal hr hst
  exact ⟨hzeros, withoutLatch_raiseFatal .., raiseFatal_faulted .., fun hf => by simp [hf], fun hf => by simp [hf]⟩

/-- Settles O13: no status of the statement is one of a command that has been served. -/
theorem refusalsWriteNothing : Obligations.RefusalsWriteNothing := by
  intro i s t r hi hexec hr hst
  have hkind : r.status.fatal = false ∧ ¬ Served i s r.status := by
    cases hcase : r.status <;> simp_all [Served, Status.fatal, Status.refusal]
  obtain ⟨hzeros, rfl⟩ := (ends_of_exec hi hexec).of_not_served hr hkind.1 hkind.2
  exact ⟨hzeros, withoutTalk_respond ..⟩

end Sys2Proof.Machine
